-- ==== Sys2Proof/Word.lean ====
section
/-! DEFINITION. The words of the block: bytes, link-layer addresses, and the natural-number quantities
the spec leaves unbounded (spec/00_scope.md R7, R8; spec/20_memory.md R72). -/

namespace Sys2Proof

/-- A byte, 8 bits, bit 7 the most significant (R7, R8). -/
abbrev Byte := BitVec 8

/-- A link-layer long address (EUI-64), 64 bits, its byte 0 in bits 63:56 (R7, R21, decision D8). -/
abbrev LLAddr := BitVec 64

/-- The name of a consumer handle, "an opaque destination handle". Which names are values of HANDLE, the open type
parameter of R6 (decision D35), is `Config.isHandle`; the registry operations take HANDLE as a type argument and use
nothing of it but equality. DESIGN CHOICE, log entry 16. -/
abbrev Handle := Nat

/-- A value of `now`, a natural number in the integrator's unit (R72, R304). Log entry 17. -/
abbrev Time := Nat

end Sys2Proof
end

