-- ==== Sys2Proof/Config.lean ====
section
/-! DEFINITION. The implementation parameters of spec/00_scope.md R6. They are arguments of the model: State holds
one record of them which no operation writes, so a claim over all states is a claim over all parameter values
(log entry 1). -/

namespace Sys2Proof

/-- The parameters of R6, each under its name there. -/
structure Config where
  nSlots : Nat            -- N_SLOTS
  ctxCap : Nat            -- CTX_CAP
  maxConsumers : Nat      -- MAX_CONSUMERS
  linkMtu : Nat           -- LINK_MTU
  reassTimeout : Nat      -- REASS_TIMEOUT
  maxIpv6Len : Nat        -- MAX_IPV6_LEN
  nhcEn : Bool            -- NHC_EN
  iidUlFlip : Bool        -- IID_UL_FLIP
  tagInit : BitVec 16     -- TAG_INIT
  handles : Option Nat    -- HANDLE, up to a renaming of its values: how many it has, `none` for no bound
  deriving DecidableEq, Repr

/-- The values of HANDLE (R6): the first so many names, or all of them. DESIGN CHOICE, log entry 16: a type with decidable
equality enters the model by the number of its values. -/
def Config.isHandle (c : Config) (h : Handle) : Bool :=
  match c.handles with
  | none => true
  | some n => decide (h < n)

/-- MAX_DGRAM, the constant 2047 ("11-bit size field -> 2047 bytes", R6). -/
def maxDgram : Nat := 2047

/-- The constraints R6 puts on the parameters. -/
structure Config.Ok (c : Config) : Prop where
  nSlots_pos : 1 ≤ c.nSlots
  ctxCap_pos : 1 ≤ c.ctxCap
  ctxCap_le : c.ctxCap ≤ 16
  maxConsumers_pos : 1 ≤ c.maxConsumers
  linkMtu_ge : 13 ≤ c.linkMtu
  linkMtu_le : c.linkMtu ≤ 2047
  maxIpv6Len_ge : 40 ≤ c.maxIpv6Len

/-- The parameter values of the test vectors (R6, last column; where it states none, spec/95_test_vectors.md).
DESIGN CHOICE for the reset state only, log entries 1 and 21. -/
def Config.vectors : Config where
  nSlots := 2
  ctxCap := 16
  maxConsumers := 2
  linkMtu := 127
  reassTimeout := 60
  maxIpv6Len := 65575
  nhcEn := false
  iidUlFlip := false
  tagInit := 0x1234#16
  handles := none

end Sys2Proof
end

