-- ==== Sys2Proof/Syntax.lean ====
section
/-! DEFINITION. The instructions: one constructor per row of spec/opcode_table.json. Operations of format OP
carry the operands of spec/30_encoding.md R112; the dispatch classes carry a received frame split into the fields of
R91 to R98 and the sideband of its arrival; NHC_UDP carries its byte's field and what follows it (R107). -/

namespace Sys2Proof

/-- What arrives beside a frame on port RXF: link-layer source and destination and the time (R112, R299). -/
structure Arrival where
  srcLl : LLAddr
  dstLl : LLAddr
  now : Time
  deriving DecidableEq, Repr

/-- The fields of the two LOWPAN_IPHC base bytes (R96, R97). -/
structure IphcBase where
  tf : BitVec 2
  nh : Bool
  hlim : BitVec 2
  cid : Bool
  sac : Bool
  sam : BitVec 2
  m : Bool
  dac : Bool
  dam : BitVec 2
  deriving DecidableEq, Repr

/-- The part of the IPv6 header that DECOMPRESS has rebuilt (R181 to R188) when it reaches the NHC byte (R189). -/
structure NhcOuter where
  tc : Byte
  fl : BitVec 20
  hl : Byte
  src : BitVec 128
  dst : BitVec 128
  deriving DecidableEq, Repr

/-- The instructions of the block, in the order of the opcode table. -/
inductive Instr where
  -- format OP (R111, R112)
  | init (localLl : LLAddr) (isBr : Bool)
  | initRouter (pfx : BitVec 128) (len : Byte) (localLl : LLAddr)
  | send (destLl : LLAddr) (packet : List Byte)
  | setHc (enable : Bool)
  | register (handle : Handle)
  | ctxLookup (id : Byte)
  | ctxInsert (id : Byte) (pfx : BitVec 128) (len : Byte)
  | ctxRemove (id : Byte)
  | readStatus
  | rxFrame (frame : List Byte) (a : Arrival)
  | tick (now : Time)
  | badOp (code : Byte)
  -- format DISPATCH (R91 to R98)
  | ipv6Uncomp (a : Arrival) (packet : List Byte)
  | iphc (a : Arrival) (base : IphcBase) (rest : List Byte)
  | frag1 (a : Arrival) (x : BitVec 2) (size : BitVec 11) (tag : BitVec 16) (payload : List Byte)
  | fragN (a : Arrival) (x : BitVec 2) (size : BitVec 11) (tag : BitVec 16) (offset8 : Byte) (payload : List Byte)
  | unknown (a : Arrival) (first : Byte) (rest : List Byte)
  -- format NHC_UDP (R107)
  | nhcUdp (outer : NhcOuter) (p : BitVec 2) (rest : List Byte)
  deriving DecidableEq, Repr

end Sys2Proof
end

