-- ==== Sys2Proof/WellFormed.lean ====
section
/-! DEFINITION. When an instruction is one that its encoding and the interface contract admit: a frame fits the link
(spec/10_state.md R33), a default row is used only where no other row of the opcode table matches
(spec/30_encoding.md R91, R116), a handle is a value of HANDLE (spec/00_scope.md R6), and a reassembled datagram fits
2047 bytes. Argument values that an operation answers
with a status (an identifier above 15, a length above 128) are well formed: the operation has a meaning for them. -/

namespace Sys2Proof

/-- Fixed header lengths of the dispatch classes (R90). -/
def uncompHdrLen : Nat := 1
def iphcBaseLen : Nat := 2
def frag1HdrLen : Nat := 4
def fragNHdrLen : Nat := 5

/-- A first byte that a dispatch pattern of R91 matches. -/
def Byte.dispatched (b : Byte) : Bool :=
  b == 0x41 || b.extractLsb' 5 3 == 0b011 || b.extractLsb' 5 3 == 0b110 || b.extractLsb' 5 3 == 0b111

/-- An operation code of R111. -/
def Byte.isOpCode (b : Byte) : Bool := decide (1 ≤ b.toNat ∧ b.toNat ≤ 0x0B)

/-- Well-formedness under the parameters `c`. -/
def Instr.wellFormed (c : Config) : Instr → Bool
  | .init _ _ => true
  | .initRouter _ _ _ => true
  | .send _ _ => true
  | .setHc _ => true
  | .register h => c.isHandle h
  | .ctxLookup _ => true
  | .ctxInsert _ _ _ => true
  | .ctxRemove _ => true
  | .readStatus => true
  | .rxFrame f _ => decide (f.length ≤ c.linkMtu)
  | .tick _ => true
  | .badOp code => !Byte.isOpCode code
  | .ipv6Uncomp _ p => decide (uncompHdrLen + p.length ≤ c.linkMtu)
  | .iphc _ _ r => decide (iphcBaseLen + r.length ≤ c.linkMtu)
  | .frag1 _ _ _ _ p => decide (frag1HdrLen + p.length ≤ c.linkMtu)
  | .fragN _ _ _ _ _ p => decide (fragNHdrLen + p.length ≤ c.linkMtu)
  | .unknown _ b r => !Byte.dispatched b && decide (1 + r.length ≤ c.linkMtu)
  | .nhcUdp _ _ r => decide (iphcBaseLen + 1 + r.length ≤ maxDgram)

/-- Well-formedness as a proposition. -/
abbrev Instr.WF (c : Config) (i : Instr) : Prop := i.wellFormed c = true

end Sys2Proof
end

