-- ==== Sys2Proof/Decode.lean ====
section
/-! DEFINITION. From transactions at the block's inputs to instructions, and back. A transaction is what arrives at a
port (spec/30_encoding.md R90, R111, R112; spec/92_eei_decisions.md D1): an operation code with its operands, a frame
with its sideband, or the NHC stage with the header rebuilt so far. Also here: byte order (spec/20_memory.md R61), the
bit fields of the wire formats (R93 to R98, R107) and CLASSIFY (spec/40_dispatch_codec.md R130). -/

namespace Sys2Proof

-- ## Byte order and slices (R9, R61)

/-- `from_be(B)`: the unsigned number whose most significant byte is the first (R9). -/
def fromBE (l : List Byte) : Nat := l.foldl (fun acc b => acc * 256 + b.toNat) 0

/-- The `n` low bytes of `v`, most significant first; `be16` of R9 is `beBytes 2`. -/
def beBytes : Nat → Nat → List Byte
  | 0, _ => []
  | n + 1, v => BitVec.ofNat 8 (v >>> (8 * n)) :: beBytes n v

/-- `B[i..j)` (R9). -/
def slice (l : List Byte) (i j : Nat) : List Byte := (l.drop i).take (j - i)

/-- `B[i]`. Every use stands behind a length test, so the default is never the answer (R64). -/
def byteAt (l : List Byte) (i : Nat) : Byte := l.getD i 0

/-- `zeros(n)` (R9). -/
def zeros (n : Nat) : List Byte := List.replicate n 0

/-- The 8 bytes of a link-layer address, byte 0 from bits 63:56 (R21). -/
def llBytes (ll : LLAddr) : List Byte := beBytes 8 ll.toNat

/-- The 16 bytes of a 128-bit address or prefix, `A[0]` first (R9). -/
def addrBytes (a : BitVec 128) : List Byte := beBytes 16 a.toNat

/-- The 128-bit value of 16 address bytes. -/
def addrOf (l : List Byte) : BitVec 128 := BitVec.ofNat 128 (fromBE l)

-- ## Transactions

/-- The operands that can accompany an operation code (R112). Each operation reads its own and ignores the rest.
DESIGN CHOICE: the spec gives operands names and widths and no byte layout, log entry 4. -/
structure OpArgs where
  localLl : LLAddr := 0
  isBr : Bool := false
  pfx : BitVec 128 := 0
  len : Byte := 0
  destLl : LLAddr := 0
  packet : List Byte := []
  enable : Bool := false
  handle : Handle := 0
  id : Byte := 0
  frame : List Byte := []
  srcLl : LLAddr := 0
  dstLl : LLAddr := 0
  now : Time := 0
  deriving DecidableEq, Repr

/-- One input transaction, by format (R90). -/
inductive Txn where
  /-- format OP: an 8-bit code and its operands, at CMD, RXF or TICK (R111, R112). -/
  | op (code : Byte) (args : OpArgs)
  /-- format DISPATCH: a frame as it stands on the wire, with its sideband (R91). Log entry 5. -/
  | frame (bytes : List Byte) (a : Arrival)
  /-- format NHC_UDP: the bytes from the NHC byte on, with the header rebuilt before it (R107). Log entry 6. -/
  | nhc (bytes : List Byte) (outer : NhcOuter)
  deriving DecidableEq, Repr

/-- Why bytes are no instruction. -/
inductive DecodeError where
  /-- R136: an empty input, or one shorter than the fixed header of its class. -/
  | truncated
  /-- R189: an NHC byte that is not `11110 0 PP`. -/
  | unsupportedNhc
  deriving DecidableEq, Repr

-- ## The dispatch codec (R91, R130)

/-- The results of CLASSIFY (R130). -/
inductive FrameClass where
  | ipv6Uncomp | iphc | frag1 | fragN | unknown | truncated
  deriving DecidableEq, Repr

/-- The class a first byte selects and the fixed header length of that class (R91, R131 to R135). -/
def classOfByte (b : Byte) : FrameClass × Nat :=
  if b = 0x41 then (.ipv6Uncomp, uncompHdrLen)
  else if b.extractLsb' 5 3 = 0b011 then (.iphc, iphcBaseLen)
  else if b.extractLsb' 5 3 = 0b110 then (.frag1, frag1HdrLen)
  else if b.extractLsb' 5 3 = 0b111 then (.fragN, fragNHdrLen)
  else (.unknown, 0)

/-- CLASSIFY (R130): the class and the header bytes consumed; the class test comes before the length test (R136). -/
def classify : List Byte → FrameClass × Nat
  | [] => (.truncated, 0)
  | b :: rest =>
    let (cls, need) := classOfByte b
    if rest.length + 1 < need then (.truncated, 0) else (cls, need)

-- ## Fields of the wire formats

/-- IPHC base byte 1 (R96): `011`, TF, NH, HLIM. -/
def iphcByte1 (f : IphcBase) : Byte := 0b011#3 ++ f.tf ++ BitVec.ofBool f.nh ++ f.hlim

/-- IPHC base byte 2 (R97): CID, SAC, SAM, M, DAC, DAM. -/
def iphcByte2 (f : IphcBase) : Byte :=
  BitVec.ofBool f.cid ++ BitVec.ofBool f.sac ++ f.sam ++ BitVec.ofBool f.m ++ BitVec.ofBool f.dac ++ f.dam

/-- The fields of the two base bytes (R181). -/
def iphcBaseOf (b0 b1 : Byte) : IphcBase where
  tf := b0.extractLsb' 3 2
  nh := b0.getLsbD 2
  hlim := b0.extractLsb' 0 2
  cid := b1.getLsbD 7
  sac := b1.getLsbD 6
  sam := b1.extractLsb' 4 2
  m := b1.getLsbD 3
  dac := b1.getLsbD 2
  dam := b1.extractLsb' 0 2

/-- Bits 4:3 of a fragment header's first byte: in no field, ignored on receive (R93, decision D6). -/
def fragX (b0 : Byte) : BitVec 2 := b0.extractLsb' 3 2

/-- `size = B[0][2:0] * 256 + B[1]` (R95). -/
def fragSize (b0 b1 : Byte) : BitVec 11 := b0.extractLsb' 0 3 ++ b1

/-- `tag = B[2] * 256 + B[3]` (R95). -/
def fragTag (b2 b3 : Byte) : BitVec 16 := b2 ++ b3

/-- The four bytes a fragment header starts with (R93, R94): pattern, bits 4:3, size, tag. -/
def fragHeader (pattern : BitVec 3) (x : BitVec 2) (size : BitVec 11) (tag : BitVec 16) : List Byte :=
  [pattern ++ x ++ size.extractLsb' 8 3, size.extractLsb' 0 8, tag.extractLsb' 8 8, tag.extractLsb' 0 8]

/-- The bit pattern of FRAG1 and of FRAGN (R91). -/
def frag1Pattern : BitVec 3 := 0b110
def fragNPattern : BitVec 3 := 0b111

/-- `n[7:3] = 11110` and `C = n[2] = 0`: the UDP NHC byte this block decodes (R107, R189). -/
def isUdpNhc (n : Byte) : Bool := n.extractLsb' 2 6 == 0b111100

/-- The UDP NHC byte with port mode `p` (R107, R160). -/
def udpNhcByte (p : BitVec 2) : Byte := 0b111100#6 ++ p

-- ## Decoding

/-- Format OP: the operation a code selects, with the operands it reads (R111, R112, R269). -/
def decodeOp (code : Byte) (g : OpArgs) : Instr :=
  match code.toNat with
  | 0x01 => .init g.localLl g.isBr
  | 0x02 => .initRouter g.pfx g.len g.localLl
  | 0x03 => .send g.destLl g.packet
  | 0x04 => .setHc g.enable
  | 0x05 => .register g.handle
  | 0x06 => .ctxLookup g.id
  | 0x07 => .ctxInsert g.id g.pfx g.len
  | 0x08 => .ctxRemove g.id
  | 0x09 => .readStatus
  | 0x0A => .rxFrame g.frame ⟨g.srcLl, g.dstLl, g.now⟩
  | 0x0B => .tick g.now
  | _ => .badOp code

/-- Format DISPATCH: the frame's class (R130) and the fields of its fixed header (R92 to R97). -/
def decodeFrame (bytes : List Byte) (a : Arrival) : Except DecodeError Instr :=
  match (classify bytes).1, bytes with
  | .ipv6Uncomp, _ :: packet => .ok (.ipv6Uncomp a packet)
  | .iphc, b0 :: b1 :: rest => .ok (.iphc a (iphcBaseOf b0 b1) rest)
  | .frag1, b0 :: b1 :: b2 :: b3 :: payload =>
    .ok (.frag1 a (fragX b0) (fragSize b0 b1) (fragTag b2 b3) payload)
  | .fragN, b0 :: b1 :: b2 :: b3 :: b4 :: payload =>
    .ok (.fragN a (fragX b0) (fragSize b0 b1) (fragTag b2 b3) b4 payload)
  | .unknown, b0 :: rest => .ok (.unknown a b0 rest)
  | _, _ => .error .truncated

/-- Format NHC_UDP: the port mode of an NHC byte of the one kind the block decodes (R107, R189). -/
def decodeNhc (bytes : List Byte) (outer : NhcOuter) : Except DecodeError Instr :=
  match bytes with
  | [] => .error .truncated
  | n :: rest => if isUdpNhc n then .ok (.nhcUdp outer (n.extractLsb' 0 2) rest) else .error .unsupportedNhc

/-- The instruction of a transaction, or the reason it is none. -/
def decode : Txn → Except DecodeError Instr
  | .op code g => .ok (decodeOp code g)
  | .frame bytes a => decodeFrame bytes a
  | .nhc bytes outer => decodeNhc bytes outer

-- ## Encoding

/-- The transaction of an instruction: the code and operands of R111 and R112, or the wire bytes of R92 to R99 and R107. -/
def encode : Instr → Txn
  | .init localLl isBr => .op 0x01 { localLl := localLl, isBr := isBr }
  | .initRouter pfx len localLl => .op 0x02 { pfx := pfx, len := len, localLl := localLl }
  | .send destLl packet => .op 0x03 { destLl := destLl, packet := packet }
  | .setHc enable => .op 0x04 { enable := enable }
  | .register handle => .op 0x05 { handle := handle }
  | .ctxLookup id => .op 0x06 { id := id }
  | .ctxInsert id pfx len => .op 0x07 { id := id, pfx := pfx, len := len }
  | .ctxRemove id => .op 0x08 { id := id }
  | .readStatus => .op 0x09 {}
  | .rxFrame frame a => .op 0x0A { frame := frame, srcLl := a.srcLl, dstLl := a.dstLl, now := a.now }
  | .tick now => .op 0x0B { now := now }
  | .badOp code => .op code {}
  | .ipv6Uncomp a packet => .frame (0x41 :: packet) a
  | .iphc a base rest => .frame (iphcByte1 base :: iphcByte2 base :: rest) a
  | .frag1 a x size tag payload => .frame (fragHeader frag1Pattern x size tag ++ payload) a
  | .fragN a x size tag offset8 payload => .frame (fragHeader fragNPattern x size tag ++ offset8 :: payload) a
  | .unknown a first rest => .frame (first :: rest) a
  | .nhcUdp outer p rest => .nhc (udpNhcByte p :: rest) outer

-- ## The opcode table's words

/-- How many bytes a table word is laid out in: its own bytes, then zeros, more than the longest header (R115). -/
def tableBytes : Nat := 48

/-- The bytes of the word `w` of `nbits` bits, bit 0 the least significant bit of the first byte, zeros above. -/
def wordBytes (nbits w : Nat) : List Byte :=
  (List.range tableBytes).map (fun i => BitVec.ofNat 8 ((w % 2 ^ nbits) >>> (8 * i)))

/-- The transaction of a table word. The table's rows are of three formats that share their first bytes, so the word
alone does not name the format: a word of one byte below 0x40 is an operation code, a word of one byte that is
`111100pp` is an NHC byte, and every other word is a frame. Operands and sideband are zero. DESIGN CHOICE, log entry 7. -/
def tableTxn (nbits w : Nat) : Txn :=
  let bytes := wordBytes nbits w
  let b := byteAt bytes 0
  if nbits ≤ 8 ∧ b.toNat < 0x40 then .op b {}
  else if nbits ≤ 8 ∧ isUdpNhc b then .nhc bytes ⟨0, 0, 0, 0, 0⟩
  else .frame bytes ⟨0, 0, 0⟩

/-- The instruction the decoder reads from a word of the opcode table. -/
def decodeTableWord (nbits w : Nat) : Option Instr :=
  match decode (tableTxn nbits w) with
  | .ok i => some i
  | .error _ => none

end Sys2Proof
end

