-- ==== Sys2Proof/Machine/State.lean ====
section
/-! DEFINITION. The state of the block (spec/10_state.md R20 to R32), its outcomes and its reset (R35,
spec/70_reset_and_hazards.md R320). Where the spec says that a field has no value (R37) the field is absent: an unused
context entry and an EMPTY slot are `none`, and a byte that was not received is not listed. -/

namespace Sys2Proof.Machine

-- ## The context table (R23)

/-- A context entry in use. `in_use = 0` is `none` in the table: its prefix and length are meaningless (R23, R37). -/
structure CtxEntry where
  pfx : BitVec 128
  len : Byte
  deriving DecidableEq, Repr

/-- `CTX[0..15]` (R23). -/
abbrev CtxTable := Vector (Option CtxEntry) 16

-- ## The reassembly pool (R25 to R28)

/-- Slot storage (R28): the received bytes by address, addresses strictly rising. `rcvd[i] = 1` exactly where `i` is
listed (R26 d), and an unlisted address reads as no value (R37). Log entry 14. -/
abbrev Memory := List Host.Cell

/-- The fields of a FILLING slot (R25). -/
structure Slot where
  srcLl : LLAddr
  tag : BitVec 16
  size : BitVec 11
  data : Memory
  tCreated : Time
  deriving DecidableEq, Repr

-- ## The in-flight send (R31)

/-- `TXQ = BUSY`: the datagram being sent and the cursor. -/
structure InFlight where
  destLl : LLAddr
  datagram : List Byte
  tag : BitVec 16
  nextOff : Nat
  fragmented : Bool
  /-- The frame at `nextOff` has been handed over and the transceiver has not answered for it (R264). Log entry 9. -/
  awaiting : Bool
  deriving DecidableEq, Repr

/-- `TXQ` (R31). -/
inductive TxQueue where
  | idle
  | busy (f : InFlight)
  deriving DecidableEq, Repr

-- ## Status codes and outputs (R290, R112)

/-- The status codes by name (spec/60_exceptions.md R290); their numbers are `Status.code`. -/
inductive Status where
  | ok
  | unknownDispatch | truncated | noContext | reservedMode | unsupportedNhc
  | tooLong | fragOverflow | fragSizeMismatch | fragZeroSize | nestedDispatch
  | ctxFull | regFull | regDup | badArg | oversized | transceiver | notInit | badOp
  deriving DecidableEq, Repr

/-- The record READ_STATUS returns (spec/46_host_ops_and_registry.md R267). -/
structure StatusRecord where
  hcEn : Bool
  isBr : Bool
  localLl : LLAddr
  tagCtr : BitVec 16
  cntEvictLru : BitVec 32
  cntEvictCorrupt : BitVec 32
  cntTimeout : BitVec 32
  cntDrop : BitVec 32
  lastErr : BitVec 8
  nFilling : Nat
  nCtx : Nat
  nConsumers : Nat
  txBusy : Bool
  deriving DecidableEq, Repr

/-- What an operation returns beside its status (R112). -/
inductive RetVal where
  | none
  | context (r : Option CtxEntry)
  | record (r : StatusRecord)
  deriving DecidableEq, Repr

/-- The output transactions (R112, R299): a returned status with the code of its operation, a frame handed to the
transceiver, a unit delivered to a consumer (R110). -/
inductive Output where
  | ret (op : Byte) (status : Status) (val : RetVal)
  | txf (destLl : LLAddr) (frame : List Byte)
  | dlv (handle : Handle) (len : BitVec 16) (bytes : List Byte)
  deriving DecidableEq, Repr

-- ## Inputs

/-- What can happen next, by agent (R68, R299): an input transaction, the next step of the block's own transmit side
(R71, R264), or the transceiver's answer to the frame handed over. Log entries 3 and 9. -/
inductive Event where
  | txn (t : Txn)
  | tx
  | answer (ok : Bool)
  deriving DecidableEq, Repr

-- ## The state

/-- The state record of R20, each element under its name there, then the parameters and the model's own fields. -/
structure State where
  initDone : Bool                     -- INIT_DONE
  localLl : LLAddr                    -- LOCAL_LL
  isBr : Bool                         -- IS_BR
  hcEn : Bool                         -- HC_EN
  tagCtr : BitVec 16                  -- TAG_CTR
  ctx : CtxTable                      -- CTX
  slots : List (Option Slot)          -- SLOT, `none` is EMPTY
  lru : List Nat                      -- LRU, head most recently updated
  reg : List (Option Handle)          -- REG, `none` is valid = 0
  cntEvictLru : BitVec 32             -- CNT_EVICT_LRU
  cntEvictCorrupt : BitVec 32         -- CNT_EVICT_CORRUPT
  cntTimeout : BitVec 32              -- CNT_TIMEOUT
  cntDrop : BitVec 32                 -- CNT_DROP
  lastErr : BitVec 8                  -- LAST_ERR
  txq : TxQueue                       -- TXQ
  -- the parameters of R6 (log entry 1)
  cfg : Config
  -- the model's own fields
  inputs : List Event                 -- inputs not yet taken, in the order in which they are performed (log entry 3)
  out : List Output                   -- output transactions so far, oldest first (log entry 8)
  sendWait : List (LLAddr × List Byte)  -- SENDs that wait for TXQ, oldest first (log entry 10)
  lastNow : Time                      -- the largest `now` taken so far (R304, log entry 13)
  deriving DecidableEq, Repr

-- ## Outcomes

/-- Faults: states in which the spec's own rules have no next step. -/
inductive Fault where
  /-- Raised by slot allocation when no slot is EMPTY and LRU names no victim (R236 says LRU is then not empty). Safe:
  no state that keeps the invariant of R27 reaches it. Log entry 19. -/
  | poolEmpty
  deriving DecidableEq, Repr

/-- Refusals: inputs outside the interface contract, and instructions without a meaning. -/
inductive Refusal where
  /-- Raised by exec for an instruction that has no meaning yet. Safe. No arm raises it. -/
  | notModelled (mnemonic : String)
  /-- Raised by INIT and INIT_ROUTER when INIT_DONE = 1: "re-init is undefined", which the spec has a model refuse
  (R270, U1). Safe. Log entry 12. -/
  | reInit
  /-- Raised by the arrival of a frame longer than LINK_MTU, outside the precondition of R265 (U3). Safe. Log entry 13. -/
  | frameTooLong
  /-- Raised by RX_FRAME and TICK when `now` is smaller than an earlier `now`, outside the precondition of R304 (U11).
  Safe. Log entry 13. -/
  | timeBackwards
  /-- Raised by an answer of the transceiver when no frame awaits one: R264 gives an answer a meaning only after a
  hand-over. Safe. Log entry 11. -/
  | strayAnswer
  deriving DecidableEq, Repr

-- ## Reset

/-- The state after hardware reset under the parameters `c` (R35, R320): `INIT_DONE = 0`, `TAG_CTR = TAG_INIT`,
`TXQ = IDLE`; every element that R35 calls unspecified holds the value of log entry 2 (zero, unused, EMPTY). -/
def State.resetWith (c : Config) : State where
  initDone := false
  localLl := 0
  isBr := false
  hcEn := false
  tagCtr := c.tagInit
  ctx := Vector.replicate 16 none
  slots := List.replicate c.nSlots none
  lru := []
  reg := List.replicate c.maxConsumers none
  cntEvictLru := 0
  cntEvictCorrupt := 0
  cntTimeout := 0
  cntDrop := 0
  lastErr := 0
  txq := .idle
  cfg := c
  inputs := []
  out := []
  sendWait := []
  lastNow := 0

/-- The machine right after reset, with the parameter values of the test vectors (log entry 1). -/
def State.reset : State := State.resetWith Config.vectors

end Sys2Proof.Machine
end

