-- ==== Sys2Proof/Machine/Flags.lean ====
section
/-! DEFINITION. Status codes, counters and the status record. The block has no arithmetic flags
(spec/10_state.md R36): what a later operation can observe of an earlier one is these (R29, R267, R290). -/

namespace Sys2Proof.Machine

/-- The 8-bit number of a status (spec/60_exceptions.md R290). -/
def Status.code : Status → BitVec 8
  | .ok => 0x00
  | .unknownDispatch => 0x01
  | .truncated => 0x02
  | .noContext => 0x03
  | .reservedMode => 0x04
  | .unsupportedNhc => 0x05
  | .tooLong => 0x06
  | .fragOverflow => 0x07
  | .fragSizeMismatch => 0x08
  | .fragZeroSize => 0x09
  | .nestedDispatch => 0x0A
  | .ctxFull => 0x10
  | .regFull => 0x11
  | .regDup => 0x12
  | .badArg => 0x13
  | .oversized => 0x14
  | .transceiver => 0x15
  | .notInit => 0x16
  | .badOp => 0x17

/-- LRU eviction is counted, modulo 2^32 (R29, R236). -/
def State.countEvictLru (s : State) : State := { s with cntEvictLru := s.cntEvictLru + 1 }

/-- Eviction of a corrupt slot is counted (R29, R233, R237). -/
def State.countEvictCorrupt (s : State) : State := { s with cntEvictCorrupt := s.cntEvictCorrupt + 1 }

/-- Timeout eviction is counted (R29, R242). -/
def State.countTimeout (s : State) : State := { s with cntTimeout := s.cntTimeout + 1 }

/-- `count(in_use)` (R141). -/
def ctxCount (t : CtxTable) : Nat := t.toList.countP (fun e => e.isSome)

/-- The number of valid registry entries (R267). -/
def regCount {H : Type} (r : List (Option H)) : Nat := r.countP (fun e => e.isSome)

/-- The record of READ_STATUS (R267). -/
def State.statusRecord (s : State) : StatusRecord where
  hcEn := s.hcEn
  isBr := s.isBr
  localLl := s.localLl
  tagCtr := s.tagCtr
  cntEvictLru := s.cntEvictLru
  cntEvictCorrupt := s.cntEvictCorrupt
  cntTimeout := s.cntTimeout
  cntDrop := s.cntDrop
  lastErr := s.lastErr
  nFilling := s.lru.length
  nCtx := ctxCount s.ctx
  nConsumers := regCount s.reg
  txBusy := s.txq != .idle

end Sys2Proof.Machine
end

