-- ==== Sys2Proof/Machine/Ops.lean ====
section
/-! DEFINITION. The named operations over the state: slot storage, output, the two ways an operation fails (a returned
status, spec/00_scope.md R11, and the drop, spec/60_exceptions.md R293), the slot pool (spec/45_reassembly_manager.md
R233 to R239), the context table (spec/41_context_table.md R144) and the registry (spec/46_host_ops_and_registry.md
R272, R274). -/

namespace Sys2Proof.Machine

/-- The outcome of one operation of the block. -/
abbrev Result := Host.Outcome State Fault Refusal

-- ## Slot storage (R28, R64)

/-- The byte at an address, or no value where none was received (R37). -/
def Memory.read : Memory → Nat → Option Byte
  | [], _ => none
  | (a, b) :: m, k => if a = k then some b else Memory.read m k

/-- One byte written: the earlier byte of that address, if any, is replaced (R238). -/
def Memory.write : Memory → Nat → Byte → Memory
  | [], k, v => [(k, v)]
  | (a, b) :: m, k, v =>
    if k < a then (k, v) :: (a, b) :: m
    else if k = a then (k, v) :: m
    else (a, b) :: Memory.write m k v

/-- A run of bytes written from `off` on (R238). -/
def Memory.writeRun (m : Memory) (off : Nat) : List Byte → Memory
  | [] => m
  | b :: bs => Memory.writeRun (Memory.write m off b) (off + 1) bs

/-- The `n` bytes from `off` on, if every one of them has a value (R240). -/
def Memory.readRun (m : Memory) : Nat → Nat → Option (List Byte)
  | _, 0 => some []
  | off, n + 1 =>
    match Memory.read m off, Memory.readRun m (off + 1) n with
    | some b, some bs => some (b :: bs)
    | _, _ => none

/-- The canonical form of slot storage: addresses strictly rising. -/
def Memory.wf (m : Memory) : Bool := decide ((m.map Prod.fst).Pairwise (· < ·))

/-- Every FILLING slot's storage is in canonical form. -/
def State.memWf (s : State) : Bool :=
  s.slots.all (fun o => match o with | some sl => Memory.wf sl.data | none => true)

-- ## Output and failure

/-- `emit PORT(fields)` (R10). -/
def State.emit (s : State) (o : Output) : State := { s with out := s.out ++ [o] }

/-- An operation of port CMD returns its status, and a result where R112 gives one. -/
def State.ret (s : State) (op : Byte) (st : Status) (v : RetVal := .none) : State := s.emit (.ret op st v)

/-- `drop(E_X)` (R293), the block's one exception operation: the drop is counted, its code is kept in LAST_ERR, and
nothing else changes. There is no return from it (R302). -/
def State.drop (s : State) (e : Status) : State := { s with cntDrop := s.cntDrop + 1, lastErr := e.code }

-- ## The slot pool

/-- The contents of slot `i`, `none` when it is EMPTY. -/
def State.slotAt (s : State) (i : Nat) : Option Slot := (s.slots[i]?).getD none

/-- The first slot from index `i` on that is FILLING for the key `(src, tag)`. -/
def findSlot (src : LLAddr) (tag : BitVec 16) : Nat → List (Option Slot) → Option (Nat × Slot)
  | _, [] => none
  | i, some sl :: rest => if sl.srcLl = src ∧ sl.tag = tag then some (i, sl) else findSlot src tag (i + 1) rest
  | i, none :: rest => findSlot src tag (i + 1) rest

/-- `MATCH(src_ll, tag)` (R234), with the contents of the slot it finds. -/
def State.matchSlot (s : State) (src : LLAddr) (tag : BitVec 16) : Option (Nat × Slot) := findSlot src tag 0 s.slots

/-- The lowest index from `i` on whose slot is EMPTY. -/
def findEmpty : Nat → List (Option Slot) → Option Nat
  | _, [] => none
  | i, none :: _ => some i
  | i, some _ :: rest => findEmpty (i + 1) rest

/-- `FREE(s)` (R233): the slot becomes EMPTY and leaves LRU. -/
def State.freeSlot (s : State) (i : Nat) : State :=
  { s with slots := s.slots.set i none, lru := s.lru.filter (fun j => j != i) }

/-- A slot's contents written, and the slot moved to the head of LRU (R235, R238, R239). -/
def State.putSlot (s : State) (i : Nat) (sl : Slot) : State :=
  { s with slots := s.slots.set i (some sl), lru := i :: s.lru.filter (fun j => j != i) }

/-- The slot failed as corrupt, if one matched (R233, R237). -/
def State.failSlot (s : State) : Option (Nat × Slot) → State
  | some (i, _) => (s.freeSlot i).countEvictCorrupt
  | none => s

/-- The slot a new key takes (R235, R236): the lowest EMPTY one, else the least recently updated, which is freed and
counted. `none` when LRU names no victim, which R236 rules out. -/
def State.chooseSlot (s : State) : Option (Nat × State) :=
  match findEmpty 0 s.slots with
  | some i => some (i, s)
  | none =>
    match s.lru.getLast? with
    | some v => some (v, (s.freeSlot v).countEvictLru)
    | none => none

-- ## The context table

/-- An entry of the table by its 4-bit identifier. -/
def ctxEntry (t : CtxTable) (id : BitVec 4) : Option CtxEntry := t[id.toNat]'(id.isLt)

/-- The implicit link-local context of identifier 0: `fe80::/64` (R144, R114). -/
def implicitCtx : CtxEntry := ⟨0xfe800000000000000000000000000000#128, 64⟩

/-- `LOOKUP(id)` (R144). -/
def lookupCtx (t : CtxTable) (id : BitVec 4) : Option CtxEntry :=
  match ctxEntry t id with
  | some e => some e
  | none => if id = 0 then some implicitCtx else none

/-- An entry of the table replaced. -/
def setCtx (t : CtxTable) (id : BitVec 4) (e : Option CtxEntry) : CtxTable := t.set id.toNat e (id.isLt)

/-- The low 4 bits of an identifier operand; used after the test `id <= 15` (R140 to R142). -/
def ctxId (id : Byte) : BitVec 4 := id.extractLsb' 0 4

-- ## The registry and delivery, over any type HANDLE with decidable equality (R6, decision D35)

/-- The lowest index from `j` on whose registry entry is not valid (R272). -/
def findFreeReg {H : Type} : Nat → List (Option H) → Option Nat
  | _, [] => none
  | j, none :: _ => some j
  | j, some _ :: rest => findFreeReg (j + 1) rest

/-- A registration (R272): the duplicate test, then the full test, then the lowest entry that is not valid. -/
def registerIn {H : Type} [DecidableEq H] (h : H) (r : List (Option H)) : Except Status (List (Option H)) :=
  if some h ∈ r then .error .regDup
  else
    match findFreeReg 0 r with
    | none => .error .regFull
    | some j => .ok (r.set j (some h))

/-- The registered consumers in index order (R274). -/
def consumers {H : Type} (r : List (Option H)) : List H := r.filterMap id

/-- `DELIVER(P)` (R274): one DLV per valid registry entry, in index order; none registered, no output and no error. -/
def State.deliver (s : State) (p : List Byte) : State :=
  { s with out := s.out ++ (consumers s.reg).map (fun h => .dlv h (BitVec.ofNat 16 p.length) p) }

/-- The delivered unit as a byte sequence: 16-bit length, most significant byte first, then the bytes (R110). -/
def dlvUnit (len : BitVec 16) (bytes : List Byte) : List Byte := beBytes 2 len.toNat ++ bytes

end Sys2Proof.Machine
end

