-- ==== Sys2Proof/Machine/Context.lean ====
section
/-! DEFINITION. The context-table operations CTX_LOOKUP, CTX_INSERT, CTX_REMOVE (spec/41_context_table.md R140 to R146). -/

namespace Sys2Proof.Machine

/-- An identifier above 15 is a bad argument (R140 to R142). -/
def badId (id : Byte) : Bool := decide (id.toNat > 15)

/-- A prefix length above 128 is a bad argument (R141, R261). -/
def badLen (len : Byte) : Bool := decide (len.toNat > 128)

/-- CTX_LOOKUP, 0x06 (R140): the entry or none; "no context" is a result, not an error. -/
def execCtxLookup (id : Byte) (s : State) : Result :=
  if !s.initDone then .next (s.ret 0x06 .notInit)
  else if badId id then .next (s.ret 0x06 .badArg)
  else .next (s.ret 0x06 .ok (.context (lookupCtx s.ctx (ctxId id))))

/-- CTX_INSERT, 0x07 (R141): an entry in use is overwritten even when the table is full. -/
def execCtxInsert (id : Byte) (pfx : BitVec 128) (len : Byte) (s : State) : Result :=
  if !s.initDone then .next (s.ret 0x07 .notInit)
  else if badId id || badLen len then .next (s.ret 0x07 .badArg)
  else if ctxEntry s.ctx (ctxId id) = none ∧ ctxCount s.ctx = s.cfg.ctxCap then .next (s.ret 0x07 .ctxFull)
  else
    let s' : State := { s with ctx := setCtx s.ctx (ctxId id) (some ⟨pfx, len⟩) }
    .next (s'.ret 0x07 .ok)

/-- CTX_REMOVE, 0x08 (R142): removing an identifier that is not in use succeeds. -/
def execCtxRemove (id : Byte) (s : State) : Result :=
  if !s.initDone then .next (s.ret 0x08 .notInit)
  else if badId id then .next (s.ret 0x08 .badArg)
  else
    let s' : State := { s with ctx := setCtx s.ctx (ctxId id) none }
    .next (s'.ret 0x08 .ok)

end Sys2Proof.Machine
end

