-- ==== Sys2Proof/Machine/HostOps.lean ====
section
/-! DEFINITION. Setup, configuration and status: INIT, INIT_ROUTER, SET_HC, REGISTER, READ_STATUS, BAD_OP
(spec/46_host_ops_and_registry.md R260 to R262, R267 to R270, R272). -/

namespace Sys2Proof.Machine

/-- What INIT writes (R260, and the INIT column of R35). `TAG_CTR` is not touched; neither are the parameters and the
model's own fields (log entry 20). -/
def State.setup (s : State) (localLl : LLAddr) (isBr : Bool) : State :=
  { s with
    initDone := true
    localLl := localLl
    isBr := isBr
    hcEn := true
    ctx := Vector.replicate 16 none
    slots := List.replicate s.cfg.nSlots none
    lru := []
    reg := List.replicate s.cfg.maxConsumers none
    cntEvictLru := 0
    cntEvictCorrupt := 0
    cntTimeout := 0
    cntDrop := 0
    lastErr := 0
    txq := .idle }

/-- INIT, 0x01 (R260); a second one is refused (R270). -/
def execInit (localLl : LLAddr) (isBr : Bool) (s : State) : Result :=
  if s.initDone then .refused .reInit
  else .next ((s.setup localLl isBr).ret 0x01 .ok)

/-- INIT_ROUTER, 0x02 (R261): INIT with IS_BR = 1, and context 0 seeded. -/
def execInitRouter (pfx : BitVec 128) (len : Byte) (localLl : LLAddr) (s : State) : Result :=
  if s.initDone then .refused .reInit
  else if badLen len then .next (s.ret 0x02 .badArg)
  else
    let s1 := s.setup localLl true
    let s2 : State := { s1 with ctx := setCtx s1.ctx 0 (some ⟨pfx, len⟩) }
    .next (s2.ret 0x02 .ok)

/-- SET_HC, 0x04 (R262). -/
def execSetHc (enable : Bool) (s : State) : Result :=
  if !s.initDone then .next (s.ret 0x04 .notInit)
  else
    let s' : State := { s with hcEn := enable }
    .next (s'.ret 0x04 .ok)

/-- REGISTER, 0x05 (R272). -/
def execRegister (handle : Handle) (s : State) : Result :=
  if !s.initDone then .next (s.ret 0x05 .notInit)
  else
    match registerIn handle s.reg with
    | .error e => .next (s.ret 0x05 e)
    | .ok r =>
      let s' : State := { s with reg := r }
      .next (s'.ret 0x05 .ok)

/-- READ_STATUS, 0x09 (R267): changes nothing. -/
def execReadStatus (s : State) : Result :=
  if !s.initDone then .next (s.ret 0x09 .notInit)
  else .next (s.ret 0x09 .ok (.record s.statusRecord))

/-- An operation code outside R111 (R269): E_BAD_OP whatever INIT_DONE is (R292, log entry 18). -/
def execBadOp (code : Byte) (s : State) : Result := .next (s.ret code .badOp)

end Sys2Proof.Machine
end

