-- ==== Sys2Proof/Machine/Operands.lean ====
section
/-! DEFINITION. The operand forms of the wire formats: fragment headers (spec/30_encoding.md R95), in-line traffic class
and flow label (R100), hop limit (R96), address modes (R102 to R106), UDP ports (R107), header lengths (R115) and the
IPv6 header layout (R108). The compressor and the decompressor both use these. -/

namespace Sys2Proof.Machine

-- ## Fragment headers (R95, R231)

/-- The byte offset a FRAGN header's offset field stands for: units of 8 bytes (R95). -/
def fragOffset (offset8 : Byte) : Nat := offset8.toNat * 8

/-- The operands of a fragment frame: size, tag, offset, payload; `next` says FRAGN (R95, R231). -/
def fragOperands (next : Bool) (f : List Byte) : BitVec 11 × BitVec 16 × Nat × List Byte :=
  (fragSize (byteAt f 0) (byteAt f 1), fragTag (byteAt f 2) (byteAt f 3),
   if next then fragOffset (byteAt f 4) else 0,
   f.drop (if next then fragNHdrLen else frag1HdrLen))

-- ## Traffic class and flow label (R100)

/-- In-line bytes of traffic class and flow label by TF (R100, R115). -/
def tfLen (tf : BitVec 2) : Nat :=
  match tf.toNat with
  | 0 => 4
  | 1 => 3
  | 2 => 1
  | _ => 0

/-- `DSCP = TC[7:2]`, `ECN = TC[1:0]` (R108). -/
def dscp (tc : Byte) : BitVec 6 := tc.extractLsb' 2 6
def ecn (tc : Byte) : BitVec 2 := tc.extractLsb' 0 2

/-- The TF value for a traffic class and a flow label (R152). -/
def tfMode (tc : Byte) (fl : BitVec 20) : BitVec 2 :=
  if tc = 0 ∧ fl = 0 then 0b11
  else if fl = 0 then 0b10
  else if dscp tc = 0 then 0b01
  else 0b00

/-- The in-line bytes for a TF value: ECN above DSCP, padding bits zero (R100, decision D18). -/
def tfInline (tf : BitVec 2) (tc : Byte) (fl : BitVec 20) : List Byte :=
  match tf.toNat with
  | 0 => [ecn tc ++ dscp tc, 0#4 ++ fl.extractLsb' 16 4, fl.extractLsb' 8 8, fl.extractLsb' 0 8]
  | 1 => [ecn tc ++ 0#2 ++ fl.extractLsb' 16 4, fl.extractLsb' 8 8, fl.extractLsb' 0 8]
  | 2 => [ecn tc ++ dscp tc]
  | _ => []

/-- Traffic class and flow label from the in-line bytes; padding bits are ignored (R100, R183). -/
def tfOperands (tf : BitVec 2) (t : List Byte) : Byte × BitVec 20 :=
  match tf.toNat with
  | 0 => ((byteAt t 0).extractLsb' 0 6 ++ (byteAt t 0).extractLsb' 6 2,
          (byteAt t 1).extractLsb' 0 4 ++ byteAt t 2 ++ byteAt t 3)
  | 1 => (0#6 ++ (byteAt t 0).extractLsb' 6 2, (byteAt t 0).extractLsb' 0 4 ++ byteAt t 1 ++ byteAt t 2)
  | 2 => ((byteAt t 0).extractLsb' 0 6 ++ (byteAt t 0).extractLsb' 6 2, 0)
  | _ => (0, 0)

-- ## Hop limit (R96)

/-- The hop limit an HLIM code stands for; `none` is in line (R96, R185). -/
def hlimValue (hlim : BitVec 2) : Option Byte :=
  match hlim.toNat with
  | 0 => none
  | 1 => some 1
  | 2 => some 64
  | _ => some 255

/-- The HLIM code of a hop limit (R154). -/
def hlimMode (hl : Byte) : BitVec 2 :=
  if hl = 1 then 0b01 else if hl = 64 then 0b10 else if hl = 255 then 0b11 else 0b00

-- ## Addresses (R102 to R106, R114)

/-- `LL_PREFIX`, fe80::/64 (R114). -/
def llPrefix : List Byte := [0xfe, 0x80, 0, 0, 0, 0, 0, 0]

/-- `SHORT_PAD` (R114). -/
def shortPad : List Byte := [0, 0, 0, 0xff, 0xfe, 0]

/-- `IID_from_LL(ll)`: `ll`, with bit 1 of its byte 0 inverted when `IID_UL_FLIP = 1` (R104). -/
def iidFromLl (c : Config) (ll : LLAddr) : List Byte :=
  llBytes (if c.iidUlFlip then ll ^^^ 0x0200000000000000#64 else ll)

/-- The mask of address bits `0 .. len-1`, address bit 0 the most significant (R9, R105). -/
def prefixMask (len : Nat) : BitVec 128 := ~~~(BitVec.allOnes 128 >>> len)

/-- `RECON_CTX(c, iid)` (R105): `zeros(8) ++ iid` with address bits `0 .. len-1` taken from the prefix. -/
def reconCtx (e : CtxEntry) (iid : List Byte) : List Byte :=
  let mask := prefixMask e.len.toNat
  addrBytes ((e.pfx &&& mask) ||| (addrOf (zeros 8 ++ iid) &&& ~~~mask))

/-- `RECON_MC_CTX(c, a)` (R106): `ff, a[0], a[1], len, mp[0..8), a[2..6)` with `mp` the prefix cut at `len`. -/
def reconMcCtx (e : CtxEntry) (a : List Byte) : List Byte :=
  [0xff, byteAt a 0, byteAt a 1, e.len] ++ (addrBytes (e.pfx &&& prefixMask e.len.toNat)).take 8 ++ slice a 2 6

/-- In-line bytes of a stateless unicast mode, and of a context mode but for `00` (R102, R115). -/
def amLen (ac : Bool) (am : BitVec 2) : Nat :=
  match am.toNat with
  | 0 => if ac then 0 else 16
  | 1 => 8
  | 2 => 2
  | _ => 0

/-- The interface identifier of a unicast mode `01`, `10`, `11` from its in-line bytes (R102). -/
def amIid (c : Config) (am : BitVec 2) (ll : LLAddr) (a : List Byte) : List Byte :=
  match am.toNat with
  | 1 => a
  | 2 => shortPad ++ a
  | _ => iidFromLl c ll

/-- In-line bytes of a multicast destination mode (R103, R115); a reserved mode has none. -/
def mcLen (dac : Bool) (dam : BitVec 2) : Nat :=
  match dac, dam.toNat with
  | false, 0 => 16
  | false, 1 => 6
  | false, 2 => 4
  | false, _ => 1
  | true, 0 => 6
  | true, _ => 0

/-- The address of a stateless multicast mode from its in-line bytes (R103, R188). -/
def mcStateless (dam : BitVec 2) (a : List Byte) : List Byte :=
  match dam.toNat with
  | 0 => a
  | 1 => [0xff, byteAt a 0] ++ zeros 9 ++ slice a 1 6
  | 2 => [0xff, byteAt a 0] ++ zeros 11 ++ slice a 1 4
  | _ => [0xff, 0x02] ++ zeros 13 ++ a

-- ## UDP next-header compression (R107)

/-- In-line bytes of the ports by port mode (R107, R115). -/
def portsLen (p : BitVec 2) : Nat :=
  match p.toNat with
  | 0 => 4
  | 1 => 3
  | 2 => 3
  | _ => 1

/-- Source port then destination port, 4 bytes, from the in-line bytes (R189). -/
def portsOperands (p : BitVec 2) (t : List Byte) : List Byte :=
  match p.toNat with
  | 0 => [byteAt t 0, byteAt t 1, byteAt t 2, byteAt t 3]
  | 1 => [byteAt t 0, byteAt t 1, 0xf0, byteAt t 2]
  | 2 => [0xf0, byteAt t 0, byteAt t 1, byteAt t 2]
  | _ => [0xf0, 0xb#4 ++ (byteAt t 0).extractLsb' 4 4, 0xf0, 0xb#4 ++ (byteAt t 0).extractLsb' 0 4]

-- ## Header lengths (R115)

/-- The length of the IPHC header that two base bytes announce, without the NHC part (R115). -/
def iphcHdrLen (f : IphcBase) : Nat :=
  iphcBaseLen + (if f.cid then 1 else 0) + tfLen f.tf + (if f.nh then 0 else 1) + (if f.hlim = 0 then 1 else 0)
    + amLen f.sac f.sam + (if f.m then mcLen f.dac f.dam else amLen f.dac f.dam)

/-- The length of the NHC part: the NHC byte, the ports, the checksum (R115). -/
def nhcLen (p : BitVec 2) : Nat := 1 + portsLen p + 2

-- ## The IPv6 header (R108)

/-- The length of an IPv6 header and of a UDP header (R108). -/
def ipv6HdrLen : Nat := 40
def udpHdrLen : Nat := 8

/-- Next-header value 17, UDP (R153, R189). -/
def nhUdp : Byte := 17

/-- The first eight bytes of an IPv6 header: version 6, traffic class, flow label, payload length, next header, hop
limit (R108, R191). -/
def ipv6Head (tc : Byte) (fl : BitVec 20) (plen : Nat) (nh hl : Byte) : List Byte :=
  [0x6#4 ++ tc.extractLsb' 4 4, tc.extractLsb' 0 4 ++ fl.extractLsb' 16 4, fl.extractLsb' 8 8, fl.extractLsb' 0 8]
    ++ beBytes 2 plen ++ [nh, hl]

/-- Traffic class and flow label of an IPv6 packet (R152). -/
def packetTc (p : List Byte) : Byte := (byteAt p 0).extractLsb' 0 4 ++ (byteAt p 1).extractLsb' 4 4
def packetFl (p : List Byte) : BitVec 20 := (byteAt p 1).extractLsb' 0 4 ++ byteAt p 2 ++ byteAt p 3

end Sys2Proof.Machine
end

