-- ==== Sys2Proof/Machine/Decompress.lean ====
section
/-! DEFINITION. The IPHC decompressor, DECOMPRESS (spec/43_iphc_decompressor.md R180 to R193). Each stage takes the bytes
not yet read and answers its value and the bytes after it; the first error ends the function (R192). -/

namespace Sys2Proof.Machine

/-- `take(n)` (R10): `n` bytes and the rest, or E_TRUNCATED rather than a read past the end. -/
def takeBytes (n : Nat) (r : List Byte) : Except Status (List Byte × List Byte) :=
  if r.length < n then .error .truncated else .ok (r.take n, r.drop n)

/-- Context identifiers SCI and DCI (R182). -/
def decCie (cid : Bool) (r : List Byte) : Except Status ((BitVec 4 × BitVec 4) × List Byte) :=
  if cid then do
    let (c, r) ← takeBytes 1 r
    .ok (((byteAt c 0).extractLsb' 4 4, (byteAt c 0).extractLsb' 0 4), r)
  else .ok ((0, 0), r)

/-- Traffic class and flow label (R183). -/
def decTf (tf : BitVec 2) (r : List Byte) : Except Status ((Byte × BitVec 20) × List Byte) := do
  let (t, r) ← takeBytes (tfLen tf) r
  .ok (tfOperands tf t, r)

/-- Next header in line (R184); `none` when it is compressed. -/
def decNextHeader (nh : Bool) (r : List Byte) : Except Status (Option Byte × List Byte) :=
  if nh then .ok (none, r)
  else do
    let (t, r) ← takeBytes 1 r
    .ok (some (byteAt t 0), r)

/-- Hop limit (R185). -/
def decHopLimit (hlim : BitVec 2) (r : List Byte) : Except Status (Byte × List Byte) :=
  match hlimValue hlim with
  | some hl => .ok (hl, r)
  | none => do
    let (t, r) ← takeBytes 1 r
    .ok (byteAt t 0, r)

/-- `CTXREQ(i)` (R186). -/
def ctxReq (t : CtxTable) (i : BitVec 4) : Except Status CtxEntry :=
  match lookupCtx t i with
  | some e => .ok e
  | none => .error .noContext

/-- A unicast address by `(AC, AM)`, all modes but `AC = 1, AM = 00` (R102, R186): the context is looked up before the
in-line bytes are taken. -/
def decUnicast (c : Config) (t : CtxTable) (ll : LLAddr) (ac : Bool) (am : BitVec 2) (ci : BitVec 4) (r : List Byte) :
    Except Status (List Byte × List Byte) :=
  if ac then do
    let e ← ctxReq t ci
    let (a, r) ← takeBytes (amLen true am) r
    .ok (reconCtx e (amIid c am ll a), r)
  else do
    let (a, r) ← takeBytes (amLen false am) r
    .ok (if am = 0 then a else llPrefix ++ amIid c am ll a, r)

/-- Source address (R186): `SAC = 1, SAM = 00` is the unspecified address. -/
def decSource (c : Config) (t : CtxTable) (ll : LLAddr) (sac : Bool) (sam : BitVec 2) (sci : BitVec 4) (r : List Byte) :
    Except Status (List Byte × List Byte) :=
  if sac ∧ sam = 0 then .ok (zeros 16, r) else decUnicast c t ll sac sam sci r

/-- Multicast destination (R188). -/
def decMulticast (t : CtxTable) (dac : Bool) (dam : BitVec 2) (dci : BitVec 4) (r : List Byte) :
    Except Status (List Byte × List Byte) :=
  if dac then
    if dam = 0 then do
      let e ← ctxReq t dci
      let (a, r) ← takeBytes (mcLen true dam) r
      .ok (reconMcCtx e a, r)
    else .error .reservedMode
  else do
    let (a, r) ← takeBytes (mcLen false dam) r
    .ok (mcStateless dam a, r)

/-- Destination address (R187, R188): `M = 0, DAC = 1, DAM = 00` is reserved. -/
def decDest (c : Config) (t : CtxTable) (ll : LLAddr) (m dac : Bool) (dam : BitVec 2) (dci : BitVec 4) (r : List Byte) :
    Except Status (List Byte × List Byte) :=
  if m then decMulticast t dac dam dci r
  else if dac ∧ dam = 0 then .error .reservedMode
  else decUnicast c t ll dac dam dci r

/-- Payload length and assembly (R190, R191): `upper` is the rebuilt UDP header, or nothing. -/
def assembleIpv6 (c : Config) (tc : Byte) (fl : BitVec 20) (nh hl : Byte) (src dst upper rest : List Byte) :
    Except Status (List Byte) :=
  let payload := upper ++ rest
  if ipv6HdrLen + payload.length > c.maxIpv6Len then .error .tooLong
  else .ok (ipv6Head tc fl payload.length nh hl ++ src ++ dst ++ payload)

/-- What follows an NHC byte of port mode `p` (R189): ports, checksum, and the UDP header rebuilt with its length. -/
def decUdp (c : Config) (tc : Byte) (fl : BitVec 20) (hl : Byte) (src dst : List Byte) (p : BitVec 2) (r : List Byte) :
    Except Status (List Byte) := do
  let (t, r) ← takeBytes (portsLen p) r
  let (ck, r) ← takeBytes 2 r
  assembleIpv6 c tc fl nhUdp hl src dst (portsOperands p t ++ beBytes 2 (udpHdrLen + r.length) ++ ck) r

/-- Compressed next header (R189): refused while `NHC_EN = 0` before any byte is read, then by the NHC byte. -/
def decNhc (c : Config) (tc : Byte) (fl : BitVec 20) (hl : Byte) (src dst : List Byte) (r : List Byte) :
    Except Status (List Byte) :=
  if !c.nhcEn then .error .unsupportedNhc
  else do
    let (n, r) ← takeBytes 1 r
    if isUdpNhc (byteAt n 0) then decUdp c tc fl hl src dst ((byteAt n 0).extractLsb' 0 2) r
    else .error .unsupportedNhc

/-- DECOMPRESS after the base bytes (R182 to R191). -/
def decompressBody (c : Config) (t : CtxTable) (srcLl dstLl : LLAddr) (f : IphcBase) (r : List Byte) :
    Except Status (List Byte) := do
  let ((sci, dci), r) ← decCie f.cid r
  let ((tc, fl), r) ← decTf f.tf r
  let (nh, r) ← decNextHeader f.nh r
  let (hl, r) ← decHopLimit f.hlim r
  let (src, r) ← decSource c t srcLl f.sac f.sam sci r
  let (dst, r) ← decDest c t dstLl f.m f.dac f.dam dci r
  match nh with
  | some nh => assembleIpv6 c tc fl nh hl src dst [] r
  | none => decNhc c tc fl hl src dst r

/-- `DECOMPRESS(B, src_ll, dst_ll)` (R180): the base bytes (R181), then the rest. -/
def decompress (c : Config) (t : CtxTable) (b : List Byte) (srcLl dstLl : LLAddr) : Except Status (List Byte) := do
  let (h, r) ← takeBytes iphcBaseLen b
  decompressBody c t srcLl dstLl (iphcBaseOf (byteAt h 0) (byteAt h 1)) r

end Sys2Proof.Machine
end

