-- ==== Sys2Proof/Machine/Receive.lean ====
section
/-! DEFINITION. The receive path: PROCESS_DATAGRAM (spec/46_host_ops_and_registry.md R266), REASSEMBLE
(spec/45_reassembly_manager.md R230 to R241), TICK (R242), RX_FRAME (R265), and the dispatch classes and the NHC stage as
instructions of their own (log entries 5 and 6). -/

namespace Sys2Proof.Machine

-- ## Whole datagrams (R266)

/-- A decompressed packet is delivered, a decode error is a drop (R266). -/
def State.deliverOrDrop (s : State) : Except Status (List Byte) → State
  | .ok p => s.deliver p
  | .error e => s.drop e

/-- What follows `0x41` is delivered as it is, once a whole IPv6 header is there (R266, decision D33). -/
def State.deliverUncompressed (s : State) (p : List Byte) : State :=
  if p.length < ipv6HdrLen then s.drop .truncated else s.deliver p

/-- `PROCESS_DATAGRAM(Dg, src_ll, dst_ll)` (R266). -/
def State.processDatagram (s : State) (dg : List Byte) (srcLl dstLl : LLAddr) : State :=
  match (classify dg).1 with
  | .ipv6Uncomp => s.deliverUncompressed (dg.drop uncompHdrLen)
  | .iphc => s.deliverOrDrop (decompress s.cfg s.ctx dg srcLl dstLl)
  | .frag1 => s.drop .nestedDispatch
  | .fragN => s.drop .nestedDispatch
  | .unknown => s.drop .unknownDispatch
  | .truncated => s.drop .truncated

-- ## Fragments (R230 to R241)

/-- A fragment accepted into slot `i`, whose contents before it are `sl` (R238 to R240): its bytes are written, the slot
becomes the most recently updated, and when every byte of `[0, size)` is there the slot is freed and the datagram
processed with the link-layer destination of this frame. -/
def State.storeFragment (s : State) (i : Nat) (sl : Slot) (off : Nat) (data : List Byte) (dstLl : LLAddr) : State :=
  let sl' : Slot := { sl with data := Memory.writeRun sl.data off data }
  let s' := s.putSlot i sl'
  match Memory.readRun sl'.data 0 sl'.size.toNat with
  | none => s'
  | some dg => (s'.freeSlot i).processDatagram dg sl'.srcLl dstLl

/-- A fresh slot for an unseen key (R235). -/
def freshSlot (a : Arrival) (size : BitVec 11) (tag : BitVec 16) : Slot := ⟨a.srcLl, tag, size, [], a.now⟩

/-- REASSEMBLE on the operands of a fragment header, in the order of R241: zero size (R232), match (R234), overflow
(R233), size mismatch (R237), allocation (R235, R236), store (R238 to R240). -/
def reassemble (a : Arrival) (size : BitVec 11) (tag : BitVec 16) (off : Nat) (data : List Byte) (s : State) : Result :=
  if size = 0 then .next (s.drop .fragZeroSize)
  else if off + data.length > size.toNat then
    .next ((s.failSlot (s.matchSlot a.srcLl tag)).drop .fragOverflow)
  else
    match s.matchSlot a.srcLl tag with
    | some (i, sl) =>
      if sl.size ≠ size then .next ((s.failSlot (some (i, sl))).drop .fragSizeMismatch)
      else .next (s.storeFragment i sl off data a.dstLl)
    | none =>
      match s.chooseSlot with
      | some (i, s') => .next (s'.storeFragment i (freshSlot a size tag) off data a.dstLl)
      | none => .fault .poolEmpty

/-- REASSEMBLE on a whole frame (R230, R231); `next` says FRAGN. -/
def reassembleFrame (next : Bool) (f : List Byte) (a : Arrival) (s : State) : Result :=
  let (size, tag, off, data) := fragOperands next f
  reassemble a size tag off data s

-- ## Arrival of a frame (R265)

/-- The preconditions of an input that carries the time (R265, R304): before INIT it is ignored (R268), and a `now` below
an earlier one is outside the contract (U11). -/
def withTime (now : Time) (k : State → Result) (s : State) : Result :=
  if !s.initDone then .next s
  else if now < s.lastNow then .refused .timeBackwards
  else k { s with lastNow := now }

/-- The preconditions of a frame arrival of `len` bytes (R265): besides the time, the frame fits the link (U3). -/
def withFrame (a : Arrival) (len : Nat) (k : State → Result) (s : State) : Result :=
  if !s.initDone then .next s
  else if len > s.cfg.linkMtu then .refused .frameTooLong
  else withTime a.now k s

/-- What RX_FRAME does with an admitted frame, by its class (R265). -/
def receiveFrame (f : List Byte) (a : Arrival) (s : State) : Result :=
  match (classify f).1 with
  | .unknown => .next (s.drop .unknownDispatch)
  | .truncated => .next (s.drop .truncated)
  | .frag1 => reassembleFrame false f a s
  | .fragN => reassembleFrame true f a s
  | .ipv6Uncomp => .next (s.processDatagram f a.srcLl a.dstLl)
  | .iphc => .next (s.processDatagram f a.srcLl a.dstLl)

/-- RX_FRAME, 0x0A (R265). -/
def execRxFrame (f : List Byte) (a : Arrival) (s : State) : Result := withFrame a f.length (receiveFrame f a) s

/-- Class IPV6_UNCOMP (R131, R266): a received frame `0x41 ++ packet`. -/
def execIpv6Uncomp (a : Arrival) (packet : List Byte) (s : State) : Result :=
  withFrame a (uncompHdrLen + packet.length) (fun s => .next (s.deliverUncompressed packet)) s

/-- Class IPHC (R132, R180, R266): a received frame of two base bytes and `rest`. -/
def execIphc (a : Arrival) (base : IphcBase) (rest : List Byte) (s : State) : Result :=
  withFrame a (iphcBaseLen + rest.length)
    (fun s => .next (s.deliverOrDrop (decompressBody s.cfg s.ctx a.srcLl a.dstLl base rest))) s

/-- Class FRAG1 (R133, R230): offset 0; bits 4:3 of the first byte, `x`, are ignored (R231). -/
def execFrag1 (a : Arrival) (_x : BitVec 2) (size : BitVec 11) (tag : BitVec 16) (payload : List Byte) (s : State) :
    Result :=
  withFrame a (frag1HdrLen + payload.length) (reassemble a size tag 0 payload) s

/-- Class FRAGN (R134, R230): offset in units of 8 bytes. -/
def execFragN (a : Arrival) (_x : BitVec 2) (size : BitVec 11) (tag : BitVec 16) (offset8 : Byte) (payload : List Byte)
    (s : State) : Result :=
  withFrame a (fragNHdrLen + payload.length) (reassemble a size tag (fragOffset offset8) payload) s

/-- Class UNKNOWN (R135): the frame is dropped. -/
def execUnknown (a : Arrival) (_first : Byte) (rest : List Byte) (s : State) : Result :=
  withFrame a (1 + rest.length) (fun s => .next (s.drop .unknownDispatch)) s

/-- A frame too short for the header its first byte announces (R136): dropped. It is no row of the opcode table. -/
def rxTruncated (a : Arrival) (len : Nat) (s : State) : Result :=
  withFrame a len (fun s => .next (s.drop .truncated)) s

-- ## The NHC stage (R189)

/-- NHC_UDP with port mode `p` (R107, R189 to R191): the rest of DECOMPRESS after the NHC byte, then delivery or drop. It
is a part of RX_FRAME, so before INIT it is ignored (R268); with `NHC_EN = 0` it is refused as R189 says. -/
def execNhcUdp (o : NhcOuter) (p : BitVec 2) (rest : List Byte) (s : State) : Result :=
  if !s.initDone then .next s
  else if !s.cfg.nhcEn then .next (s.drop .unsupportedNhc)
  else .next (s.deliverOrDrop (decUdp s.cfg o.tc o.fl o.hl (addrBytes o.src) (addrBytes o.dst) p rest))

/-- An NHC stage that has no byte, or whose byte is not a UDP NHC byte with the checksum in line (R189): a drop. -/
def nhcUndecoded (e : DecodeError) (s : State) : Result :=
  if !s.initDone then .next s
  else if !s.cfg.nhcEn then .next (s.drop .unsupportedNhc)
  else
    match e with
    | .truncated => .next (s.drop .truncated)
    | .unsupportedNhc => .next (s.drop .unsupportedNhc)

-- ## TICK (R242)

/-- A slot's age exceeds the timeout, written without subtraction as R330 asks. -/
def Slot.stale (sl : Slot) (timeout : Nat) (now : Time) : Bool := decide (now > sl.tCreated + timeout)

/-- One slot of the timeout scan (R242). -/
def tickSlot (now : Time) (s : State) (i : Nat) : State :=
  match s.slotAt i with
  | some sl => if sl.stale s.cfg.reassTimeout now then (s.freeSlot i).countTimeout else s
  | none => s

/-- TICK, 0x0B (R242): every slot once, in index order. -/
def execTick (now : Time) (s : State) : Result :=
  withTime now (fun s => .next ((List.range s.slots.length).foldl (tickSlot now) s)) s

end Sys2Proof.Machine
end

