-- ==== Sys2Proof/Machine/Compress.lean ====
section
/-! DEFINITION. The IPHC compressor, COMPRESS (spec/42_iphc_compressor.md R150 to R165): a total function; a field it
cannot compress goes in line, and a packet IPHC cannot express goes uncompressed (R151, R162). -/

namespace Sys2Proof.Machine

/-- A compressed address: AC, AM, the context identifier and the in-line bytes (R155 to R157). -/
structure AddrEnc where
  ac : Bool
  am : BitVec 2
  ci : BitVec 4
  bytes : List Byte
  deriving DecidableEq, Repr

/-- The lowest identifier whose entry is in use and satisfies `p` (R155 step 3, R157 step 4). -/
def findCtx (t : CtxTable) (p : CtxEntry → Bool) : Option (BitVec 4) :=
  ((List.range 16).map (BitVec.ofNat 4)).find? (fun i => match ctxEntry t i with | some e => p e | none => false)

/-- The context modes in the order they are tried, each with its in-line bytes (R155 step 3). -/
def ctxModes (a : List Byte) : List (BitVec 2 × List Byte) :=
  [(0b11, []), (0b10, slice a 14 16), (0b01, slice a 8 16)]

/-- Step 3 of R155: the first mode, and within it the lowest identifier, whose reconstruction is the address. -/
def encCtx (c : Config) (t : CtxTable) (ll : LLAddr) (a : List Byte) : Option AddrEnc :=
  (ctxModes a).findSome? (fun m =>
    (findCtx t (fun e => reconCtx e (amIid c m.1 ll m.2) == a)).map (fun i => ⟨true, m.1, i, m.2⟩))

/-- Steps 2 to 4 of R155, for a source and for a unicast destination (R156). -/
def encUnicast (c : Config) (t : CtxTable) (ll : LLAddr) (a : List Byte) : AddrEnc :=
  if slice a 0 8 = llPrefix then
    if slice a 8 16 = iidFromLl c ll then ⟨false, 0b11, 0, []⟩
    else if slice a 8 14 = shortPad then ⟨false, 0b10, 0, slice a 14 16⟩
    else ⟨false, 0b01, 0, slice a 8 16⟩
  else
    match encCtx c t ll a with
    | some e => e
    | none => ⟨false, 0b00, 0, a⟩

/-- Source address (R155): step 1 is the unspecified address. -/
def encSource (c : Config) (t : CtxTable) (ll : LLAddr) (a : List Byte) : AddrEnc :=
  if a = zeros 16 then ⟨true, 0b00, 0, []⟩ else encUnicast c t ll a

/-- Multicast destination (R157). -/
def encMulticast (t : CtxTable) (a : List Byte) : AddrEnc :=
  if byteAt a 1 = 0x02 ∧ slice a 2 15 = zeros 13 then ⟨false, 0b11, 0, slice a 15 16⟩
  else if slice a 2 13 = zeros 11 then ⟨false, 0b10, 0, slice a 1 2 ++ slice a 13 16⟩
  else if slice a 2 11 = zeros 9 then ⟨false, 0b01, 0, slice a 1 2 ++ slice a 11 16⟩
  else
    let b := slice a 1 3 ++ slice a 12 16
    match findCtx t (fun e => reconMcCtx e b == a) with
    | some i => ⟨true, 0b00, i, b⟩
    | none => ⟨false, 0b00, 0, a⟩

/-- A destination is multicast when its first byte is `ff` (R156, R157). -/
def isMulticast (a : List Byte) : Bool := byteAt a 0 == 0xff

/-- Destination address (R156, R157). -/
def encDest (c : Config) (t : CtxTable) (ll : LLAddr) (a : List Byte) : AddrEnc :=
  if isMulticast a then encMulticast t a else encUnicast c t ll a

/-- `UDP_COMPRESSIBLE(P)` (R160): a UDP header is present and its length field equals the payload length. -/
def udpCompressible (p : List Byte) : Bool :=
  decide (p.length - ipv6HdrLen ≥ udpHdrLen ∧ fromBE (slice p 44 46) = p.length - ipv6HdrLen)

/-- The next header is compressed (R153): UDP, with NHC present and a UDP header that can be rebuilt. -/
def compressesNh (c : Config) (p : List Byte) : Bool := c.nhcEn && byteAt p 6 == nhUdp && udpCompressible p

/-- Port mode and in-line ports of the four port bytes of a UDP header (R160). -/
def encPorts (u : List Byte) : BitVec 2 × List Byte :=
  let s0 := byteAt u 0
  let s1 := byteAt u 1
  let d0 := byteAt u 2
  let d1 := byteAt u 3
  if s0 = 0xf0 ∧ s1.extractLsb' 4 4 = 0xb ∧ d0 = 0xf0 ∧ d1.extractLsb' 4 4 = 0xb then
    (0b11, [s1.extractLsb' 0 4 ++ d1.extractLsb' 0 4])
  else if d0 = 0xf0 then (0b01, [s0, s1, d1])
  else if s0 = 0xf0 then (0b10, [s1, d0, d1])
  else (0b00, [s0, s1, d0, d1])

/-- The NHC byte, the ports and the checksum of the UDP header of `p` (R160). -/
def encNhc (p : List Byte) : List Byte :=
  let (pm, ports) := encPorts (slice p 40 44)
  [udpNhcByte pm] ++ ports ++ slice p 46 48

/-- The guard of R151: the header is whole, version 6, and its length field is the number of bytes that follow. -/
def compressible (p : List Byte) : Bool :=
  decide (ipv6HdrLen ≤ p.length) && (byteAt p 0).extractLsb' 4 4 == 6
    && fromBE (slice p 4 6) == p.length - ipv6HdrLen

/-- The uncompressed form `0x41 ++ P` (R92). -/
def uncompressed (p : List Byte) : List Byte := 0x41 :: p

/-- The base fields of R159 for encoded addresses `s`, `d`. -/
def compressBase (c : Config) (p : List Byte) (s d : AddrEnc) : IphcBase where
  tf := tfMode (packetTc p) (packetFl p)
  nh := compressesNh c p
  hlim := hlimMode (byteAt p 7)
  cid := decide (s.ci ≠ 0 ∨ d.ci ≠ 0)
  sac := s.ac
  sam := s.am
  m := isMulticast (slice p 24 40)
  dac := d.ac
  dam := d.am

/-- The in-line fields, the NHC part and the payload, in the order of R99 and R159. -/
def compressTail (c : Config) (p : List Byte) (f : IphcBase) (s d : AddrEnc) : List Byte :=
  (if f.cid then [s.ci ++ d.ci] else [])
    ++ tfInline f.tf (packetTc p) (packetFl p)
    ++ (if f.nh then [] else [byteAt p 6])
    ++ (if f.hlim = 0 then [byteAt p 7] else [])
    ++ s.bytes ++ d.bytes
    ++ (if compressesNh c p then encNhc p ++ p.drop 48 else p.drop 40)

/-- `COMPRESS(P, src_ll, dst_ll)` (R150, R159). -/
def compress (c : Config) (t : CtxTable) (p : List Byte) (srcLl dstLl : LLAddr) : List Byte :=
  if compressible p then
    let s := encSource c t srcLl (slice p 8 24)
    let d := encDest c t dstLl (slice p 24 40)
    let f := compressBase c p s d
    iphcByte1 f :: iphcByte2 f :: compressTail c p f s d
  else uncompressed p

end Sys2Proof.Machine
end

