-- ==== Sys2Proof/Machine/Fragment.lean ====
section
/-! DEFINITION. The fragmenter, FRAGMENT (spec/44_fragmenter.md R210 to R221): slice sizes, one frame at a cursor, and the
whole sequence of frames of a datagram. -/

namespace Sys2Proof.Machine

/-- `p1`, payload bytes of the first fragment (R214). -/
def firstSlice (c : Config) : Nat := (c.linkMtu - 4) / 8 * 8

/-- `pn`, payload bytes of every middle fragment (R214). -/
def middleSlice (c : Config) : Nat := (c.linkMtu - 5) / 8 * 8

/-- The first-fragment frame of `d` (R215). -/
def firstFrame (c : Config) (tag : BitVec 16) (d : List Byte) : List Byte :=
  fragHeader frag1Pattern 0 (BitVec.ofNat 11 d.length) tag ++ d.take (firstSlice c)

/-- Payload bytes of the subsequent fragment at `off` (R216). -/
def nextSlice (c : Config) (d : List Byte) (off : Nat) : Nat :=
  if d.length - off ≤ c.linkMtu - 5 then d.length - off else middleSlice c

/-- The subsequent-fragment frame of `d` at `off` (R216). -/
def nextFrame (c : Config) (tag : BitVec 16) (d : List Byte) (off : Nat) : List Byte :=
  fragHeader fragNPattern 0 (BitVec.ofNat 11 d.length) tag
    ++ BitVec.ofNat 8 (off / 8) :: slice d off (off + nextSlice c d off)

/-- The next frame of an in-flight send and the datagram bytes it carries (R264). -/
def sendFrame (c : Config) (f : InFlight) : List Byte × Nat :=
  if !f.fragmented then (f.datagram, f.datagram.length)
  else if f.nextOff = 0 then (firstFrame c f.tag f.datagram, firstSlice c)
  else (nextFrame c f.tag f.datagram f.nextOff, nextSlice c f.datagram f.nextOff)

/-- The subsequent-fragment frames from `off` to the end (R216); `fuel` bounds their number. -/
def laterFrames (c : Config) (tag : BitVec 16) (d : List Byte) : Nat → Nat → List (List Byte)
  | 0, _ => []
  | fuel + 1, off =>
    if off < d.length then nextFrame c tag d off :: laterFrames c tag d fuel (off + nextSlice c d off) else []

/-- The fragment frames of a datagram that does not fit one frame (R215, R216); each carries a byte, so their number is
at most the length. -/
def fragmentFrames (c : Config) (tag : BitVec 16) (d : List Byte) : List (List Byte) :=
  firstFrame c tag d :: laterFrames c tag d d.length (firstSlice c)

end Sys2Proof.Machine
end

