-- ==== Sys2Proof/Machine/Send.lean ====
section
/-! DEFINITION. The send path: SEND's start step (spec/46_host_ops_and_registry.md R263), its emit steps (R264) and the
transceiver's answer (R264, spec/60_exceptions.md R295). -/

namespace Sys2Proof.Machine

/-- The datagram SEND builds: compressed, or `0x41 ++ P` when `HC_EN = 0` (R165, R263). -/
def State.datagramOf (s : State) (destLl : LLAddr) (p : List Byte) : List Byte :=
  if s.hcEn then compress s.cfg s.ctx p s.localLl destLl else uncompressed p

/-- SEND's start step, taken when TXQ is IDLE (R263, R211 to R213). -/
def State.startSend (s : State) (destLl : LLAddr) (p : List Byte) : State :=
  let d := s.datagramOf destLl p
  if d.length ≤ s.cfg.linkMtu then
    { s with txq := .busy ⟨destLl, d, 0, 0, false, false⟩ }
  else if d.length > maxDgram then s.ret 0x03 .oversized
  else
    { s with tagCtr := s.tagCtr + 1, txq := .busy ⟨destLl, d, s.tagCtr, 0, true, false⟩ }

/-- SEND, 0x03 (R263): the start step, or the wait for TXQ to be IDLE behind the SENDs that already wait (R327, log
entry 10). -/
def execSend (destLl : LLAddr) (p : List Byte) (s : State) : Result :=
  if !s.initDone then .next (s.ret 0x03 .notInit)
  else if s.txq = .idle ∧ s.sendWait = [] then .next (s.startSend destLl p)
  else .next { s with sendWait := s.sendWait ++ [(destLl, p)] }

/-- The next step of the block's own transmit side: hand the next frame of the in-flight send over (R264), or start the
oldest SEND that waits (R263). With neither enabled nothing happens (log entry 3). -/
def txStep (s : State) : Result :=
  match s.txq with
  | .busy f =>
    if f.awaiting then .next s
    else
      let s' : State := { s with txq := .busy { f with awaiting := true } }
      .next (s'.emit (.txf f.destLl (sendFrame s.cfg f).1))
  | .idle =>
    match s.sendWait with
    | [] => .next s
    | (destLl, p) :: rest =>
      let s' : State := { s with sendWait := rest }
      .next (s'.startSend destLl p)

/-- The transceiver's answer to the frame handed over (R264): `fail` ends the SEND with E_TRANSCEIVER (R295), `ok` moves
the cursor and ends it with OK after the last byte. -/
def txAnswer (ok : Bool) (s : State) : Result :=
  match s.txq with
  | .idle => .refused .strayAnswer
  | .busy f =>
    if !f.awaiting then .refused .strayAnswer
    else
      let done : State := { s with txq := .idle }
      let off := f.nextOff + (sendFrame s.cfg f).2
      if !ok then .next (done.ret 0x03 .transceiver)
      else if off = f.datagram.length then .next (done.ret 0x03 .ok)
      else .next { s with txq := .busy { f with nextOff := off, awaiting := false } }

end Sys2Proof.Machine
end

