-- ==== Sys2Proof/Machine/Dispatch.lean ====
section
/-! DEFINITION. The meaning of every instruction: one arm per row of spec/opcode_table.json, each a direct call. -/

namespace Sys2Proof.Machine

def exec (i : Instr) (s : State) : Host.Outcome State Fault Refusal :=
  match i with
  | .init localLl isBr => Sys2Proof.Machine.execInit localLl isBr s
  | .initRouter pfx len localLl => Sys2Proof.Machine.execInitRouter pfx len localLl s
  | .send destLl packet => Sys2Proof.Machine.execSend destLl packet s
  | .setHc enable => Sys2Proof.Machine.execSetHc enable s
  | .register handle => Sys2Proof.Machine.execRegister handle s
  | .ctxLookup id => Sys2Proof.Machine.execCtxLookup id s
  | .ctxInsert id pfx len => Sys2Proof.Machine.execCtxInsert id pfx len s
  | .ctxRemove id => Sys2Proof.Machine.execCtxRemove id s
  | .readStatus => Sys2Proof.Machine.execReadStatus s
  | .rxFrame frame a => Sys2Proof.Machine.execRxFrame frame a s
  | .tick now => Sys2Proof.Machine.execTick now s
  | .badOp code => Sys2Proof.Machine.execBadOp code s
  | .ipv6Uncomp a packet => Sys2Proof.Machine.execIpv6Uncomp a packet s
  | .iphc a base rest => Sys2Proof.Machine.execIphc a base rest s
  | .frag1 a x size tag payload => Sys2Proof.Machine.execFrag1 a x size tag payload s
  | .fragN a x size tag offset8 payload => Sys2Proof.Machine.execFragN a x size tag offset8 payload s
  | .unknown a first rest => Sys2Proof.Machine.execUnknown a first rest s
  | .nhcUdp outer p rest => Sys2Proof.Machine.execNhcUdp outer p rest s

end Sys2Proof.Machine
end

