-- ==== Sys2Proof/Machine/Fetch.lean ====
section
/-! DEFINITION. Taking the next input (spec/20_memory.md R68, spec/60_exceptions.md R299), and what is done with a
transaction that decodes to no instruction. -/

namespace Sys2Proof.Machine

/-- The next input, and the state with it taken. -/
def State.nextInput (s : State) : Option (Event × State) :=
  match s.inputs with
  | [] => none
  | e :: rest => some (e, { s with inputs := rest })

/-- A transaction that decodes to no instruction: a frame too short for its class is dropped (R136), and so is an NHC
stage with no or another NHC byte (R189). An operation code always decodes (R269). -/
def undecoded (t : Txn) (e : DecodeError) (s : State) : Result :=
  match t with
  | .op code _ => .next (s.ret code .badOp)
  | .frame bytes a => rxTruncated a bytes.length s
  | .nhc _ _ => nhcUndecoded e s

/-- A transaction placed where the next step takes it. -/
def State.withTxn (s : State) (t : Txn) : State := { s with inputs := .txn t :: s.inputs }

end Sys2Proof.Machine
end

