-- ==== Sys2Proof/Machine/Step.lean ====
section
/-! DEFINITION. One step of the block: the next input is taken and performed whole (spec/20_memory.md R65, R68). With no
input the block is idle and holds its state (spec/60_exceptions.md R307). -/

namespace Sys2Proof.Machine

/-- A transaction decoded and run. -/
def runTxn (t : Txn) (s : State) : Host.Outcome State Fault Refusal :=
  match decode t with
  | .ok i => exec i s
  | .error e => undecoded t e s

/-- One step. -/
def step (s : State) : Host.Outcome State Fault Refusal :=
  match s.nextInput with
  | none => .next s
  | some (.txn t, s') => runTxn t s'
  | some (.tx, s') => txStep s'
  | some (.answer ok, s') => txAnswer ok s'

/-- The instruction of a table word placed where step takes its next input (log entries 3 and 7). -/
def State.withFetchWord (s : State) (nbits w : Nat) : State := s.withTxn (tableTxn nbits w)

end Sys2Proof.Machine
end

