-- ==== Sys2Proof/Safety.lean ====
section
/-! DEFINITION. The invariant of the block between operations (spec/10_state.md R23, R25 to R27, R30, R31;
spec/41_context_table.md R145; spec/46_host_ops_and_registry.md R273) and what a safe run is
(spec/60_exceptions.md R297). -/

namespace Sys2Proof

-- ## Parts of instructions the statements use

/-- The operands of a fragment (R95): its arrival, the length of its frame, size, tag, byte offset and payload. -/
structure FragParts where
  a : Arrival
  len : Nat
  size : BitVec 11
  tag : BitVec 16
  off : Nat
  data : List Byte

/-- The operands of the two fragment instructions: offset 0 for FRAG1, eight times the offset field for FRAGN. -/
def Instr.fragParts : Instr → Option FragParts
  | .frag1 a _ size tag payload => some ⟨a, 4 + payload.length, size, tag, 0, payload⟩
  | .fragN a _ size tag offset8 payload => some ⟨a, 5 + payload.length, size, tag, offset8.toNat * 8, payload⟩
  | _ => none

/-- The arrival of a received frame and its length, for RX_FRAME and for each dispatch class. -/
def Instr.arrival : Instr → Option (Arrival × Nat)
  | .rxFrame f a => some (a, f.length)
  | .ipv6Uncomp a p => some (a, 1 + p.length)
  | .iphc a _ r => some (a, 2 + r.length)
  | .frag1 a _ _ _ p => some (a, 4 + p.length)
  | .fragN a _ _ _ _ p => some (a, 5 + p.length)
  | .unknown a _ r => some (a, 1 + r.length)
  | _ => none

/-- The operations of port CMD (R299, R112): each returns a status. -/
def Instr.isHostOp : Instr → Bool
  | .init _ _ | .initRouter _ _ _ | .send _ _ | .setHc _ | .register _ | .ctxLookup _ | .ctxInsert _ _ _
  | .ctxRemove _ | .readStatus | .badOp _ => true
  | .rxFrame _ _ | .tick _ | .ipv6Uncomp _ _ | .iphc _ _ _ | .frag1 _ _ _ _ _ | .fragN _ _ _ _ _ _
  | .unknown _ _ _ | .nhcUdp _ _ _ => false

end Sys2Proof

namespace Sys2Proof.Machine

/-- A FILLING slot (R26 c, d; R28): a size from 1 to 2047, storage in canonical form, nothing received at or beyond the
size, some byte below it still missing, and a creation time that is not in the future. -/
structure Slot.Ok (sl : Slot) (now : Time) : Prop where
  size_pos : 1 ≤ sl.size.toNat
  data_wf : Memory.wf sl.data = true
  data_bound : ∀ k, sl.size.toNat ≤ k → Memory.read sl.data k = none
  incomplete : ∃ k, k < sl.size.toNat ∧ Memory.read sl.data k = none
  created : sl.tCreated ≤ now

/-- An in-flight send (R31, R63, R211, R212): bytes remain, an unfragmented datagram fits the link and is sent from its
start, a fragmented one needs fragments, is at most 2047 bytes long, and its cursor is a multiple of 8. -/
structure InFlight.Ok (f : InFlight) (c : Config) : Prop where
  remains : f.nextOff < f.datagram.length
  whole : f.fragmented = false → f.nextOff = 0 ∧ f.datagram.length ≤ c.linkMtu
  parts : f.fragmented = true → c.linkMtu < f.datagram.length ∧ f.datagram.length ≤ maxDgram ∧ f.nextOff % 8 = 0

/-- The invariant. -/
structure State.Inv (s : State) : Prop where
  /-- The parameters satisfy R6. -/
  cfg_ok : s.cfg.Ok
  /-- R25, R26 (a): the pool has `N_SLOTS` slots. -/
  slots_len : s.slots.length = s.cfg.nSlots
  /-- R26 (c, d). -/
  slot_ok : ∀ i sl, s.slotAt i = some sl → sl.Ok s.lastNow
  /-- R26 (b): no two FILLING slots have the same key. -/
  keys : ∀ i j a b, s.slotAt i = some a → s.slotAt j = some b → a.srcLl = b.srcLl → a.tag = b.tag → i = j
  /-- R27: LRU lists exactly the FILLING slots, without repeats. -/
  lru_nodup : s.lru.Nodup
  lru_filling : ∀ i, i ∈ s.lru ↔ (s.slotAt i).isSome = true
  /-- R23, R145. -/
  ctx_count : ctxCount s.ctx ≤ s.cfg.ctxCap
  ctx_len : ∀ id e, ctxEntry s.ctx id = some e → e.len.toNat ≤ 128
  /-- R30, R273: the registry has `MAX_CONSUMERS` entries, the valid ones first, no handle twice. -/
  reg_len : s.reg.length = s.cfg.maxConsumers
  reg_dense : ∀ j k, k < j → j < s.reg.length → s.reg[j]? ≠ some none → s.reg[k]? ≠ some none
  reg_nodup : (s.reg.filterMap id).Nodup
  /-- R290: only the codes `0x00` to `0x0A` stand in LAST_ERR. -/
  lastErr_le : s.lastErr.toNat ≤ 0x0A
  /-- R31. -/
  tx_ok : ∀ f, s.txq = .busy f → f.Ok s.cfg
  /-- R35, R268: before INIT nothing is being sent or waits to be. -/
  uninit : s.initDone = false → s.txq = .idle ∧ s.sendWait = []

/-- A run that never faults: "a malformed or malicious frame must never be able to crash or deadlock the node" (R297). -/
def State.SafeRun (s : State) : Prop := ∀ n r, Host.Core.run Sys2Proof.core n s ≠ .fault r

-- ## Words the statements use

/-- An arrival that satisfies the preconditions of R265 and R304 in an initialised block: `len` bytes fit the link and
the time does not run backwards. -/
structure State.Admits (s : State) (a : Arrival) (len : Nat) : Prop where
  ready : s.initDone = true
  fits : len ≤ s.cfg.linkMtu
  time : s.lastNow ≤ a.now

/-- The outputs of one delivery (R274): the packet with its 16-bit length, to every registered consumer in order. -/
def State.deliveries (s : State) (p : List Byte) : List Output :=
  (s.reg.filterMap id).map (fun h => .dlv h (BitVec.ofNat 16 p.length) p)

/-- A delivery to a consumer. -/
def Output.isDlv : Output → Bool
  | .dlv _ _ _ => true
  | _ => false

/-- Frames from one sender, each with its time of arrival, received one after the other (R265). -/
def State.feed (src dst : LLAddr) : List (List Byte × Time) → State → Result
  | [], s => .next s
  | (f, now) :: rest, s =>
    match exec (.rxFrame f ⟨src, dst, now⟩) s with
    | .next s' => State.feed src dst rest s'
    | .fault r => .fault r
    | .refused r => .refused r

/-- Address bit `k` of 16 address bytes: bit `7 - (k mod 8)` of byte `k div 8` (R9). -/
def addrBit (a : List Byte) (k : Nat) : Bool := (byteAt a (k / 8)).getLsbD (7 - k % 8)

end Sys2Proof.Machine
end

