-- ==== Sys2Proof/Certificates/Slice0/Obligations.lean ====
section
/-! DEFINITION. The statements for the provers. Each docstring names the rules of spec/ it formalises. -/

open Sys2Proof Sys2Proof.Machine

-- ## Setup, configuration, status

/-- R260: INIT on an uninitialised block writes exactly the elements of R260 and returns OK; TAG_CTR is not touched. -/
def Obligations.InitSetsUpTheBlock : Prop :=
  ∀ (s : State) (ll : LLAddr) (br : Bool), s.initDone = false →
    exec (.init ll br) s = .next { s with
      initDone := true, localLl := ll, isBr := br, hcEn := true
      ctx := Vector.replicate 16 none
      slots := List.replicate s.cfg.nSlots none, lru := []
      reg := List.replicate s.cfg.maxConsumers none
      cntEvictLru := 0, cntEvictCorrupt := 0, cntTimeout := 0, cntDrop := 0, lastErr := 0x00
      txq := .idle
      out := s.out ++ [.ret 0x01 .ok .none] }

/-- R261: INIT_ROUTER does what INIT with IS_BR = 1 does and seeds context 0; a length above 128 is E_BAD_ARG and
changes nothing. -/
def Obligations.InitRouterSeedsContextZero : Prop :=
  ∀ (s : State) (pfx : BitVec 128) (len : Byte) (ll : LLAddr), s.initDone = false →
    (len.toNat ≤ 128 → exec (.initRouter pfx len ll) s = .next { s with
      initDone := true, localLl := ll, isBr := true, hcEn := true
      ctx := (Vector.replicate 16 none).set 0 (some ⟨pfx, len⟩)
      slots := List.replicate s.cfg.nSlots none, lru := []
      reg := List.replicate s.cfg.maxConsumers none
      cntEvictLru := 0, cntEvictCorrupt := 0, cntTimeout := 0, cntDrop := 0, lastErr := 0x00
      txq := .idle
      out := s.out ++ [.ret 0x02 .ok .none] }) ∧
    (128 < len.toNat → exec (.initRouter pfx len ll) s = .next { s with out := s.out ++ [.ret 0x02 .badArg .none] })

/-- R270: a second INIT or INIT_ROUTER is a refusal, neither a reset nor a no-op. -/
def Obligations.ReinitialisationIsRefused : Prop :=
  ∀ (s : State) (pfx : BitVec 128) (len : Byte) (ll : LLAddr) (br : Bool), s.initDone = true →
    exec (.init ll br) s = .refused .reInit ∧ exec (.initRouter pfx len ll) s = .refused .reInit

/-- R268: before INIT every other host operation of R111 returns E_NOT_INIT and changes nothing, and RX_FRAME and TICK
are ignored. -/
def Obligations.BeforeInitNothingActs : Prop :=
  ∀ (s : State), s.initDone = false →
    (∀ d p, exec (.send d p) s = .next { s with out := s.out ++ [.ret 0x03 .notInit .none] }) ∧
    (∀ e, exec (.setHc e) s = .next { s with out := s.out ++ [.ret 0x04 .notInit .none] }) ∧
    (∀ h, exec (.register h) s = .next { s with out := s.out ++ [.ret 0x05 .notInit .none] }) ∧
    (∀ i, exec (.ctxLookup i) s = .next { s with out := s.out ++ [.ret 0x06 .notInit .none] }) ∧
    (∀ i p l, exec (.ctxInsert i p l) s = .next { s with out := s.out ++ [.ret 0x07 .notInit .none] }) ∧
    (∀ i, exec (.ctxRemove i) s = .next { s with out := s.out ++ [.ret 0x08 .notInit .none] }) ∧
    exec .readStatus s = .next { s with out := s.out ++ [.ret 0x09 .notInit .none] } ∧
    (∀ f a, exec (.rxFrame f a) s = .next s) ∧
    (∀ now, exec (.tick now) s = .next s)

/-- R262: SET_HC writes HC_EN and nothing else, and returns OK. -/
def Obligations.SetHcWritesHcEn : Prop :=
  ∀ (s : State) (e : Bool),
    (s.initDone = false → exec (.setHc e) s = .next { s with out := s.out ++ [.ret 0x04 .notInit .none] }) ∧
    (s.initDone = true →
      exec (.setHc e) s = .next { s with hcEn := e, out := s.out ++ [.ret 0x04 .ok .none] })

/-- R267: READ_STATUS returns the record of R267 and changes nothing; E_NOT_INIT before INIT. -/
def Obligations.ReadStatusReturnsTheRecord : Prop :=
  ∀ (s : State),
    (s.initDone = false → exec .readStatus s = .next { s with out := s.out ++ [.ret 0x09 .notInit .none] }) ∧
    (s.initDone = true → exec .readStatus s = .next { s with out := s.out ++ [.ret 0x09 .ok (.record
      { hcEn := s.hcEn, isBr := s.isBr, localLl := s.localLl, tagCtr := s.tagCtr
        cntEvictLru := s.cntEvictLru, cntEvictCorrupt := s.cntEvictCorrupt, cntTimeout := s.cntTimeout
        cntDrop := s.cntDrop, lastErr := s.lastErr
        nFilling := s.lru.length
        nCtx := ((List.finRange 16).filter (fun i => (s.ctx[i]).isSome)).length
        nConsumers := (s.reg.filterMap id).length
        txBusy := decide (s.txq ≠ .idle) })] })

/-- A code outside `0x01` to `0x0B` decodes to BAD_OP whatever its operands, which returns E_BAD_OP and changes nothing
(R269, R292). That it does so also before INIT, where R268 has every host operation return E_NOT_INIT, is the model's
reading of these rules, log entry 18. -/
def Obligations.UnknownOperationIsBadOp : Prop :=
  ∀ (s : State) (code : Byte) (g : OpArgs), code.toNat = 0 ∨ 0x0B < code.toNat →
    decode (.op code g) = .ok (.badOp code) ∧
    exec (.badOp code) s = .next { s with out := s.out ++ [.ret code .badOp .none] }

/-- R272: REGISTER rejects a duplicate, then a full registry, and else takes the lowest invalid entry. -/
def Obligations.RegisterTakesTheLowestEntry : Prop :=
  ∀ (s : State) (h : Handle),
    (s.initDone = false → exec (.register h) s = .next { s with out := s.out ++ [.ret 0x05 .notInit .none] }) ∧
    (s.initDone = true → some h ∈ s.reg → exec (.register h) s = .next { s with out := s.out ++ [.ret 0x05 .regDup .none] }) ∧
    (s.initDone = true → some h ∉ s.reg → none ∉ s.reg →
      exec (.register h) s = .next { s with out := s.out ++ [.ret 0x05 .regFull .none] }) ∧
    (∀ j, s.initDone = true → some h ∉ s.reg → s.reg[j]? = some none → (∀ k, k < j → s.reg[k]? ≠ some none) →
      exec (.register h) s = .next { s with
        reg := s.reg.set j (some h), out := s.out ++ [.ret 0x05 .ok .none] })

-- ## The context table

/-- R140, R144: CTX_LOOKUP returns the entry in use, for identifier 0 otherwise the implicit `fe80::/64`, otherwise none;
an identifier above 15 is E_BAD_ARG. E_NOT_INIT before INIT. It changes nothing. -/
def Obligations.CtxLookupReturnsTheEntry : Prop :=
  ∀ (s : State) (id : Byte),
    (s.initDone = false → exec (.ctxLookup id) s = .next { s with out := s.out ++ [.ret 0x06 .notInit .none] }) ∧
    (s.initDone = true → 15 < id.toNat →
      exec (.ctxLookup id) s = .next { s with out := s.out ++ [.ret 0x06 .badArg .none] }) ∧
    (∀ k : Fin 16, s.initDone = true → id.toNat = k.val →
      exec (.ctxLookup id) s = .next { s with out := s.out ++ [.ret 0x06 .ok (.context
        (match s.ctx[k] with
         | some e => some e
         | none => if k.val = 0 then some ⟨0xfe800000000000000000000000000000#128, 64⟩ else none))] })

/-- R141: CTX_INSERT tests its arguments, then the capacity for a new entry, and else writes `CTX[id]` only. -/
def Obligations.CtxInsertWritesTheEntry : Prop :=
  ∀ (s : State) (id : Byte) (pfx : BitVec 128) (len : Byte),
    (s.initDone = false →
      exec (.ctxInsert id pfx len) s = .next { s with out := s.out ++ [.ret 0x07 .notInit .none] }) ∧
    (s.initDone = true → 15 < id.toNat ∨ 128 < len.toNat →
      exec (.ctxInsert id pfx len) s = .next { s with out := s.out ++ [.ret 0x07 .badArg .none] }) ∧
    (∀ k : Fin 16, s.initDone = true → id.toNat = k.val → len.toNat ≤ 128 →
      exec (.ctxInsert id pfx len) s =
        if s.ctx[k] = none ∧ ((List.finRange 16).filter (fun i => (s.ctx[i]).isSome)).length = s.cfg.ctxCap then
          .next { s with out := s.out ++ [.ret 0x07 .ctxFull .none] }
        else
          .next { s with ctx := s.ctx.set k.val (some ⟨pfx, len⟩), out := s.out ++ [.ret 0x07 .ok .none] })

/-- R142: CTX_REMOVE clears `CTX[id].in_use` and nothing else; an identifier above 15 is E_BAD_ARG. -/
def Obligations.CtxRemoveClearsTheEntry : Prop :=
  ∀ (s : State) (id : Byte),
    (s.initDone = false → exec (.ctxRemove id) s = .next { s with out := s.out ++ [.ret 0x08 .notInit .none] }) ∧
    (s.initDone = true → 15 < id.toNat →
      exec (.ctxRemove id) s = .next { s with out := s.out ++ [.ret 0x08 .badArg .none] }) ∧
    (∀ k : Fin 16, s.initDone = true → id.toNat = k.val →
      exec (.ctxRemove id) s = .next { s with
        ctx := s.ctx.set k.val none, out := s.out ++ [.ret 0x08 .ok .none] })

-- ## The send path

/-- R263: with TXQ idle (and no SEND waiting, log entry 10) SEND builds the datagram, compressed or `0x41 ++ P` by HC_EN,
and starts it unfragmented, refuses it as oversized, or takes a tag and starts it fragmented. -/
def Obligations.SendStartsTheDatagram : Prop :=
  ∀ (s : State) (dest : LLAddr) (p : List Byte), s.initDone = true → s.txq = .idle → s.sendWait = [] →
    let d := if s.hcEn then compress s.cfg s.ctx p s.localLl dest else 0x41 :: p
    exec (.send dest p) s =
      if d.length ≤ s.cfg.linkMtu then .next { s with txq := .busy ⟨dest, d, 0, 0, false, false⟩ }
      else if 2047 < d.length then .next { s with out := s.out ++ [.ret 0x03 .oversized .none] }
      else .next { s with tagCtr := s.tagCtr + 1, txq := .busy ⟨dest, d, s.tagCtr, 0, true, false⟩ }

/-- Derived from R263 and R327, with the model's queue of log entry 10: a SEND issued while another is in flight or
waits changes nothing but the queue, and once TXQ is idle the transmit side runs the oldest waiting one as a SEND issued
then. -/
def Obligations.SecondSendWaitsForIdle : Prop :=
  (∀ (s : State) (dest : LLAddr) (p : List Byte), s.initDone = true → s.txq ≠ .idle ∨ s.sendWait ≠ [] →
    exec (.send dest p) s = .next { s with sendWait := s.sendWait ++ [(dest, p)] }) ∧
  (∀ (s t : State) (dest : LLAddr) (p : List Byte) (w : List (LLAddr × List Byte)) (rest : List Event),
    s.initDone = true → s.txq = .idle → s.sendWait = (dest, p) :: w → s.inputs = .tx :: rest →
    exec (.send dest p) { s with inputs := rest, sendWait := [] } = .next t →
    step s = .next { t with sendWait := w })

/-- R264: the emit step. The frame handed over is the whole datagram, the first fragment or the next one, with the header
bytes of R215 and R216; `fail` ends the SEND with E_TRANSCEIVER; `ok` moves the cursor and ends it after the last byte.
The hand-over and the answer are two inputs (log entry 9). -/
def Obligations.EmitStepSendsTheNextFrame : Prop :=
  ∀ (s : State) (f : InFlight) (rest : List Event), s.txq = .busy f → f.datagram.length ≤ 2047 →
    let L := f.datagram.length
    let p1 := (s.cfg.linkMtu - 4) / 8 * 8
    let pn := (s.cfg.linkMtu - 5) / 8 * 8
    let r := L - f.nextOff
    let n := if !f.fragmented then L else if f.nextOff = 0 then p1 else if r ≤ s.cfg.linkMtu - 5 then r else pn
    let hdr : Nat → List Byte := fun b0 =>
      [BitVec.ofNat 8 (b0 + L / 256), BitVec.ofNat 8 (L % 256),
       BitVec.ofNat 8 (f.tag.toNat / 256), BitVec.ofNat 8 (f.tag.toNat % 256)]
    let frame :=
      if !f.fragmented then f.datagram
      else if f.nextOff = 0 then hdr 0xC0 ++ f.datagram.take p1
      else hdr 0xE0 ++ [BitVec.ofNat 8 (f.nextOff / 8)] ++ (f.datagram.drop f.nextOff).take n
    (f.awaiting = false → s.inputs = .tx :: rest →
      step s = .next { s with inputs := rest, txq := .busy { f with awaiting := true }
                              out := s.out ++ [.txf f.destLl frame] }) ∧
    (f.awaiting = true → s.inputs = .answer false :: rest →
      step s = .next { s with inputs := rest, txq := .idle, out := s.out ++ [.ret 0x03 .transceiver .none] }) ∧
    (f.awaiting = true → s.inputs = .answer true :: rest → f.nextOff + n = L →
      step s = .next { s with inputs := rest, txq := .idle, out := s.out ++ [.ret 0x03 .ok .none] }) ∧
    (f.awaiting = true → s.inputs = .answer true :: rest → f.nextOff + n ≠ L →
      step s = .next { s with inputs := rest
                              txq := .busy { f with nextOff := f.nextOff + n, awaiting := false } })

/-- Derived from R217 and R264 (hand-over and answer as two inputs, log entry 9): a fragmented SEND whose every frame is
accepted hands over exactly the frames of FRAGMENT, in order, and then returns OK with TXQ idle. -/
def Obligations.AcceptedSendEmitsEveryFragment : Prop :=
  ∀ (s : State) (dest : LLAddr) (d : List Byte) (tag : BitVec 16) (rest : List Event),
    s.cfg.Ok → s.cfg.linkMtu < d.length → d.length ≤ 2047 →
    s.txq = .busy ⟨dest, d, tag, 0, true, false⟩ →
    s.inputs = (List.replicate (fragmentFrames s.cfg tag d).length [Event.tx, Event.answer true]).flatten ++ rest →
    Host.Core.run Sys2Proof.core (2 * (fragmentFrames s.cfg tag d).length) s = .next { s with
      inputs := rest, txq := .idle
      out := s.out ++ (fragmentFrames s.cfg tag d).map (Output.txf dest) ++ [.ret 0x03 .ok .none] }

/-- Derived from R218 and R219: the fragments of a datagram that does not fit one frame are at least two, each fits the
link, their payloads joined are the datagram, every payload but the last is a positive multiple of 8, and the offset byte
of each is an eighth of the bytes before it. -/
def Obligations.FragmentsPartitionTheDatagram : Prop :=
  ∀ (c : Config) (tag : BitVec 16) (d : List Byte), c.Ok → c.linkMtu < d.length → d.length ≤ 2047 →
    let fs := fragmentFrames c tag d
    let payload : Nat → List Byte := fun k => (fs.getD k []).drop (if k = 0 then 4 else 5)
    2 ≤ fs.length ∧
    (∀ f ∈ fs, f.length ≤ c.linkMtu) ∧
    ((List.range fs.length).map payload).flatten = d ∧
    (∀ k, k + 1 < fs.length → 0 < (payload k).length ∧ (payload k).length % 8 = 0) ∧
    (∀ k, 0 < k → k < fs.length →
      (byteAt (fs.getD k []) 4).toNat * 8 = (((List.range k).map payload).flatten).length)

/-- Derived from R221: in a state that keeps the invariant no step hands over a frame longer than LINK_MTU. -/
def Obligations.TransmittedFramesFitTheLink : Prop :=
  ∀ (s s' : State), s.Inv → step s = .next s' →
    ∃ new, s'.out = s.out ++ new ∧ ∀ dest frame, Output.txf dest frame ∈ new → frame.length ≤ s.cfg.linkMtu

/-- Derived from R70 and R326: HC_EN and the context table may change while a frame of a SEND is due or unanswered; the
next transmit step is the same but for them. -/
def Obligations.InFlightSendIgnoresConfiguration : Prop :=
  ∀ (s s' : State) (f : InFlight) (rest : List Event) (e : Bool) (t : CtxTable), s.txq = .busy f →
    (s.inputs = .tx :: rest ∨ ∃ ok, s.inputs = .answer ok :: rest) → step s = .next s' →
    step { s with hcEn := e, ctx := t } = .next { s' with hcEn := e, ctx := t }

/-- Derived from R264 and R302: SEND, the transmit steps and the answers leave the pool, LRU, the registry, the context
table, every counter, LAST_ERR and the configuration as they were. -/
def Obligations.SendPathLeavesReceiveState : Prop :=
  ∀ (s s' : State),
    ((∃ dest p, exec (.send dest p) s = .next s') ∨
     (∃ rest, (s.inputs = .tx :: rest ∨ ∃ ok, s.inputs = .answer ok :: rest) ∧ step s = .next s')) →
    s'.slots = s.slots ∧ s'.lru = s.lru ∧ s'.reg = s.reg ∧ s'.ctx = s.ctx ∧
    s'.cntEvictLru = s.cntEvictLru ∧ s'.cntEvictCorrupt = s.cntEvictCorrupt ∧ s'.cntTimeout = s.cntTimeout ∧
    s'.cntDrop = s.cntDrop ∧ s'.lastErr = s.lastErr ∧ s'.hcEn = s.hcEn ∧ s'.isBr = s.isBr ∧ s'.localLl = s.localLl ∧
    s'.initDone = s.initDone ∧ s'.cfg = s.cfg ∧ s'.lastNow = s.lastNow

-- ## The receive path: whole frames

/-- R135 and R136 on a received frame: an unknown first byte is dropped with E_UNKNOWN_DISPATCH whatever the length, an
empty frame or one shorter than the header its first byte announces with E_TRUNCATED; nothing else changes. -/
def Obligations.UnknownAndTruncatedFramesAreDropped : Prop :=
  ∀ (s : State) (f : List Byte) (a : Arrival), s.Admits a f.length →
    ((∃ b rest, f = b :: rest ∧
        (b.toNat ≤ 0x40 ∨ (0x42 ≤ b.toNat ∧ b.toNat ≤ 0x5F) ∨ (0x80 ≤ b.toNat ∧ b.toNat ≤ 0xBF))) →
      exec (.rxFrame f a) s = .next { s with lastNow := a.now, cntDrop := s.cntDrop + 1, lastErr := 0x01 }) ∧
    ((f = [] ∨ ∃ b rest, f = b :: rest ∧
        ((0x60 ≤ b.toNat ∧ b.toNat ≤ 0x7F ∧ f.length < 2) ∨ (0xC0 ≤ b.toNat ∧ b.toNat ≤ 0xDF ∧ f.length < 4) ∨
         (0xE0 ≤ b.toNat ∧ f.length < 5))) →
      exec (.rxFrame f a) s = .next { s with lastNow := a.now, cntDrop := s.cntDrop + 1, lastErr := 0x02 })

/-- The dispatch rows as instructions of their own (the model's choice, log entry 5): RX_FRAME of a frame that decodes to
an instruction is that instruction. -/
def Obligations.RxFrameRunsItsDispatchClass : Prop :=
  ∀ (s : State) (f : List Byte) (a : Arrival) (i : Instr), decode (.frame f a) = .ok i →
    exec (.rxFrame f a) s = exec i s

/-- The class UNKNOWN as an instruction (R135, log entry 5): an admitted frame is dropped with E_UNKNOWN_DISPATCH. -/
def Obligations.UnknownClassIsDropped : Prop :=
  ∀ (s : State) (a : Arrival) (b : Byte) (rest : List Byte), s.Admits a (1 + rest.length) →
    exec (.unknown a b rest) s = .next { s with lastNow := a.now, cntDrop := s.cntDrop + 1, lastErr := 0x01 }

/-- The class IPV6_UNCOMP (R266, R274, log entry 5): a packet of at least 40 bytes goes as it is to every consumer, a
shorter one is dropped with E_TRUNCATED. -/
def Obligations.UncompressedPacketIsDelivered : Prop :=
  ∀ (s : State) (a : Arrival) (p : List Byte), s.Admits a (1 + p.length) →
    exec (.ipv6Uncomp a p) s =
      if 40 ≤ p.length then .next { s with lastNow := a.now, out := s.out ++ s.deliveries p }
      else .next { s with lastNow := a.now, cntDrop := s.cntDrop + 1, lastErr := 0x02 }

/-- The class IPHC (R266, log entry 5): what DECOMPRESS makes of the frame's bytes is delivered, and a decode error is a
drop with its code. -/
def Obligations.IphcFrameIsDecompressed : Prop :=
  ∀ (s : State) (a : Arrival) (base : IphcBase) (rest : List Byte), s.Admits a (2 + rest.length) →
    exec (.iphc a base rest) s =
      match decompress s.cfg s.ctx (iphcByte1 base :: iphcByte2 base :: rest) a.srcLl a.dstLl with
      | .ok p => .next { s with lastNow := a.now, out := s.out ++ s.deliveries p }
      | .error e => .next { s with lastNow := a.now, cntDrop := s.cntDrop + 1, lastErr := e.code }

/-- NHC_UDP (R189 to R191, log entry 6): refused while NHC_EN = 0; else ports, checksum and data give the UDP header with
its length, and the packet is delivered unless it is cut short or too long. -/
def Obligations.NhcUdpRebuildsTheUdpHeader : Prop :=
  ∀ (s : State) (o : NhcOuter) (p : BitVec 2) (rest : List Byte), s.initDone = true →
    let n := match p.toNat with | 0 => 4 | 1 => 3 | 2 => 3 | _ => 1
    let ck := (rest.drop n).take 2
    let data := rest.drop (n + 2)
    let ports := match p.toNat with
      | 0 => [byteAt rest 0, byteAt rest 1, byteAt rest 2, byteAt rest 3]
      | 1 => [byteAt rest 0, byteAt rest 1, 0xF0, byteAt rest 2]
      | 2 => [0xF0, byteAt rest 0, byteAt rest 1, byteAt rest 2]
      | _ => [0xF0, BitVec.ofNat 8 (0xB0 + (byteAt rest 0).toNat / 16),
              0xF0, BitVec.ofNat 8 (0xB0 + (byteAt rest 0).toNat % 16)]
    let packet := ipv6Head o.tc o.fl (8 + data.length) 17 o.hl ++ addrBytes o.src ++ addrBytes o.dst
      ++ ports ++ beBytes 2 (8 + data.length) ++ ck ++ data
    exec (.nhcUdp o p rest) s =
      if s.cfg.nhcEn = false then .next { s with cntDrop := s.cntDrop + 1, lastErr := 0x05 }
      else if rest.length < n + 2 then .next { s with cntDrop := s.cntDrop + 1, lastErr := 0x02 }
      else if s.cfg.maxIpv6Len < 48 + data.length then .next { s with cntDrop := s.cntDrop + 1, lastErr := 0x06 }
      else .next { s with out := s.out ++ s.deliveries packet }

/-- R265 and R304, as U3 and U11 treat them (log entry 13): a frame longer than LINK_MTU and a time that runs backwards
are refused. -/
def Obligations.OutsideTheContractIsRefused : Prop :=
  ∀ (s : State), s.initDone = true →
    (∀ f a, s.cfg.linkMtu < f.length → exec (.rxFrame f a) s = .refused .frameTooLong) ∧
    (∀ f a, f.length ≤ s.cfg.linkMtu → a.now < s.lastNow → exec (.rxFrame f a) s = .refused .timeBackwards) ∧
    (∀ now, now < s.lastNow → exec (.tick now) s = .refused .timeBackwards)

/-- Derived from R297: in a state that keeps the invariant every admitted frame is handled, as RX_FRAME and as an
instruction of its class: the block goes on. -/
def Obligations.EveryAdmittedFrameIsHandled : Prop :=
  ∀ (s : State) (i : Instr) (a : Arrival) (len : Nat), s.Inv → i.arrival = some (a, len) → s.Admits a len →
    ∃ s', exec i s = .next s'

-- ## Reassembly

/-- R232: a fragment with size 0 is dropped with E_FRAG_ZERO_SIZE and touches no slot. -/
def Obligations.ZeroSizeFragmentIsDropped : Prop :=
  ∀ (s : State) (i : Instr) (f : FragParts), i.fragParts = some f → s.Admits f.a f.len → f.size = 0 →
    exec i s = .next { s with lastNow := f.a.now, cntDrop := s.cntDrop + 1, lastErr := 0x09 }

/-- R233: a fragment that ends beyond its size frees the slot of its key, if there is one, counts it as corrupt, and is
dropped with E_FRAG_OVERFLOW; without a slot it costs only itself. -/
def Obligations.OverflowingFragmentFailsItsSlot : Prop :=
  ∀ (s : State) (i : Instr) (f : FragParts), s.Inv → i.fragParts = some f → s.Admits f.a f.len → f.size ≠ 0 →
    f.size.toNat < f.off + f.data.length →
    ((∀ k sl, s.slotAt k = some sl → ¬(sl.srcLl = f.a.srcLl ∧ sl.tag = f.tag)) →
      exec i s = .next { s with lastNow := f.a.now, cntDrop := s.cntDrop + 1, lastErr := 0x07 }) ∧
    (∀ k sl, s.slotAt k = some sl → sl.srcLl = f.a.srcLl → sl.tag = f.tag →
      exec i s = .next { s with
        lastNow := f.a.now, slots := s.slots.set k none, lru := s.lru.filter (fun j => decide (j ≠ k))
        cntEvictCorrupt := s.cntEvictCorrupt + 1, cntDrop := s.cntDrop + 1, lastErr := 0x07 })

/-- R237: a fragment whose size differs from its slot's frees the slot, counts it as corrupt, and is dropped with
E_FRAG_SIZE_MISMATCH. -/
def Obligations.MismatchingFragmentFailsItsSlot : Prop :=
  ∀ (s : State) (i : Instr) (f : FragParts) (k : Nat) (sl : Slot), s.Inv → i.fragParts = some f →
    s.Admits f.a f.len → f.size ≠ 0 → f.off + f.data.length ≤ f.size.toNat →
    s.slotAt k = some sl → sl.srcLl = f.a.srcLl → sl.tag = f.tag → sl.size ≠ f.size →
    exec i s = .next { s with
      lastNow := f.a.now, slots := s.slots.set k none, lru := s.lru.filter (fun j => decide (j ≠ k))
      cntEvictCorrupt := s.cntEvictCorrupt + 1, cntDrop := s.cntDrop + 1, lastErr := 0x08 }

/-- R238 and R239: a fragment accepted into the slot of its key that leaves it incomplete writes exactly its bytes and
moves the slot to the head of LRU; every other byte of the slot, its other fields and all else stay. -/
def Obligations.AcceptedFragmentWritesItsBytes : Prop :=
  ∀ (s : State) (i : Instr) (f : FragParts) (k : Nat) (sl : Slot), s.Inv → i.fragParts = some f →
    s.Admits f.a f.len → f.size ≠ 0 → f.off + f.data.length ≤ f.size.toNat →
    s.slotAt k = some sl → sl.srcLl = f.a.srcLl → sl.tag = f.tag → sl.size = f.size →
    (∃ b, b < sl.size.toNat ∧ ¬(f.off ≤ b ∧ b < f.off + f.data.length) ∧ Memory.read sl.data b = none) →
    ∃ m, Memory.wf m = true ∧
      (∀ b, Memory.read m b =
        if f.off ≤ b ∧ b < f.off + f.data.length then f.data[b - f.off]? else Memory.read sl.data b) ∧
      exec i s = .next { s with
        lastNow := f.a.now, slots := s.slots.set k (some { sl with data := m })
        lru := k :: s.lru.filter (fun j => decide (j ≠ k)) }

/-- Derived from R240 and R266. A fragment that brings the last missing byte frees the slot and hands the datagram, byte
for byte, to PROCESS_DATAGRAM with the slot's source and this frame's destination. And what PROCESS_DATAGRAM does with
every datagram, by its first byte and length: a packet or what DECOMPRESS answers is delivered, a decode error is a drop
with its code, a nested fragment a drop with E_NESTED_DISPATCH, an unknown first byte a drop with E_UNKNOWN_DISPATCH, a
datagram shorter than its header (or, uncompressed, than 40 bytes of packet) a drop with E_TRUNCATED. -/
def Obligations.CompletingFragmentHandsTheDatagramOn : Prop :=
  (∀ (s : State) (i : Instr) (f : FragParts) (k : Nat) (sl : Slot), s.Inv → i.fragParts = some f →
      s.Admits f.a f.len → f.size ≠ 0 → f.off + f.data.length ≤ f.size.toNat →
      s.slotAt k = some sl → sl.srcLl = f.a.srcLl → sl.tag = f.tag → sl.size = f.size →
      (∀ b, b < sl.size.toNat → (f.off ≤ b ∧ b < f.off + f.data.length) ∨ Memory.read sl.data b ≠ none) →
      ∃ dg : List Byte, dg.length = sl.size.toNat ∧
        (∀ b, b < sl.size.toNat → dg[b]? =
          if f.off ≤ b ∧ b < f.off + f.data.length then f.data[b - f.off]? else Memory.read sl.data b) ∧
        exec i s = .next (({ s with
          lastNow := f.a.now, slots := s.slots.set k none
          lru := s.lru.filter (fun j => decide (j ≠ k)) } : State).processDatagram dg sl.srcLl f.a.dstLl)) ∧
  ∀ (t : State) (dg : List Byte) (src dst : LLAddr),
    let dropped : BitVec 8 → State := fun code => { t with cntDrop := t.cntDrop + 1, lastErr := code }
    let delivered : List Byte → State := fun p => { t with out := t.out ++ t.deliveries p }
    t.processDatagram dg src dst =
      match dg with
      | [] => dropped 0x02
      | b :: p =>
        if b.toNat = 0x41 then if 40 ≤ p.length then delivered p else dropped 0x02
        else if 0x60 ≤ b.toNat ∧ b.toNat ≤ 0x7F then
          if dg.length < 2 then dropped 0x02
          else
            match decompress t.cfg t.ctx dg src dst with
            | .ok q => delivered q
            | .error e => dropped e.code
        else if 0xC0 ≤ b.toNat ∧ b.toNat ≤ 0xDF then if dg.length < 4 then dropped 0x02 else dropped 0x0A
        else if 0xE0 ≤ b.toNat then if dg.length < 5 then dropped 0x02 else dropped 0x0A
        else dropped 0x01

/-- R235: a fragment of an unseen key, with an EMPTY slot in the pool, does what it would do had the lowest EMPTY slot
been FILLING for its key with no byte received, created now and most recent in LRU. Either kind of fragment allocates. -/
def Obligations.UnseenKeyTakesTheLowestEmptySlot : Prop :=
  ∀ (s : State) (i : Instr) (f : FragParts) (k : Nat), i.fragParts = some f →
    s.Admits f.a f.len → f.size ≠ 0 → f.off + f.data.length ≤ f.size.toNat →
    (∀ j sl, s.slotAt j = some sl → ¬(sl.srcLl = f.a.srcLl ∧ sl.tag = f.tag)) →
    s.slots[k]? = some none → (∀ j, j < k → s.slots[j]? ≠ some none) →
    exec i s = exec i { s with
      slots := s.slots.set k (some ⟨f.a.srcLl, f.tag, f.size, [], f.a.now⟩), lru := k :: s.lru }

/-- R236: a fragment of an unseen key that finds every slot FILLING does what it would do had the last slot of LRU been
freed and the eviction counted. -/
def Obligations.FullPoolEvictsTheLeastRecentlyUpdated : Prop :=
  ∀ (s : State) (i : Instr) (f : FragParts) (v : Nat) (pre : List Nat), s.Inv → i.fragParts = some f →
    s.Admits f.a f.len → f.size ≠ 0 → f.off + f.data.length ≤ f.size.toNat →
    (∀ j sl, s.slotAt j = some sl → ¬(sl.srcLl = f.a.srcLl ∧ sl.tag = f.tag)) →
    none ∉ s.slots → s.lru = pre ++ [v] →
    exec i s = exec i { s with
      slots := s.slots.set v none, lru := pre, cntEvictLru := s.cntEvictLru + 1 }

/-- Derived from R246: a fragment leaves every slot as it was but the one its key matches or, for an unseen key, the one
chosen for it. -/
def Obligations.FragmentLeavesOtherSlotsAlone : Prop :=
  ∀ (s s' : State) (i : Instr) (f : FragParts) (k : Nat), i.fragParts = some f → exec i s = .next s' →
    (match s.matchSlot f.a.srcLl f.tag with
     | some (j, _) => j = k
     | none => (s.chooseSlot.map Prod.fst) = some k) →
    ∀ j, j ≠ k → s'.slotAt j = s.slotAt j

/-- Derived from R244: an accepted fragment that leaves its datagram incomplete changes nothing when it comes again at
once. -/
def Obligations.RepeatedFragmentChangesNothing : Prop :=
  ∀ (s s' : State) (i : Instr) (f : FragParts), s.Inv → s.initDone = true → i.fragParts = some f → f.size ≠ 0 →
    f.off + f.data.length ≤ f.size.toNat → exec i s = .next s' →
    (s'.matchSlot f.a.srcLl f.tag).isSome = true → exec i s' = .next s'

/-- R242: TICK frees exactly the slots older than the timeout, takes them out of LRU, counts each, and changes nothing
else. -/
def Obligations.TickFreesExactlyTheStaleSlots : Prop :=
  ∀ (s : State) (now : Time), s.initDone = true → s.lastNow ≤ now →
    let stale : Option Slot → Bool := fun o =>
      match o with
      | some sl => decide (sl.tCreated + s.cfg.reassTimeout < now)
      | none => false
    exec (.tick now) s = .next { s with
      lastNow := now
      slots := s.slots.map (fun o => if stale o then none else o)
      lru := s.lru.filter (fun j => !stale (s.slotAt j))
      cntTimeout := s.cntTimeout + BitVec.ofNat 32 (s.slots.countP stale) }

/-- Derived from R245: feed any sequence of a datagram's fragments, in any order and with repeats, from one source, to a
block with no slot of that key: while a fragment is still missing nothing is handed on, and with the last missing one
exactly the datagram is processed (CompletingFragmentHandsTheDatagramOn says how) and the slot is free again. -/
def Obligations.ReassemblyInAnyOrderYieldsTheDatagram : Prop :=
  ∀ (s : State) (c : Config) (src dst : LLAddr) (tag : BitVec 16) (d : List Byte) (fs : List (List Byte × Time)),
    s.Inv → s.initDone = true → c.Ok → c.linkMtu ≤ s.cfg.linkMtu → c.linkMtu < d.length → d.length ≤ 2047 →
    (∀ k sl, s.slotAt k = some sl → ¬(sl.srcLl = src ∧ sl.tag = tag)) →
    (∀ x ∈ fs, x.1 ∈ fragmentFrames c tag d) →
    (fs.map Prod.snd).Pairwise (· ≤ ·) → (∀ x ∈ fs, s.lastNow ≤ x.2) →
    ((∃ f ∈ fragmentFrames c tag d, f ∉ fs.map Prod.fst) →
      ∃ s', State.feed src dst fs s = .next s' ∧ s'.out = s.out ∧ s'.cntDrop = s.cntDrop ∧ s'.lastErr = s.lastErr) ∧
    (∀ before last, fs = before ++ [last] → (∀ f ∈ fragmentFrames c tag d, f ∈ fs.map Prod.fst) →
      last.1 ∉ before.map Prod.fst →
      ∃ s', State.feed src dst fs s = .next s' ∧ s'.out = (s.processDatagram d src dst).out ∧
        s'.cntDrop = (s.processDatagram d src dst).cntDrop ∧ s'.lastErr = (s.processDatagram d src dst).lastErr ∧
        s'.matchSlot src tag = none)

-- ## The compressor and the decompressor

/-- Derived from R163: the header-compression round trip. For every packet that the guard of R151 passes, every table and
every pair of link-layer addresses, DECOMPRESS of COMPRESS is the packet. -/
def Obligations.CompressionRoundTrip : Prop :=
  ∀ (c : Config) (t : CtxTable) (p : List Byte) (src dst : LLAddr),
    40 ≤ p.length → (byteAt p 0).toNat / 16 = 6 →
    (byteAt p 4).toNat * 256 + (byteAt p 5).toNat = p.length - 40 → p.length ≤ c.maxIpv6Len →
    decompress c t (compress c t p src dst) src dst = .ok p

/-- R151: a packet shorter than 40 bytes, not of version 6, or whose length field disagrees is sent as `0x41 ++ P`. -/
def Obligations.InexpressiblePacketGoesUncompressed : Prop :=
  ∀ (c : Config) (t : CtxTable) (p : List Byte) (src dst : LLAddr),
    (p.length < 40 ∨ (byteAt p 0).toNat / 16 ≠ 6 ∨
      (byteAt p 4).toNat * 256 + (byteAt p 5).toNat ≠ p.length - 40) →
    compress c t p src dst = 0x41 :: p

/-- Derived from R159: the compressed datagram is at most one byte longer than the packet. -/
def Obligations.CompressionAddsAtMostOneByte : Prop :=
  ∀ (c : Config) (t : CtxTable) (p : List Byte) (src dst : LLAddr),
    (compress c t p src dst).length ≤ p.length + 1

/-- Derived from R190 and R191: what DECOMPRESS answers is a whole IPv6 packet of version 6, within MAX_IPV6_LEN, whose
length field (where it fits 16 bits) is the number of bytes after the header. -/
def Obligations.DecompressedPacketIsWellFormed : Prop :=
  ∀ (c : Config) (t : CtxTable) (b p : List Byte) (src dst : LLAddr), decompress c t b src dst = .ok p →
    40 ≤ p.length ∧ p.length ≤ c.maxIpv6Len ∧ (byteAt p 0).toNat / 16 = 6 ∧
    (p.length - 40 < 65536 → (byteAt p 4).toNat * 256 + (byteAt p 5).toNat = p.length - 40)

/-- Derived from R115: with the next header in line, the bytes of the input are the header length of R115 and then the
payload. -/
def Obligations.HeaderLengthFollowsTheBaseBytes : Prop :=
  ∀ (c : Config) (t : CtxTable) (b p : List Byte) (src dst : LLAddr), decompress c t b src dst = .ok p →
    let f := iphcBaseOf (byteAt b 0) (byteAt b 1)
    f.nh = false → b.length = iphcHdrLen f + (p.length - 40) ∧ p.drop 40 = b.drop (iphcHdrLen f)

/-- Derived from R109 and R187 to R189: no packet comes of a reserved destination mode, nor of a compressed next header
while NHC_EN = 0 or whose NHC byte, the first after the header of R115, is not `11110 0 PP`. With a stateless source and
the bytes all there, the error is E_RESERVED_MODE; with both addresses stateless it is E_UNSUPPORTED_NHC. -/
def Obligations.ReservedModesNeverDecompress : Prop :=
  ∀ (c : Config) (t : CtxTable) (b p : List Byte) (src dst : LLAddr),
    let f := iphcBaseOf (byteAt b 0) (byteAt b 1)
    let n := byteAt b (iphcHdrLen f)
    let reserved := (f.m = false ∧ f.dac = true ∧ f.dam = 0) ∨ (f.m = true ∧ f.dac = true ∧ f.dam ≠ 0)
    let unsupported := f.nh = true ∧ (c.nhcEn = false ∨ ¬(0xF0 ≤ n.toNat ∧ n.toNat ≤ 0xF3))
    (reserved ∨ unsupported → decompress c t b src dst ≠ .ok p) ∧
    (reserved → f.sac = false → iphcHdrLen f ≤ b.length → decompress c t b src dst = .error .reservedMode) ∧
    (unsupported → f.sac = false → f.dac = false → iphcHdrLen f < b.length →
      decompress c t b src dst = .error .unsupportedNhc)

/-- Derived from R143 and R186 to R188: no packet comes of a source, unicast or multicast destination mode that names an
identifier 1 to 15 whose entry is not in use. With the header all there the error is E_NO_CONTEXT where the source names
the absent entry, or the source is stateless and the destination names it. -/
def Obligations.AbsentContextNeverDecompresses : Prop :=
  ∀ (c : Config) (t : CtxTable) (b p : List Byte) (src dst : LLAddr),
    let f := iphcBaseOf (byteAt b 0) (byteAt b 1)
    let sci := (byteAt b 2).extractLsb' 4 4
    let dci := (byteAt b 2).extractLsb' 0 4
    let source := f.sac = true ∧ f.sam ≠ 0 ∧ sci ≠ 0 ∧ ctxEntry t sci = none
    let unicast := f.m = false ∧ f.dac = true ∧ f.dam ≠ 0 ∧ dci ≠ 0 ∧ ctxEntry t dci = none
    let multicast := f.m = true ∧ f.dac = true ∧ f.dam = 0 ∧ dci ≠ 0 ∧ ctxEntry t dci = none
    f.cid = true → source ∨ unicast ∨ multicast →
    decompress c t b src dst ≠ .ok p ∧
    (iphcHdrLen f ≤ b.length → source ∨ f.sac = false → decompress c t b src dst = .error .noContext)

/-- R105, with the numbering of R9: address bit `k` of RECON_CTX is the prefix's for `k < len` and else that of
`zeros(8) ++ iid`. -/
def Obligations.ReconstructionTakesPrefixBits : Prop :=
  ∀ (e : CtxEntry) (iid : List Byte) (k : Nat), iid.length = 8 → k < 128 →
    (reconCtx e iid).length = 16 ∧
    addrBit (reconCtx e iid) k =
      if k < e.len.toNat then e.pfx.getLsbD (127 - k) else addrBit (List.replicate 8 0 ++ iid) k

/-- Derived from R100, R152 and R183: the in-line bytes of every traffic class and flow label give them back. -/
def Obligations.TrafficClassRoundTrip : Prop :=
  ∀ (tc : Byte) (fl : BitVec 20),
    (tfInline (tfMode tc fl) tc fl).length = tfLen (tfMode tc fl) ∧
    tfOperands (tfMode tc fl) (tfInline (tfMode tc fl) tc fl) = (tc, fl)

-- ## Decoding and encoding

/-- Decode and encode agree: every well-formed instruction comes back from its encoding (R91 to R98, R107, R111, R112). -/
def Obligations.DecodeOfEncodeIsTheInstruction : Prop :=
  ∀ (c : Config) (i : Instr), i.WF c → decode (encode i) = .ok i

/-- The other direction: a frame or an NHC stage that decodes is the encoding of what it decodes to; no bit of a wire
format is dropped (R91 to R98, R107). -/
def Obligations.EncodeOfDecodeIsTheWire : Prop :=
  ∀ (bytes : List Byte) (i : Instr),
    (∀ a, decode (.frame bytes a) = .ok i → encode i = .frame bytes a) ∧
    (∀ o, decode (.nhc bytes o) = .ok i → encode i = .nhc bytes o)

/-- Derived from R91 and R130 to R135: the class of a frame that is long enough, by the ranges of its first byte, and the
header bytes of that class. Shorter frames: UnknownAndTruncatedFramesAreDropped for those too short for their class,
DecodeOfEncodeIsTheInstruction for those that are not. -/
def Obligations.FirstByteSelectsTheClass : Prop :=
  ∀ (b : Byte) (rest : List Byte), 4 ≤ rest.length →
    classify (b :: rest) =
      if b.toNat = 0x41 then (.ipv6Uncomp, 1)
      else if 0x60 ≤ b.toNat ∧ b.toNat ≤ 0x7F then (.iphc, 2)
      else if 0xC0 ≤ b.toNat ∧ b.toNat ≤ 0xDF then (.frag1, 4)
      else if 0xE0 ≤ b.toNat then (.fragN, 5)
      else (.unknown, 0)

/-- Words written out from the spec's encodings decode to the instructions they stand for (R93, R94, R96, R97, R107,
R111; the words of spec/95_test_vectors.md T10, T51, T24). -/
def Obligations.WordsOfTheSpecDecode : Prop :=
  (∀ a, decode (.frame [0x7A, 0x37, 0x3A, 0xDE] a) =
    .ok (.iphc a ⟨0b11, false, 0b10, false, false, 0b11, false, true, 0b11⟩ [0x3A, 0xDE])) ∧
  (∀ a, decode (.frame [0xC1, 0x2C, 0x12, 0x34, 0x7A] a) = .ok (.frag1 a 0 300 0x1234 [0x7A])) ∧
  (∀ a, decode (.frame [0xE1, 0x2C, 0x12, 0x34, 0x0C, 0x8E] a) = .ok (.fragN a 0 300 0x1234 0x0C [0x8E])) ∧
  (∀ a, decode (.frame [0x41, 0x60] a) = .ok (.ipv6Uncomp a [0x60])) ∧
  (∀ a, decode (.frame [0x80, 0x00] a) = .ok (.unknown a 0x80 [0x00])) ∧
  (∀ o, decode (.nhc [0xF3, 0x12, 0xAB, 0xCD] o) = .ok (.nhcUdp o 0b11 [0x12, 0xAB, 0xCD])) ∧
  (∀ g, decode (.op 0x0B g) = .ok (.tick g.now))

/-- A step runs the decoded instruction: with a transaction at the head of the inputs that decodes to `i`, step is exec
of `i` with that input taken (R68). And what step does with a transaction that decodes to none (frames and NHC stages as
transactions are the model's choice, log entries 5 and 6): a frame too short for its class is dropped with E_TRUNCATED
(R136), under the preconditions of every arrival (R265, R304); an NHC stage without a byte `11110 0 PP` is dropped with
E_UNSUPPORTED_NHC, or with E_TRUNCATED where NHC_EN = 1 and no byte is there (R189); both are ignored before INIT (R268).
An operation code always decodes (R269). -/
def Obligations.StepRunsTheDecodedInstruction : Prop :=
  ∀ (s : State) (t : Txn) (rest : List Event), s.inputs = .txn t :: rest →
    (∀ i, decode t = .ok i → step s = exec i { s with inputs := rest }) ∧
    (∀ bytes a, t = .frame bytes a →
      (bytes = [] ∨ ∃ b p, bytes = b :: p ∧
        ((0x60 ≤ b.toNat ∧ b.toNat ≤ 0x7F ∧ bytes.length < 2) ∨
         (0xC0 ≤ b.toNat ∧ b.toNat ≤ 0xDF ∧ bytes.length < 4) ∨ (0xE0 ≤ b.toNat ∧ bytes.length < 5))) →
      (s.initDone = false → step s = .next { s with inputs := rest }) ∧
      (s.Admits a bytes.length → step s = .next { s with
        inputs := rest, lastNow := a.now, cntDrop := s.cntDrop + 1, lastErr := 0x02 }) ∧
      (s.initDone = true → s.cfg.linkMtu < bytes.length → step s = .refused .frameTooLong) ∧
      (s.initDone = true → bytes.length ≤ s.cfg.linkMtu → a.now < s.lastNow → step s = .refused .timeBackwards)) ∧
    (∀ bytes o, t = .nhc bytes o → (∀ b p, bytes = b :: p → ¬(0xF0 ≤ b.toNat ∧ b.toNat ≤ 0xF3)) →
      (s.initDone = false → step s = .next { s with inputs := rest }) ∧
      (s.initDone = true → step s = .next { s with
        inputs := rest, cntDrop := s.cntDrop + 1
        lastErr := if s.cfg.nhcEn = true ∧ bytes = [] then 0x02 else 0x05 })) ∧
    (∀ code g, t = .op code g → ∃ i, decode t = .ok i)

/-- The opcode table's words (log entry 7): a word that decodes is run by the very next step. -/
def Obligations.TableWordRunsNext : Prop :=
  ∀ (s : State) (nbits w : Nat) (i : Instr), decodeTableWord nbits w = some i →
    step (s.withFetchWord nbits w) = exec i s

-- ## The whole machine

/-- The reset state keeps the invariant for all parameters that R6 admits (R35, R320, and the reset values of log
entry 2). -/
def Obligations.ResetKeepsTheInvariant : Prop :=
  ∀ (c : Config), c.Ok → (State.resetWith c).Inv

/-- R320: what hardware reset writes. -/
def Obligations.ResetWritesItsThreeElements : Prop :=
  ∀ (c : Config), (State.resetWith c).initDone = false ∧ (State.resetWith c).tagCtr = c.tagInit ∧
    (State.resetWith c).txq = .idle

/-- The invariant is kept by every step (derived from R26, R27, R145, R273). -/
def Obligations.EveryStepKeepsTheInvariant : Prop :=
  ∀ (s s' : State), s.Inv → step s = .next s' → s'.Inv

/-- Derived from R297: from a state that keeps the invariant no run ever faults, whatever the inputs. -/
def Obligations.NoInputEverFaultsTheBlock : Prop :=
  ∀ (s : State), s.Inv → s.SafeRun

/-- Derived from R303, R68 and R6: a step takes one input, adds outputs and takes none back, never changes a parameter,
and never makes an initialised block uninitialised. -/
def Obligations.StepsOnlyGoForward : Prop :=
  ∀ (s s' : State), step s = .next s' →
    (∃ new, s'.out = s.out ++ new) ∧ s'.cfg = s.cfg ∧ s'.inputs = s.inputs.tail ∧
    (s.initDone = true → s'.initDone = true) ∧ s.lastNow ≤ s'.lastNow

/-- Derived from R290, R293 and R302: frames, fragments, ticks and the NHC stage leave the send, the tag counter, the
configuration, the context table and the registry as they were, and put out nothing but deliveries: no receive error
reaches a caller. -/
def Obligations.ReceivePathLeavesSendState : Prop :=
  ∀ (s s' : State) (i : Instr), i.isHostOp = false → exec i s = .next s' →
    s'.txq = s.txq ∧ s'.sendWait = s.sendWait ∧ s'.tagCtr = s.tagCtr ∧ s'.hcEn = s.hcEn ∧ s'.isBr = s.isBr ∧
    s'.localLl = s.localLl ∧ s'.ctx = s.ctx ∧ s'.reg = s.reg ∧ s'.initDone = s.initDone ∧ s'.cfg = s.cfg ∧
    s'.inputs = s.inputs ∧
    ∃ new, s'.out = s.out ++ new ∧ ∀ o ∈ new, o.isDlv = true

/-- Derived from R262: the receive path never reads HC_EN. -/
def Obligations.ReceivePathIgnoresHcEn : Prop :=
  ∀ (s s' : State) (i : Instr) (e : Bool), i.isHostOp = false → exec i s = .next s' →
    exec i { s with hcEn := e } = .next { s' with hcEn := e }
end

