-- ==== Sys2Proof/Laws/Memory.lean ====
section
/-! SUPPORT. Slot storage: what a read gives after a write, and that every operation keeps the canonical form. -/

namespace Sys2Proof.Machine

@[simp] theorem Memory.read_nil (k : Nat) : Memory.read [] k = none := rfl

theorem Memory.read_cons (a : Nat) (b : Byte) (m : Memory) (k : Nat) :
    Memory.read ((a, b) :: m) k = if a = k then some b else Memory.read m k := rfl

/-- A read after a write: the written byte at its address, the old one elsewhere. -/
theorem Memory.read_write (m : Memory) (a k : Nat) (v : Byte) :
    Memory.read (Memory.write m a v) k = if k = a then some v else Memory.read m k := by
  induction m with
  | nil => simp only [Memory.write, Memory.read_cons, Memory.read_nil]; grind
  | cons c m ih =>
    obtain ⟨x, b⟩ := c
    simp only [Memory.write]
    split
    · simp only [Memory.read_cons]; grind
    · split
      · simp only [Memory.read_cons]; grind
      · simp only [Memory.read_cons, ih]; grind

/-- A read after a run is written: the run's byte inside it, the old one outside. -/
theorem Memory.read_writeRun (bs : List Byte) (m : Memory) (off k : Nat) :
    Memory.read (Memory.writeRun m off bs) k =
      if off ≤ k ∧ k < off + bs.length then bs[k - off]? else Memory.read m k := by
  induction bs generalizing m off with
  | nil => simp only [Memory.writeRun, List.length_nil]; split <;> first | omega | rfl
  | cons b bs ih =>
    simp only [Memory.writeRun, ih, Memory.read_write, List.length_cons]
    by_cases h0 : k = off
    · subst h0; simp
    · by_cases h1 : off + 1 ≤ k ∧ k < off + 1 + bs.length
      · have e : k - off = (k - (off + 1)) + 1 := by omega
        rw [if_pos h1, if_pos (by omega), e, List.getElem?_cons_succ]
      · rw [if_neg h1, if_neg h0, if_neg (by omega)]

/-- A run of bytes is read exactly when each of its bytes has a value. -/
theorem Memory.readRun_eq_some (m : Memory) (n off : Nat) (bs : List Byte) :
    Memory.readRun m off n = some bs ↔ bs.length = n ∧ ∀ i, i < n → Memory.read m (off + i) = bs[i]? := by
  induction n generalizing off bs with
  | zero =>
    cases bs with
    | nil => simp [Memory.readRun]
    | cons b bs => simp [Memory.readRun]
  | succ n ih =>
    simp only [Memory.readRun]
    constructor
    · intro h
      split at h
      · next b r hb hr =>
        obtain rfl := Option.some.inj h
        obtain ⟨hl, hi⟩ := (ih (off + 1) r).1 hr
        refine ⟨by simp [hl], fun i hlt => ?_⟩
        cases i with
        | zero => simpa using hb
        | succ i => rw [show off + (i + 1) = off + 1 + i by omega]; simpa using hi i (by omega)
      · cases h
    · rintro ⟨hl, hi⟩
      cases bs with
      | nil => simp at hl
      | cons b r =>
        have h0 : Memory.read m off = some b := by simpa using hi 0 (by omega)
        have hr : Memory.readRun m (off + 1) n = some r := (ih (off + 1) r).2
          ⟨by simpa using hl, fun i hlt => by
            rw [show off + 1 + i = off + (i + 1) by omega]; simpa using hi (i + 1) (by omega)⟩
        rw [h0, hr]

/-- A run cannot be read exactly when one of its bytes has no value (R26: the slot is not complete). -/
theorem Memory.readRun_eq_none (m : Memory) (n off : Nat) :
    Memory.readRun m off n = none ↔ ∃ i, i < n ∧ Memory.read m (off + i) = none := by
  induction n generalizing off with
  | zero => simp [Memory.readRun]
  | succ n ih =>
    simp only [Memory.readRun]
    constructor
    · intro h
      cases hb : Memory.read m off with
      | none => exact ⟨0, by omega, by simpa using hb⟩
      | some b =>
        cases hr : Memory.readRun m (off + 1) n with
        | some r => simp [hb, hr] at h
        | none =>
          obtain ⟨i, hi, he⟩ := (ih (off + 1)).1 hr
          exact ⟨i + 1, by omega, by rw [show off + (i + 1) = off + 1 + i by omega]; exact he⟩
    · rintro ⟨i, hi, he⟩
      cases i with
      | zero =>
        have he' : Memory.read m off = none := by simpa using he
        rw [he']
      | succ i =>
        have hr := (ih (off + 1)).2 ⟨i, by omega, by rw [show off + 1 + i = off + (i + 1) by omega]; exact he⟩
        rw [hr]
        cases Memory.read m off <;> rfl

theorem Memory.wf_nil : Memory.wf [] = true := rfl

theorem Memory.wf_cons (c : Host.Cell) (m : Memory) :
    Memory.wf (c :: m) = true ↔ (∀ d ∈ m, c.1 < d.1) ∧ Memory.wf m = true := by
  simp [Memory.wf, List.pairwise_cons]

/-- Every address a write lists was listed before or is the written one. -/
theorem Memory.mem_write (m : Memory) (a : Nat) (v : Byte) (c : Host.Cell) (h : c ∈ Memory.write m a v) :
    c.1 = a ∨ c ∈ m := by
  induction m with
  | nil => simp [Memory.write] at h; simp [h]
  | cons d m ih =>
    obtain ⟨x, b⟩ := d
    simp only [Memory.write] at h
    split at h
    · simp at h; rcases h with h | h | h <;> simp [h]
    · split at h
      · simp at h; rcases h with h | h <;> simp [h]
      · simp at h
        rcases h with h | h
        · simp [h]
        · rcases ih h with h | h <;> simp [h]

/-- A write keeps the canonical form. -/
theorem Memory.wf_write (m : Memory) (a : Nat) (v : Byte) (h : Memory.wf m = true) : Memory.wf (Memory.write m a v) = true := by
  induction m with
  | nil => simp [Memory.write, Memory.wf]
  | cons d m ih =>
    obtain ⟨x, b⟩ := d
    obtain ⟨hlt, hm⟩ := (Memory.wf_cons _ _).1 h
    simp only [Memory.write]
    split
    · refine (Memory.wf_cons _ _).2 ⟨fun d hd => ?_, h⟩
      rcases List.mem_cons.1 hd with rfl | hd
      · assumption
      · exact Nat.lt_trans ‹_› (hlt d hd)
    · split
      · subst_vars; exact (Memory.wf_cons _ _).2 ⟨hlt, hm⟩
      · refine (Memory.wf_cons _ _).2 ⟨fun d hd => ?_, ih hm⟩
        rcases Memory.mem_write m a v d hd with h1 | h1
        · simp only [h1]; omega
        · exact hlt d h1

/-- Writing a run keeps the canonical form. -/
theorem Memory.wf_writeRun (bs : List Byte) (m : Memory) (off : Nat) (h : Memory.wf m = true) :
    Memory.wf (Memory.writeRun m off bs) = true := by
  induction bs generalizing m off with
  | nil => exact h
  | cons b bs ih => exact ih _ _ (Memory.wf_write m off b h)

/-- The state after reset holds no slot storage, so it is in canonical form. -/
theorem State.reset_memWf : State.reset.memWf = true := by decide

end Sys2Proof.Machine
end

