-- ==== Sys2Proof/Laws/State.lean ====
section
/-! SUPPORT. One lemma per field of State per update of Machine/Ops.lean, Machine/Flags.lean and Machine/Fetch.lean, true
by rfl: later proofs rewrite with them and never unfold a record update. -/

namespace Sys2Proof.Machine

variable (s : State)

-- `emit` (R10)
@[simp] theorem State.emit_initDone (o : Output) : (s.emit o).initDone = s.initDone := rfl
@[simp] theorem State.emit_localLl (o : Output) : (s.emit o).localLl = s.localLl := rfl
@[simp] theorem State.emit_isBr (o : Output) : (s.emit o).isBr = s.isBr := rfl
@[simp] theorem State.emit_hcEn (o : Output) : (s.emit o).hcEn = s.hcEn := rfl
@[simp] theorem State.emit_tagCtr (o : Output) : (s.emit o).tagCtr = s.tagCtr := rfl
@[simp] theorem State.emit_ctx (o : Output) : (s.emit o).ctx = s.ctx := rfl
@[simp] theorem State.emit_slots (o : Output) : (s.emit o).slots = s.slots := rfl
@[simp] theorem State.emit_lru (o : Output) : (s.emit o).lru = s.lru := rfl
@[simp] theorem State.emit_reg (o : Output) : (s.emit o).reg = s.reg := rfl
@[simp] theorem State.emit_cntEvictLru (o : Output) : (s.emit o).cntEvictLru = s.cntEvictLru := rfl
@[simp] theorem State.emit_cntEvictCorrupt (o : Output) : (s.emit o).cntEvictCorrupt = s.cntEvictCorrupt := rfl
@[simp] theorem State.emit_cntTimeout (o : Output) : (s.emit o).cntTimeout = s.cntTimeout := rfl
@[simp] theorem State.emit_cntDrop (o : Output) : (s.emit o).cntDrop = s.cntDrop := rfl
@[simp] theorem State.emit_lastErr (o : Output) : (s.emit o).lastErr = s.lastErr := rfl
@[simp] theorem State.emit_txq (o : Output) : (s.emit o).txq = s.txq := rfl
@[simp] theorem State.emit_cfg (o : Output) : (s.emit o).cfg = s.cfg := rfl
@[simp] theorem State.emit_inputs (o : Output) : (s.emit o).inputs = s.inputs := rfl
@[simp] theorem State.emit_out (o : Output) : (s.emit o).out = s.out ++ [o] := rfl
@[simp] theorem State.emit_sendWait (o : Output) : (s.emit o).sendWait = s.sendWait := rfl
@[simp] theorem State.emit_lastNow (o : Output) : (s.emit o).lastNow = s.lastNow := rfl

-- a returned status (R11)
@[simp] theorem State.ret_initDone (op : Byte) (st : Status) (v : RetVal) : (s.ret op st v).initDone = s.initDone := rfl
@[simp] theorem State.ret_localLl (op : Byte) (st : Status) (v : RetVal) : (s.ret op st v).localLl = s.localLl := rfl
@[simp] theorem State.ret_isBr (op : Byte) (st : Status) (v : RetVal) : (s.ret op st v).isBr = s.isBr := rfl
@[simp] theorem State.ret_hcEn (op : Byte) (st : Status) (v : RetVal) : (s.ret op st v).hcEn = s.hcEn := rfl
@[simp] theorem State.ret_tagCtr (op : Byte) (st : Status) (v : RetVal) : (s.ret op st v).tagCtr = s.tagCtr := rfl
@[simp] theorem State.ret_ctx (op : Byte) (st : Status) (v : RetVal) : (s.ret op st v).ctx = s.ctx := rfl
@[simp] theorem State.ret_slots (op : Byte) (st : Status) (v : RetVal) : (s.ret op st v).slots = s.slots := rfl
@[simp] theorem State.ret_lru (op : Byte) (st : Status) (v : RetVal) : (s.ret op st v).lru = s.lru := rfl
@[simp] theorem State.ret_reg (op : Byte) (st : Status) (v : RetVal) : (s.ret op st v).reg = s.reg := rfl
@[simp] theorem State.ret_cntEvictLru (op : Byte) (st : Status) (v : RetVal) : (s.ret op st v).cntEvictLru = s.cntEvictLru := rfl
@[simp] theorem State.ret_cntEvictCorrupt (op : Byte) (st : Status) (v : RetVal) : (s.ret op st v).cntEvictCorrupt = s.cntEvictCorrupt := rfl
@[simp] theorem State.ret_cntTimeout (op : Byte) (st : Status) (v : RetVal) : (s.ret op st v).cntTimeout = s.cntTimeout := rfl
@[simp] theorem State.ret_cntDrop (op : Byte) (st : Status) (v : RetVal) : (s.ret op st v).cntDrop = s.cntDrop := rfl
@[simp] theorem State.ret_lastErr (op : Byte) (st : Status) (v : RetVal) : (s.ret op st v).lastErr = s.lastErr := rfl
@[simp] theorem State.ret_txq (op : Byte) (st : Status) (v : RetVal) : (s.ret op st v).txq = s.txq := rfl
@[simp] theorem State.ret_cfg (op : Byte) (st : Status) (v : RetVal) : (s.ret op st v).cfg = s.cfg := rfl
@[simp] theorem State.ret_inputs (op : Byte) (st : Status) (v : RetVal) : (s.ret op st v).inputs = s.inputs := rfl
@[simp] theorem State.ret_out (op : Byte) (st : Status) (v : RetVal) : (s.ret op st v).out = s.out ++ [.ret op st v] := rfl
@[simp] theorem State.ret_sendWait (op : Byte) (st : Status) (v : RetVal) : (s.ret op st v).sendWait = s.sendWait := rfl
@[simp] theorem State.ret_lastNow (op : Byte) (st : Status) (v : RetVal) : (s.ret op st v).lastNow = s.lastNow := rfl

-- `drop` (R293)
@[simp] theorem State.drop_initDone (e : Status) : (s.drop e).initDone = s.initDone := rfl
@[simp] theorem State.drop_localLl (e : Status) : (s.drop e).localLl = s.localLl := rfl
@[simp] theorem State.drop_isBr (e : Status) : (s.drop e).isBr = s.isBr := rfl
@[simp] theorem State.drop_hcEn (e : Status) : (s.drop e).hcEn = s.hcEn := rfl
@[simp] theorem State.drop_tagCtr (e : Status) : (s.drop e).tagCtr = s.tagCtr := rfl
@[simp] theorem State.drop_ctx (e : Status) : (s.drop e).ctx = s.ctx := rfl
@[simp] theorem State.drop_slots (e : Status) : (s.drop e).slots = s.slots := rfl
@[simp] theorem State.drop_lru (e : Status) : (s.drop e).lru = s.lru := rfl
@[simp] theorem State.drop_reg (e : Status) : (s.drop e).reg = s.reg := rfl
@[simp] theorem State.drop_cntEvictLru (e : Status) : (s.drop e).cntEvictLru = s.cntEvictLru := rfl
@[simp] theorem State.drop_cntEvictCorrupt (e : Status) : (s.drop e).cntEvictCorrupt = s.cntEvictCorrupt := rfl
@[simp] theorem State.drop_cntTimeout (e : Status) : (s.drop e).cntTimeout = s.cntTimeout := rfl
@[simp] theorem State.drop_cntDrop (e : Status) : (s.drop e).cntDrop = s.cntDrop + 1 := rfl
@[simp] theorem State.drop_lastErr (e : Status) : (s.drop e).lastErr = e.code := rfl
@[simp] theorem State.drop_txq (e : Status) : (s.drop e).txq = s.txq := rfl
@[simp] theorem State.drop_cfg (e : Status) : (s.drop e).cfg = s.cfg := rfl
@[simp] theorem State.drop_inputs (e : Status) : (s.drop e).inputs = s.inputs := rfl
@[simp] theorem State.drop_out (e : Status) : (s.drop e).out = s.out := rfl
@[simp] theorem State.drop_sendWait (e : Status) : (s.drop e).sendWait = s.sendWait := rfl
@[simp] theorem State.drop_lastNow (e : Status) : (s.drop e).lastNow = s.lastNow := rfl

-- DELIVER (R274)
@[simp] theorem State.deliver_initDone (p : List Byte) : (s.deliver p).initDone = s.initDone := rfl
@[simp] theorem State.deliver_localLl (p : List Byte) : (s.deliver p).localLl = s.localLl := rfl
@[simp] theorem State.deliver_isBr (p : List Byte) : (s.deliver p).isBr = s.isBr := rfl
@[simp] theorem State.deliver_hcEn (p : List Byte) : (s.deliver p).hcEn = s.hcEn := rfl
@[simp] theorem State.deliver_tagCtr (p : List Byte) : (s.deliver p).tagCtr = s.tagCtr := rfl
@[simp] theorem State.deliver_ctx (p : List Byte) : (s.deliver p).ctx = s.ctx := rfl
@[simp] theorem State.deliver_slots (p : List Byte) : (s.deliver p).slots = s.slots := rfl
@[simp] theorem State.deliver_lru (p : List Byte) : (s.deliver p).lru = s.lru := rfl
@[simp] theorem State.deliver_reg (p : List Byte) : (s.deliver p).reg = s.reg := rfl
@[simp] theorem State.deliver_cntEvictLru (p : List Byte) : (s.deliver p).cntEvictLru = s.cntEvictLru := rfl
@[simp] theorem State.deliver_cntEvictCorrupt (p : List Byte) : (s.deliver p).cntEvictCorrupt = s.cntEvictCorrupt := rfl
@[simp] theorem State.deliver_cntTimeout (p : List Byte) : (s.deliver p).cntTimeout = s.cntTimeout := rfl
@[simp] theorem State.deliver_cntDrop (p : List Byte) : (s.deliver p).cntDrop = s.cntDrop := rfl
@[simp] theorem State.deliver_lastErr (p : List Byte) : (s.deliver p).lastErr = s.lastErr := rfl
@[simp] theorem State.deliver_txq (p : List Byte) : (s.deliver p).txq = s.txq := rfl
@[simp] theorem State.deliver_cfg (p : List Byte) : (s.deliver p).cfg = s.cfg := rfl
@[simp] theorem State.deliver_inputs (p : List Byte) : (s.deliver p).inputs = s.inputs := rfl
@[simp] theorem State.deliver_out (p : List Byte) : (s.deliver p).out = s.out ++ (s.reg.filterMap id).map (fun h => .dlv h (BitVec.ofNat 16 p.length) p) := rfl
@[simp] theorem State.deliver_sendWait (p : List Byte) : (s.deliver p).sendWait = s.sendWait := rfl
@[simp] theorem State.deliver_lastNow (p : List Byte) : (s.deliver p).lastNow = s.lastNow := rfl

-- `FREE` (R233)
@[simp] theorem State.freeSlot_initDone (i : Nat) : (s.freeSlot i).initDone = s.initDone := rfl
@[simp] theorem State.freeSlot_localLl (i : Nat) : (s.freeSlot i).localLl = s.localLl := rfl
@[simp] theorem State.freeSlot_isBr (i : Nat) : (s.freeSlot i).isBr = s.isBr := rfl
@[simp] theorem State.freeSlot_hcEn (i : Nat) : (s.freeSlot i).hcEn = s.hcEn := rfl
@[simp] theorem State.freeSlot_tagCtr (i : Nat) : (s.freeSlot i).tagCtr = s.tagCtr := rfl
@[simp] theorem State.freeSlot_ctx (i : Nat) : (s.freeSlot i).ctx = s.ctx := rfl
@[simp] theorem State.freeSlot_slots (i : Nat) : (s.freeSlot i).slots = s.slots.set i none := rfl
@[simp] theorem State.freeSlot_lru (i : Nat) : (s.freeSlot i).lru = s.lru.filter (fun j => j != i) := rfl
@[simp] theorem State.freeSlot_reg (i : Nat) : (s.freeSlot i).reg = s.reg := rfl
@[simp] theorem State.freeSlot_cntEvictLru (i : Nat) : (s.freeSlot i).cntEvictLru = s.cntEvictLru := rfl
@[simp] theorem State.freeSlot_cntEvictCorrupt (i : Nat) : (s.freeSlot i).cntEvictCorrupt = s.cntEvictCorrupt := rfl
@[simp] theorem State.freeSlot_cntTimeout (i : Nat) : (s.freeSlot i).cntTimeout = s.cntTimeout := rfl
@[simp] theorem State.freeSlot_cntDrop (i : Nat) : (s.freeSlot i).cntDrop = s.cntDrop := rfl
@[simp] theorem State.freeSlot_lastErr (i : Nat) : (s.freeSlot i).lastErr = s.lastErr := rfl
@[simp] theorem State.freeSlot_txq (i : Nat) : (s.freeSlot i).txq = s.txq := rfl
@[simp] theorem State.freeSlot_cfg (i : Nat) : (s.freeSlot i).cfg = s.cfg := rfl
@[simp] theorem State.freeSlot_inputs (i : Nat) : (s.freeSlot i).inputs = s.inputs := rfl
@[simp] theorem State.freeSlot_out (i : Nat) : (s.freeSlot i).out = s.out := rfl
@[simp] theorem State.freeSlot_sendWait (i : Nat) : (s.freeSlot i).sendWait = s.sendWait := rfl
@[simp] theorem State.freeSlot_lastNow (i : Nat) : (s.freeSlot i).lastNow = s.lastNow := rfl

-- a slot written and made most recent (R235, R239)
@[simp] theorem State.putSlot_initDone (i : Nat) (sl : Slot) : (s.putSlot i sl).initDone = s.initDone := rfl
@[simp] theorem State.putSlot_localLl (i : Nat) (sl : Slot) : (s.putSlot i sl).localLl = s.localLl := rfl
@[simp] theorem State.putSlot_isBr (i : Nat) (sl : Slot) : (s.putSlot i sl).isBr = s.isBr := rfl
@[simp] theorem State.putSlot_hcEn (i : Nat) (sl : Slot) : (s.putSlot i sl).hcEn = s.hcEn := rfl
@[simp] theorem State.putSlot_tagCtr (i : Nat) (sl : Slot) : (s.putSlot i sl).tagCtr = s.tagCtr := rfl
@[simp] theorem State.putSlot_ctx (i : Nat) (sl : Slot) : (s.putSlot i sl).ctx = s.ctx := rfl
@[simp] theorem State.putSlot_slots (i : Nat) (sl : Slot) : (s.putSlot i sl).slots = s.slots.set i (some sl) := rfl
@[simp] theorem State.putSlot_lru (i : Nat) (sl : Slot) : (s.putSlot i sl).lru = i :: s.lru.filter (fun j => j != i) := rfl
@[simp] theorem State.putSlot_reg (i : Nat) (sl : Slot) : (s.putSlot i sl).reg = s.reg := rfl
@[simp] theorem State.putSlot_cntEvictLru (i : Nat) (sl : Slot) : (s.putSlot i sl).cntEvictLru = s.cntEvictLru := rfl
@[simp] theorem State.putSlot_cntEvictCorrupt (i : Nat) (sl : Slot) : (s.putSlot i sl).cntEvictCorrupt = s.cntEvictCorrupt := rfl
@[simp] theorem State.putSlot_cntTimeout (i : Nat) (sl : Slot) : (s.putSlot i sl).cntTimeout = s.cntTimeout := rfl
@[simp] theorem State.putSlot_cntDrop (i : Nat) (sl : Slot) : (s.putSlot i sl).cntDrop = s.cntDrop := rfl
@[simp] theorem State.putSlot_lastErr (i : Nat) (sl : Slot) : (s.putSlot i sl).lastErr = s.lastErr := rfl
@[simp] theorem State.putSlot_txq (i : Nat) (sl : Slot) : (s.putSlot i sl).txq = s.txq := rfl
@[simp] theorem State.putSlot_cfg (i : Nat) (sl : Slot) : (s.putSlot i sl).cfg = s.cfg := rfl
@[simp] theorem State.putSlot_inputs (i : Nat) (sl : Slot) : (s.putSlot i sl).inputs = s.inputs := rfl
@[simp] theorem State.putSlot_out (i : Nat) (sl : Slot) : (s.putSlot i sl).out = s.out := rfl
@[simp] theorem State.putSlot_sendWait (i : Nat) (sl : Slot) : (s.putSlot i sl).sendWait = s.sendWait := rfl
@[simp] theorem State.putSlot_lastNow (i : Nat) (sl : Slot) : (s.putSlot i sl).lastNow = s.lastNow := rfl

-- the LRU eviction counter (R236)
@[simp] theorem State.countEvictLru_initDone : (s.countEvictLru).initDone = s.initDone := rfl
@[simp] theorem State.countEvictLru_localLl : (s.countEvictLru).localLl = s.localLl := rfl
@[simp] theorem State.countEvictLru_isBr : (s.countEvictLru).isBr = s.isBr := rfl
@[simp] theorem State.countEvictLru_hcEn : (s.countEvictLru).hcEn = s.hcEn := rfl
@[simp] theorem State.countEvictLru_tagCtr : (s.countEvictLru).tagCtr = s.tagCtr := rfl
@[simp] theorem State.countEvictLru_ctx : (s.countEvictLru).ctx = s.ctx := rfl
@[simp] theorem State.countEvictLru_slots : (s.countEvictLru).slots = s.slots := rfl
@[simp] theorem State.countEvictLru_lru : (s.countEvictLru).lru = s.lru := rfl
@[simp] theorem State.countEvictLru_reg : (s.countEvictLru).reg = s.reg := rfl
@[simp] theorem State.countEvictLru_cntEvictLru : (s.countEvictLru).cntEvictLru = s.cntEvictLru + 1 := rfl
@[simp] theorem State.countEvictLru_cntEvictCorrupt : (s.countEvictLru).cntEvictCorrupt = s.cntEvictCorrupt := rfl
@[simp] theorem State.countEvictLru_cntTimeout : (s.countEvictLru).cntTimeout = s.cntTimeout := rfl
@[simp] theorem State.countEvictLru_cntDrop : (s.countEvictLru).cntDrop = s.cntDrop := rfl
@[simp] theorem State.countEvictLru_lastErr : (s.countEvictLru).lastErr = s.lastErr := rfl
@[simp] theorem State.countEvictLru_txq : (s.countEvictLru).txq = s.txq := rfl
@[simp] theorem State.countEvictLru_cfg : (s.countEvictLru).cfg = s.cfg := rfl
@[simp] theorem State.countEvictLru_inputs : (s.countEvictLru).inputs = s.inputs := rfl
@[simp] theorem State.countEvictLru_out : (s.countEvictLru).out = s.out := rfl
@[simp] theorem State.countEvictLru_sendWait : (s.countEvictLru).sendWait = s.sendWait := rfl
@[simp] theorem State.countEvictLru_lastNow : (s.countEvictLru).lastNow = s.lastNow := rfl

-- the corruption counter (R233, R237)
@[simp] theorem State.countEvictCorrupt_initDone : (s.countEvictCorrupt).initDone = s.initDone := rfl
@[simp] theorem State.countEvictCorrupt_localLl : (s.countEvictCorrupt).localLl = s.localLl := rfl
@[simp] theorem State.countEvictCorrupt_isBr : (s.countEvictCorrupt).isBr = s.isBr := rfl
@[simp] theorem State.countEvictCorrupt_hcEn : (s.countEvictCorrupt).hcEn = s.hcEn := rfl
@[simp] theorem State.countEvictCorrupt_tagCtr : (s.countEvictCorrupt).tagCtr = s.tagCtr := rfl
@[simp] theorem State.countEvictCorrupt_ctx : (s.countEvictCorrupt).ctx = s.ctx := rfl
@[simp] theorem State.countEvictCorrupt_slots : (s.countEvictCorrupt).slots = s.slots := rfl
@[simp] theorem State.countEvictCorrupt_lru : (s.countEvictCorrupt).lru = s.lru := rfl
@[simp] theorem State.countEvictCorrupt_reg : (s.countEvictCorrupt).reg = s.reg := rfl
@[simp] theorem State.countEvictCorrupt_cntEvictLru : (s.countEvictCorrupt).cntEvictLru = s.cntEvictLru := rfl
@[simp] theorem State.countEvictCorrupt_cntEvictCorrupt : (s.countEvictCorrupt).cntEvictCorrupt = s.cntEvictCorrupt + 1 := rfl
@[simp] theorem State.countEvictCorrupt_cntTimeout : (s.countEvictCorrupt).cntTimeout = s.cntTimeout := rfl
@[simp] theorem State.countEvictCorrupt_cntDrop : (s.countEvictCorrupt).cntDrop = s.cntDrop := rfl
@[simp] theorem State.countEvictCorrupt_lastErr : (s.countEvictCorrupt).lastErr = s.lastErr := rfl
@[simp] theorem State.countEvictCorrupt_txq : (s.countEvictCorrupt).txq = s.txq := rfl
@[simp] theorem State.countEvictCorrupt_cfg : (s.countEvictCorrupt).cfg = s.cfg := rfl
@[simp] theorem State.countEvictCorrupt_inputs : (s.countEvictCorrupt).inputs = s.inputs := rfl
@[simp] theorem State.countEvictCorrupt_out : (s.countEvictCorrupt).out = s.out := rfl
@[simp] theorem State.countEvictCorrupt_sendWait : (s.countEvictCorrupt).sendWait = s.sendWait := rfl
@[simp] theorem State.countEvictCorrupt_lastNow : (s.countEvictCorrupt).lastNow = s.lastNow := rfl

-- the timeout counter (R242)
@[simp] theorem State.countTimeout_initDone : (s.countTimeout).initDone = s.initDone := rfl
@[simp] theorem State.countTimeout_localLl : (s.countTimeout).localLl = s.localLl := rfl
@[simp] theorem State.countTimeout_isBr : (s.countTimeout).isBr = s.isBr := rfl
@[simp] theorem State.countTimeout_hcEn : (s.countTimeout).hcEn = s.hcEn := rfl
@[simp] theorem State.countTimeout_tagCtr : (s.countTimeout).tagCtr = s.tagCtr := rfl
@[simp] theorem State.countTimeout_ctx : (s.countTimeout).ctx = s.ctx := rfl
@[simp] theorem State.countTimeout_slots : (s.countTimeout).slots = s.slots := rfl
@[simp] theorem State.countTimeout_lru : (s.countTimeout).lru = s.lru := rfl
@[simp] theorem State.countTimeout_reg : (s.countTimeout).reg = s.reg := rfl
@[simp] theorem State.countTimeout_cntEvictLru : (s.countTimeout).cntEvictLru = s.cntEvictLru := rfl
@[simp] theorem State.countTimeout_cntEvictCorrupt : (s.countTimeout).cntEvictCorrupt = s.cntEvictCorrupt := rfl
@[simp] theorem State.countTimeout_cntTimeout : (s.countTimeout).cntTimeout = s.cntTimeout + 1 := rfl
@[simp] theorem State.countTimeout_cntDrop : (s.countTimeout).cntDrop = s.cntDrop := rfl
@[simp] theorem State.countTimeout_lastErr : (s.countTimeout).lastErr = s.lastErr := rfl
@[simp] theorem State.countTimeout_txq : (s.countTimeout).txq = s.txq := rfl
@[simp] theorem State.countTimeout_cfg : (s.countTimeout).cfg = s.cfg := rfl
@[simp] theorem State.countTimeout_inputs : (s.countTimeout).inputs = s.inputs := rfl
@[simp] theorem State.countTimeout_out : (s.countTimeout).out = s.out := rfl
@[simp] theorem State.countTimeout_sendWait : (s.countTimeout).sendWait = s.sendWait := rfl
@[simp] theorem State.countTimeout_lastNow : (s.countTimeout).lastNow = s.lastNow := rfl

-- an input placed
@[simp] theorem State.withTxn_initDone (t : Txn) : (s.withTxn t).initDone = s.initDone := rfl
@[simp] theorem State.withTxn_localLl (t : Txn) : (s.withTxn t).localLl = s.localLl := rfl
@[simp] theorem State.withTxn_isBr (t : Txn) : (s.withTxn t).isBr = s.isBr := rfl
@[simp] theorem State.withTxn_hcEn (t : Txn) : (s.withTxn t).hcEn = s.hcEn := rfl
@[simp] theorem State.withTxn_tagCtr (t : Txn) : (s.withTxn t).tagCtr = s.tagCtr := rfl
@[simp] theorem State.withTxn_ctx (t : Txn) : (s.withTxn t).ctx = s.ctx := rfl
@[simp] theorem State.withTxn_slots (t : Txn) : (s.withTxn t).slots = s.slots := rfl
@[simp] theorem State.withTxn_lru (t : Txn) : (s.withTxn t).lru = s.lru := rfl
@[simp] theorem State.withTxn_reg (t : Txn) : (s.withTxn t).reg = s.reg := rfl
@[simp] theorem State.withTxn_cntEvictLru (t : Txn) : (s.withTxn t).cntEvictLru = s.cntEvictLru := rfl
@[simp] theorem State.withTxn_cntEvictCorrupt (t : Txn) : (s.withTxn t).cntEvictCorrupt = s.cntEvictCorrupt := rfl
@[simp] theorem State.withTxn_cntTimeout (t : Txn) : (s.withTxn t).cntTimeout = s.cntTimeout := rfl
@[simp] theorem State.withTxn_cntDrop (t : Txn) : (s.withTxn t).cntDrop = s.cntDrop := rfl
@[simp] theorem State.withTxn_lastErr (t : Txn) : (s.withTxn t).lastErr = s.lastErr := rfl
@[simp] theorem State.withTxn_txq (t : Txn) : (s.withTxn t).txq = s.txq := rfl
@[simp] theorem State.withTxn_cfg (t : Txn) : (s.withTxn t).cfg = s.cfg := rfl
@[simp] theorem State.withTxn_inputs (t : Txn) : (s.withTxn t).inputs = .txn t :: s.inputs := rfl
@[simp] theorem State.withTxn_out (t : Txn) : (s.withTxn t).out = s.out := rfl
@[simp] theorem State.withTxn_sendWait (t : Txn) : (s.withTxn t).sendWait = s.sendWait := rfl
@[simp] theorem State.withTxn_lastNow (t : Txn) : (s.withTxn t).lastNow = s.lastNow := rfl

end Sys2Proof.Machine
end

