-- ==== Sys2Proof/Laws/Ops.lean ====
section
/-! SUPPORT. For each shared operation, what it can do, said once: the slot pool, the preconditions of an arrival,
REASSEMBLE, the registry search, and step. Proofs cite these and do not unfold the operations. -/

namespace Sys2Proof.Machine

-- ## The slot pool

theorem State.slotAt_eq (s : State) (i : Nat) : s.slotAt i = (s.slots[i]?).getD none := rfl

/-- The pool after `FREE` (R233). -/
theorem State.slotAt_freeSlot (s : State) (i j : Nat) :
    (s.freeSlot i).slotAt j = if j = i then none else s.slotAt j := by
  simp only [State.slotAt, State.freeSlot_slots, List.getElem?_set]
  by_cases h : i = j
  · subst h; by_cases hl : i < s.slots.length <;> simp [hl]
  · rw [if_neg h, if_neg (Ne.symm h)]

/-- The pool after a slot is written (R235, R238). -/
theorem State.slotAt_putSlot (s : State) (i j : Nat) (sl : Slot) (h : i < s.slots.length) :
    (s.putSlot i sl).slotAt j = if j = i then some sl else s.slotAt j := by
  simp only [State.slotAt, State.putSlot_slots, List.getElem?_set]
  by_cases hj : i = j
  · subst hj; simp [h]
  · rw [if_neg hj, if_neg (Ne.symm hj)]

/-- A slot found lies in the pool from the index the search began at, and has the key. -/
theorem findSlot_some (src : LLAddr) (tag : BitVec 16) (l : List (Option Slot)) (k i : Nat) (sl : Slot)
    (h : findSlot src tag k l = some (i, sl)) :
    k ≤ i ∧ l[i - k]? = some (some sl) ∧ sl.srcLl = src ∧ sl.tag = tag := by
  induction l generalizing k with
  | nil => cases h
  | cons o l ih =>
    cases o with
    | none =>
      obtain ⟨h1, h2, h3⟩ := ih (k + 1) h
      refine ⟨by omega, ?_, h3⟩
      rw [show i - k = (i - (k + 1)) + 1 by omega, List.getElem?_cons_succ]; exact h2
    | some a =>
      simp only [findSlot] at h
      split at h
      · next hk => obtain ⟨rfl, rfl⟩ := Prod.mk.inj (Option.some.inj h); simp [hk]
      · obtain ⟨h1, h2, h3⟩ := ih (k + 1) h
        refine ⟨by omega, ?_, h3⟩
        rw [show i - k = (i - (k + 1)) + 1 by omega, List.getElem?_cons_succ]; exact h2

/-- No slot is found exactly when none has the key. -/
theorem findSlot_none (src : LLAddr) (tag : BitVec 16) (l : List (Option Slot)) (k : Nat) :
    findSlot src tag k l = none ↔ ∀ sl, some sl ∈ l → ¬(sl.srcLl = src ∧ sl.tag = tag) := by
  induction l generalizing k with
  | nil => simp [findSlot]
  | cons o l ih =>
    cases o with
    | none => simp [findSlot, ih]
    | some a =>
      simp only [findSlot]
      split
      · next hk => simp only [reduceCtorEq, false_iff]; intro h; exact h a (by simp) hk
      · next hk => simp [ih]; intro _ h1 h2; exact hk ⟨h1, h2⟩

/-- What `MATCH` finds (R234): the index and contents of a FILLING slot with the key. -/
theorem State.matchSlot_some (s : State) (src : LLAddr) (tag : BitVec 16) (i : Nat) (sl : Slot)
    (h : s.matchSlot src tag = some (i, sl)) :
    i < s.slots.length ∧ s.slotAt i = some sl ∧ sl.srcLl = src ∧ sl.tag = tag := by
  obtain ⟨_, h2, h3⟩ := findSlot_some src tag s.slots 0 i sl h
  have h2' : s.slots[i]? = some (some sl) := by simpa using h2
  exact ⟨(List.getElem?_eq_some_iff.1 h2').1, by simp [State.slotAt, h2'], h3⟩

/-- `MATCH` finds nothing exactly when no FILLING slot has the key (R234). -/
theorem State.matchSlot_none (s : State) (src : LLAddr) (tag : BitVec 16) :
    s.matchSlot src tag = none ↔ ∀ i sl, s.slotAt i = some sl → ¬(sl.srcLl = src ∧ sl.tag = tag) := by
  refine (findSlot_none src tag s.slots 0).trans ⟨fun h i sl hi => h sl ?_, fun h sl hm => ?_⟩
  · simp only [State.slotAt] at hi
    cases hg : s.slots[i]? with
    | none => simp [hg] at hi
    | some o => simp [hg] at hi; subst hi; exact List.mem_of_getElem? hg
  · obtain ⟨i, hi⟩ := List.mem_iff_getElem?.1 hm
    exact h i sl (by simp [State.slotAt, hi])

/-- An EMPTY slot found is the lowest one. -/
theorem findEmpty_some (l : List (Option Slot)) (k i : Nat) (h : findEmpty k l = some i) :
    k ≤ i ∧ l[i - k]? = some none ∧ ∀ j, j < i - k → l[j]? ≠ some none := by
  induction l generalizing k with
  | nil => cases h
  | cons o l ih =>
    cases o with
    | none => obtain rfl := Option.some.inj h; simp
    | some a =>
      obtain ⟨h1, h2, h3⟩ := ih (k + 1) h
      refine ⟨by omega, ?_, fun j hj => ?_⟩
      · rw [show i - k = (i - (k + 1)) + 1 by omega, List.getElem?_cons_succ]; exact h2
      · cases j with
        | zero => simp
        | succ j => rw [List.getElem?_cons_succ]; exact h3 j (by omega)

/-- No EMPTY slot is found exactly when every slot is FILLING. -/
theorem findEmpty_none (l : List (Option Slot)) (k : Nat) : findEmpty k l = none ↔ none ∉ l := by
  induction l generalizing k with
  | nil => simp [findEmpty]
  | cons o l ih => cases o <;> simp [findEmpty, ih]

/-- The slot a new key takes (R235, R236): an EMPTY one, the state unchanged, or the last of LRU, freed and counted. -/
theorem State.chooseSlot_cases (s : State) (i : Nat) (s' : State) (h : s.chooseSlot = some (i, s')) :
    (findEmpty 0 s.slots = some i ∧ s' = s) ∨
    (findEmpty 0 s.slots = none ∧ s.lru.getLast? = some i ∧ s' = (s.freeSlot i).countEvictLru) := by
  simp only [State.chooseSlot] at h
  split at h
  · next j hj => obtain ⟨rfl, rfl⟩ := Prod.mk.inj (Option.some.inj h); exact .inl ⟨hj, rfl⟩
  · next hn =>
    split at h
    · next v hv => obtain ⟨rfl, rfl⟩ := Prod.mk.inj (Option.some.inj h); exact .inr ⟨hn, hv, rfl⟩
    · cases h

/-- No slot can be chosen only when none is EMPTY and LRU is empty. -/
theorem State.chooseSlot_none (s : State) : s.chooseSlot = none ↔ findEmpty 0 s.slots = none ∧ s.lru = [] := by
  simp only [State.chooseSlot]
  split
  · next j hj => simp [hj]
  · next hn =>
    split
    · next v hv => simp only [reduceCtorEq, false_iff]; rintro ⟨-, h⟩; simp [h] at hv
    · next hv => simpa [hn] using hv

-- ## The registry search (R272)

/-- The free registry entry found is the lowest one. -/
theorem findFreeReg_some {H : Type} (l : List (Option H)) (k i : Nat) (h : findFreeReg k l = some i) :
    k ≤ i ∧ l[i - k]? = some none ∧ ∀ j, j < i - k → l[j]? ≠ some none := by
  induction l generalizing k with
  | nil => cases h
  | cons o l ih =>
    cases o with
    | none => obtain rfl := Option.some.inj h; simp
    | some a =>
      obtain ⟨h1, h2, h3⟩ := ih (k + 1) h
      refine ⟨by omega, ?_, fun j hj => ?_⟩
      · rw [show i - k = (i - (k + 1)) + 1 by omega, List.getElem?_cons_succ]; exact h2
      · cases j with
        | zero => simp
        | succ j => rw [List.getElem?_cons_succ]; exact h3 j (by omega)

/-- No free registry entry is found exactly when every entry is valid. -/
theorem findFreeReg_none {H : Type} (l : List (Option H)) (k : Nat) : findFreeReg k l = none ↔ none ∉ l := by
  induction l generalizing k with
  | nil => simp [findFreeReg]
  | cons o l ih => cases o <;> simp [findFreeReg, ih]

/-- Everything a registration can do (R272). -/
theorem registerIn_cases {H : Type} [DecidableEq H] (h : H) (r : List (Option H)) :
    (some h ∈ r ∧ registerIn h r = .error .regDup) ∨
    (some h ∉ r ∧ none ∉ r ∧ registerIn h r = .error .regFull) ∨
    (some h ∉ r ∧ ∃ j, r[j]? = some none ∧ (∀ k, k < j → r[k]? ≠ some none) ∧
      registerIn h r = .ok (r.set j (some h))) := by
  by_cases hm : some h ∈ r
  · exact .inl ⟨hm, by simp [registerIn, hm]⟩
  · cases hf : findFreeReg 0 r with
    | none => exact .inr (.inl ⟨hm, (findFreeReg_none r 0).1 hf, by simp [registerIn, hm, hf]⟩)
    | some j =>
      obtain ⟨-, h2, h3⟩ := findFreeReg_some r 0 j hf
      exact .inr (.inr ⟨hm, j, by simpa using h2, by simpa using h3, by simp [registerIn, hm, hf]⟩)

/-- A registration brings in no handle but its own. -/
theorem mem_registerIn {H : Type} [DecidableEq H] (h g : H) (r r' : List (Option H)) (hr : registerIn h r = .ok r')
    (hg : some g ∈ r') : g = h ∨ some g ∈ r := by
  rcases registerIn_cases h r with ⟨-, e⟩ | ⟨-, -, e⟩ | ⟨-, j, -, -, e⟩ <;> rw [e] at hr <;> cases hr
  rcases List.mem_or_eq_of_mem_set hg with hm | hm
  · exact .inr hm
  · exact .inl (Option.some.inj hm)

theorem findFreeReg_map {H K : Type} (f : H → K) (r : List (Option H)) (j : Nat) :
    findFreeReg j (r.map (Option.map f)) = findFreeReg j r := by
  induction r generalizing j with
  | nil => rfl
  | cons o r ih => cases o <;> simp [findFreeReg, ih]

/-- HANDLE is used by its equality only (R6, decision D35): an injective renaming of the handles, from any such type to
any other, commutes with a registration. -/
theorem registerIn_map {H K : Type} [DecidableEq H] [DecidableEq K] (f : H → K) (hf : Function.Injective f) (h : H)
    (r : List (Option H)) :
    registerIn (f h) (r.map (Option.map f)) = (registerIn h r).map (fun r' => r'.map (Option.map f)) := by
  have hm : some (f h) ∈ r.map (Option.map f) ↔ some h ∈ r := by
    simpa using List.mem_map_of_injective (Option.map_injective hf) (a := some h) (l := r)
  simp only [registerIn, hm, findFreeReg_map]
  split
  · rfl
  · split <;> simp [Except.map, List.map_set]

/-- The same renaming commutes with the list of consumers a delivery goes to. -/
theorem consumers_map {H K : Type} (f : H → K) (r : List (Option H)) :
    consumers (r.map (Option.map f)) = (consumers r).map f := by
  simp [consumers, List.filterMap_map, List.map_filterMap]

/-- A well-formed REGISTER keeps the registry within HANDLE. -/
theorem execRegister_isHandle (h : Handle) (s s' : State) (hw : (Instr.register h).WF s.cfg)
    (hr : ∀ g, some g ∈ s.reg → s.cfg.isHandle g = true) (he : execRegister h s = .next s') :
    ∀ g, some g ∈ s'.reg → s'.cfg.isHandle g = true := by
  simp only [execRegister] at he
  split at he
  · cases he; exact hr
  · split at he
    · cases he; exact hr
    · next r hreg =>
      cases he
      intro g hg
      rcases mem_registerIn h g s.reg r hreg hg with rfl | hm
      · exact hw
      · exact hr g hm

-- ## Arrivals and REASSEMBLE

/-- An input that carries the time answers next in one of two ways: ignored before INIT, or admitted (R268, R304). -/
theorem withTime_next (now : Time) (k : State → Result) (s s' : State) (h : withTime now k s = .next s') :
    (s.initDone = false ∧ s' = s) ∨
    (s.initDone = true ∧ s.lastNow ≤ now ∧ k { s with lastNow := now } = .next s') := by
  simp only [withTime] at h
  split at h
  · next hi => cases h; exact .inl ⟨by simpa using hi, rfl⟩
  · next hi =>
    split at h
    · cases h
    · next hn => exact .inr ⟨by simpa using hi, Nat.le_of_not_lt hn, h⟩

/-- A frame arrival answers next in one of two ways: ignored before INIT, or admitted (R265, R268, R304). -/
theorem withFrame_next (a : Arrival) (len : Nat) (k : State → Result) (s s' : State)
    (h : withFrame a len k s = .next s') :
    (s.initDone = false ∧ s' = s) ∨
    (s.initDone = true ∧ len ≤ s.cfg.linkMtu ∧ s.lastNow ≤ a.now ∧ k { s with lastNow := a.now } = .next s') := by
  simp only [withFrame] at h
  split at h
  · next hi => cases h; exact .inl ⟨by simpa using hi, rfl⟩
  · next hi =>
    split at h
    · cases h
    · next hl =>
      rcases withTime_next a.now k s s' h with ⟨h1, -⟩ | ⟨h1, h2, h3⟩
      · simp [h1] at hi
      · exact .inr ⟨h1, by omega, h2, h3⟩

/-- An admitted frame: what its arrival does is its class's work on the state with the time taken. -/
theorem withFrame_admitted (a : Arrival) (len : Nat) (k : State → Result) (s : State) (hi : s.initDone = true)
    (hl : len ≤ s.cfg.linkMtu) (hn : s.lastNow ≤ a.now) : withFrame a len k s = k { s with lastNow := a.now } := by
  simp only [withFrame, withTime, hi]
  rw [if_neg (by simp), if_neg (by omega), if_neg (by simp), if_neg (Nat.not_lt.2 hn)]

/-- Everything REASSEMBLE can do when it answers next (R241): three drops, or a store into the matching or a chosen
slot. -/
theorem reassemble_next (a : Arrival) (size : BitVec 11) (tag : BitVec 16) (off : Nat) (data : List Byte) (s s' : State)
    (h : reassemble a size tag off data s = .next s') :
    (size = 0 ∧ s' = s.drop .fragZeroSize) ∨
    (size ≠ 0 ∧ size.toNat < off + data.length ∧ s' = (s.failSlot (s.matchSlot a.srcLl tag)).drop .fragOverflow) ∨
    (size ≠ 0 ∧ off + data.length ≤ size.toNat ∧ ∃ i sl, s.matchSlot a.srcLl tag = some (i, sl) ∧ sl.size ≠ size ∧
      s' = ((s.freeSlot i).countEvictCorrupt).drop .fragSizeMismatch) ∨
    (size ≠ 0 ∧ off + data.length ≤ size.toNat ∧ ∃ i sl, s.matchSlot a.srcLl tag = some (i, sl) ∧ sl.size = size ∧
      s' = s.storeFragment i sl off data a.dstLl) ∨
    (size ≠ 0 ∧ off + data.length ≤ size.toNat ∧ s.matchSlot a.srcLl tag = none ∧ ∃ i s1, s.chooseSlot = some (i, s1) ∧
      s' = s1.storeFragment i (freshSlot a size tag) off data a.dstLl) := by
  simp only [reassemble] at h
  split at h
  · next h0 => cases h; exact .inl ⟨h0, rfl⟩
  · next h0 =>
    split at h
    · next h1 => cases h; exact .inr (.inl ⟨h0, h1, rfl⟩)
    · next h1 =>
      split at h
      · next i sl hm =>
        split at h
        · next hs => cases h; exact .inr (.inr (.inl ⟨h0, by omega, i, sl, hm, hs, rfl⟩))
        · next hs => cases h; exact .inr (.inr (.inr (.inl ⟨h0, by omega, i, sl, hm, not_not.1 hs, rfl⟩)))
      · next hm =>
        split at h
        · next i s1 hc => cases h; exact .inr (.inr (.inr (.inr ⟨h0, by omega, hm, i, s1, hc, rfl⟩)))
        · cases h

/-- A store ends in one of two ways (R240): the datagram is still incomplete, or it is complete, the slot freed and the
datagram processed. -/
theorem State.storeFragment_cases (s : State) (i : Nat) (sl : Slot) (off : Nat) (data : List Byte) (dstLl : LLAddr) :
    let sl' : Slot := { sl with data := Memory.writeRun sl.data off data }
    (Memory.readRun sl'.data 0 sl.size.toNat = none ∧ s.storeFragment i sl off data dstLl = s.putSlot i sl') ∨
    (∃ dg, Memory.readRun sl'.data 0 sl.size.toNat = some dg ∧
      s.storeFragment i sl off data dstLl = ((s.putSlot i sl').freeSlot i).processDatagram dg sl.srcLl dstLl) := by
  intro sl'
  simp only [State.storeFragment]
  split
  · next h => exact .inl ⟨h, rfl⟩
  · next dg h => exact .inr ⟨dg, h, rfl⟩

/-- Processing a datagram is a delivery or a drop (R266). -/
theorem State.processDatagram_cases (s : State) (dg : List Byte) (srcLl dstLl : LLAddr) :
    (∃ p, s.processDatagram dg srcLl dstLl = s.deliver p) ∨ (∃ e, s.processDatagram dg srcLl dstLl = s.drop e) := by
  simp only [State.processDatagram]
  split
  · simp only [State.deliverUncompressed]; split
    · exact .inr ⟨_, rfl⟩
    · exact .inl ⟨_, rfl⟩
  · cases decompress s.cfg s.ctx dg srcLl dstLl with
    | ok p => exact .inl ⟨p, rfl⟩
    | error e => exact .inr ⟨e, rfl⟩
  all_goals exact .inr ⟨_, rfl⟩

-- ## The transmit side

/-- SEND's start step ends in one of three ways (R263). -/
theorem State.startSend_cases (s : State) (destLl : LLAddr) (p : List Byte) :
    let d := s.datagramOf destLl p
    (d.length ≤ s.cfg.linkMtu ∧ s.startSend destLl p = { s with txq := .busy ⟨destLl, d, 0, 0, false, false⟩ }) ∨
    (s.cfg.linkMtu < d.length ∧ maxDgram < d.length ∧ s.startSend destLl p = s.ret 0x03 .oversized) ∨
    (s.cfg.linkMtu < d.length ∧ d.length ≤ maxDgram ∧ s.startSend destLl p =
      { s with tagCtr := s.tagCtr + 1, txq := .busy ⟨destLl, d, s.tagCtr, 0, true, false⟩ }) := by
  intro d
  simp only [State.startSend]
  split
  · next h => exact .inl ⟨h, rfl⟩
  · next h =>
    split
    · next h2 => exact .inr (.inl ⟨Nat.lt_of_not_le h, h2, rfl⟩)
    · next h2 => exact .inr (.inr ⟨Nat.lt_of_not_le h, Nat.le_of_not_lt h2, rfl⟩)

/-- The transmit side's step answers next, in one of four ways (R263, R264). -/
theorem txStep_cases (s : State) :
    (∃ f, s.txq = .busy f ∧ f.awaiting = true ∧ txStep s = .next s) ∨
    (∃ f, s.txq = .busy f ∧ f.awaiting = false ∧
      txStep s = .next ({ s with txq := .busy { f with awaiting := true } }.emit (.txf f.destLl (sendFrame s.cfg f).1))) ∨
    (s.txq = .idle ∧ s.sendWait = [] ∧ txStep s = .next s) ∨
    (∃ d p rest, s.txq = .idle ∧ s.sendWait = (d, p) :: rest ∧
      txStep s = .next ({ s with sendWait := rest }.startSend d p)) := by
  simp only [txStep]
  cases hq : s.txq with
  | idle =>
    cases hw : s.sendWait with
    | nil => simp
    | cons x rest => obtain ⟨d, p⟩ := x; simp
  | busy f => cases ha : f.awaiting <;> simp [ha]

/-- An answer that answers next ends the SEND or moves its cursor (R264). -/
theorem txAnswer_next (ok : Bool) (s s' : State) (h : txAnswer ok s = .next s') :
    ∃ f, s.txq = .busy f ∧ f.awaiting = true ∧
      ((ok = false ∧ s' = { s with txq := .idle }.ret 0x03 .transceiver) ∨
       (ok = true ∧ f.nextOff + (sendFrame s.cfg f).2 = f.datagram.length ∧ s' = { s with txq := .idle }.ret 0x03 .ok) ∨
       (ok = true ∧ f.nextOff + (sendFrame s.cfg f).2 ≠ f.datagram.length ∧
         s' = { s with txq := .busy { f with nextOff := f.nextOff + (sendFrame s.cfg f).2, awaiting := false } })) := by
  simp only [txAnswer] at h
  split at h
  · cases h
  · next f hf =>
    split at h
    · cases h
    · next ha =>
      refine ⟨f, hf, by simpa using ha, ?_⟩
      split at h
      · next ho => cases h; exact .inl ⟨by simpa using ho, rfl⟩
      · next ho =>
        split at h
        · next he => cases h; exact .inr (.inl ⟨by simpa using ho, he, rfl⟩)
        · next he => cases h; exact .inr (.inr ⟨by simpa using ho, he, rfl⟩)

-- ## Step

/-- Step by the input it takes (R68, R307). -/
theorem step_nil (s : State) (h : s.inputs = []) : step s = .next s := by
  simp [step, State.nextInput, h]

theorem step_txn (s : State) (t : Txn) (rest : List Event) (h : s.inputs = .txn t :: rest) :
    step s = runTxn t { s with inputs := rest } := by
  simp [step, State.nextInput, h]

theorem step_tx (s : State) (rest : List Event) (h : s.inputs = .tx :: rest) :
    step s = txStep { s with inputs := rest } := by
  simp [step, State.nextInput, h]

theorem step_answer (s : State) (ok : Bool) (rest : List Event) (h : s.inputs = .answer ok :: rest) :
    step s = txAnswer ok { s with inputs := rest } := by
  simp [step, State.nextInput, h]

end Sys2Proof.Machine
end

