-- ==== Sys2Proof/Laws/PerInstr.lean ====
section
/-! SUPPORT. The family "the word an instruction encodes to is one its row of spec/opcode_table.json matches": the first
byte of the encoding under the row's mask is the row's match, and for a default row no other row of its format matches. -/

namespace Sys2Proof.Laws

/-- The first byte of a transaction: the operation code, the dispatch byte, or the NHC byte. -/
def leadByte : Txn → Byte
  | .op code _ => code
  | .frame bytes _ => byteAt bytes 0
  | .nhc bytes _ => byteAt bytes 0

/-- The match and mask of an instruction's row in the opcode table (R116); `none` for the two default rows. -/
def rowOf : Instr → Option (Byte × Byte)
  | .init _ _ => some (0x01, 0xFF)
  | .initRouter _ _ _ => some (0x02, 0xFF)
  | .send _ _ => some (0x03, 0xFF)
  | .setHc _ => some (0x04, 0xFF)
  | .register _ => some (0x05, 0xFF)
  | .ctxLookup _ => some (0x06, 0xFF)
  | .ctxInsert _ _ _ => some (0x07, 0xFF)
  | .ctxRemove _ => some (0x08, 0xFF)
  | .readStatus => some (0x09, 0xFF)
  | .rxFrame _ _ => some (0x0A, 0xFF)
  | .tick _ => some (0x0B, 0xFF)
  | .badOp _ => none
  | .ipv6Uncomp _ _ => some (0x41, 0xFF)
  | .iphc _ _ _ => some (0x60, 0xE0)
  | .frag1 _ _ _ _ _ => some (0xC0, 0xE0)
  | .fragN _ _ _ _ _ _ => some (0xE0, 0xE0)
  | .unknown _ _ _ => none
  | .nhcUdp _ _ _ => some (0xF0, 0xFC)

/-- The rows of one format (R116): a default row is taken when none of these matches. -/
def rowsOfFormat : Txn → List (Byte × Byte)
  | .op _ _ => [(0x01, 0xFF), (0x02, 0xFF), (0x03, 0xFF), (0x04, 0xFF), (0x05, 0xFF), (0x06, 0xFF), (0x07, 0xFF),
      (0x08, 0xFF), (0x09, 0xFF), (0x0A, 0xFF), (0x0B, 0xFF)]
  | .frame _ _ => [(0x41, 0xFF), (0x60, 0xE0), (0xC0, 0xE0), (0xE0, 0xE0)]
  | .nhc _ _ => [(0xF0, 0xFC)]

/-- A byte under a row's mask is the row's match. -/
def rowMatches (b : Byte) (r : Byte × Byte) : Bool := b &&& r.2 == r.1

/-- Under a full mask only the match itself matches. -/
theorem rowMatches_exact (b k : Byte) : rowMatches b (k, 0xFF) = decide (b = k) := by
  have h : b &&& 0xFF = b := BitVec.and_allOnes
  simp only [rowMatches, h]
  rfl

/-- Under the mask `0xE0` a match fixes the three top bits. -/
theorem rowMatches_top (b k : Byte) (h : rowMatches b (k, 0xE0) = true) : b.extractLsb' 5 3 = k.extractLsb' 5 3 := by
  simp only [rowMatches, beq_iff_eq] at h
  rw [← h, BitVec.extractLsb'_and]
  exact (BitVec.and_allOnes).symm

namespace EncodingMatchesItsRow

/-- The encoding of a well-formed instruction is a word of its row. -/
def Statement (i : Instr) : Prop :=
  ∀ c : Config, i.WF c →
    match rowOf i with
    | some r => rowMatches (leadByte (encode i)) r = true
    | none => ∀ r ∈ rowsOfFormat (encode i), rowMatches (leadByte (encode i)) r = false

/-- An instruction with a row of its own. -/
theorem of_row (i : Instr) (r : Byte × Byte) (hr : rowOf i = some r) (h : rowMatches (leadByte (encode i)) r = true) :
    Statement i := by
  intro c _
  rw [hr]
  exact h

/-- An instruction whose row fixes the whole byte. -/
theorem of_code (i : Instr) (b : Byte) (hr : rowOf i = some (b, 0xFF)) (h : leadByte (encode i) = b) : Statement i := by
  refine of_row i _ hr ?_
  rw [h]
  simp only [rowMatches, beq_iff_eq]
  exact BitVec.and_allOnes

/-- An instruction of a default row. -/
theorem of_default (i : Instr) (hr : rowOf i = none)
    (h : ∀ c : Config, i.WF c → ∀ r ∈ rowsOfFormat (encode i), rowMatches (leadByte (encode i)) r = false) :
    Statement i := by
  intro c hw
  rw [hr]
  exact h c hw

theorem init (localLl : LLAddr) (isBr : Bool) : Statement (.init localLl isBr) := of_code _ _ rfl rfl
theorem initRouter (pfx : BitVec 128) (len : Byte) (localLl : LLAddr) : Statement (.initRouter pfx len localLl) :=
  of_code _ _ rfl rfl
theorem send (destLl : LLAddr) (packet : List Byte) : Statement (.send destLl packet) := of_code _ _ rfl rfl
theorem setHc (enable : Bool) : Statement (.setHc enable) := of_code _ _ rfl rfl
theorem register (handle : Handle) : Statement (.register handle) := of_code _ _ rfl rfl
theorem ctxLookup (id : Byte) : Statement (.ctxLookup id) := of_code _ _ rfl rfl
theorem ctxInsert (id : Byte) (pfx : BitVec 128) (len : Byte) : Statement (.ctxInsert id pfx len) := of_code _ _ rfl rfl
theorem ctxRemove (id : Byte) : Statement (.ctxRemove id) := of_code _ _ rfl rfl
theorem readStatus : Statement .readStatus := of_code _ _ rfl rfl
theorem rxFrame (frame : List Byte) (a : Arrival) : Statement (.rxFrame frame a) := of_code _ _ rfl rfl
theorem tick (now : Time) : Statement (.tick now) := of_code _ _ rfl rfl

theorem badOp (code : Byte) : Statement (.badOp code) := by
  refine of_default _ rfl fun c h r hr => ?_
  have h' : Byte.isOpCode code = false := by simpa [Instr.WF, Instr.wellFormed] using h
  have key : ∀ k, Byte.isOpCode k = true → rowMatches code (k, 0xFF) = false := by
    intro k hk
    rw [rowMatches_exact, decide_eq_false_iff_not]
    rintro rfl
    simp [h'] at hk
  simp only [encode, rowsOfFormat, List.mem_cons, List.not_mem_nil, or_false] at hr
  rcases hr with rfl | rfl | rfl | rfl | rfl | rfl | rfl | rfl | rfl | rfl | rfl <;> exact key _ rfl

theorem ipv6Uncomp (a : Arrival) (packet : List Byte) : Statement (.ipv6Uncomp a packet) := of_code _ _ rfl rfl

theorem iphc (a : Arrival) (base : IphcBase) (rest : List Byte) : Statement (.iphc a base rest) := by
  have key : ∀ (tf hlim : BitVec 2) (nh : Bool),
      rowMatches (0b011#3 ++ tf ++ BitVec.ofBool nh ++ hlim) (0x60, 0xE0) = true := by decide
  exact of_row _ _ rfl (key base.tf base.hlim base.nh)

theorem frag1 (a : Arrival) (x : BitVec 2) (size : BitVec 11) (tag : BitVec 16) (payload : List Byte) :
    Statement (.frag1 a x size tag payload) := by
  have key : ∀ (x : BitVec 2) (hi : BitVec 3), rowMatches (frag1Pattern ++ x ++ hi) (0xC0, 0xE0) = true := by decide
  exact of_row _ _ rfl (key x (size.extractLsb' 8 3))

theorem fragN (a : Arrival) (x : BitVec 2) (size : BitVec 11) (tag : BitVec 16) (offset8 : Byte) (payload : List Byte) :
    Statement (.fragN a x size tag offset8 payload) := by
  have key : ∀ (x : BitVec 2) (hi : BitVec 3), rowMatches (fragNPattern ++ x ++ hi) (0xE0, 0xE0) = true := by decide
  exact of_row _ _ rfl (key x (size.extractLsb' 8 3))

theorem unknown (a : Arrival) (first : Byte) (rest : List Byte) : Statement (.unknown a first rest) := by
  refine of_default _ rfl fun c h r hr => ?_
  have h' : Byte.dispatched first = false := by
    simp only [Instr.WF, Instr.wellFormed, Bool.and_eq_true, Bool.not_eq_true'] at h
    exact h.1
  cases hm : rowMatches (leadByte (encode (.unknown a first rest))) r with
  | false => rfl
  | true =>
    have hm' : rowMatches first r = true := hm
    simp only [encode, rowsOfFormat, List.mem_cons, List.not_mem_nil, or_false] at hr
    simp only [Byte.dispatched] at h'
    rcases hr with rfl | rfl | rfl | rfl
    · rw [rowMatches_exact, decide_eq_true_eq] at hm'; simp [hm'] at h'
    all_goals simp [rowMatches_top _ _ hm'] at h'

theorem nhcUdp (outer : NhcOuter) (p : BitVec 2) (rest : List Byte) : Statement (.nhcUdp outer p rest) := by
  have key : ∀ p : BitVec 2, rowMatches (udpNhcByte p) (0xF0, 0xFC) = true := by decide
  exact of_row _ _ rfl (key p)

end EncodingMatchesItsRow

end Sys2Proof.Laws
end

