-- ==== Sys2Proof/Tests/Slice0.lean ====
section
/-! SUPPORT. The smoke test of WellFormed, the decoding of words written out from the spec's encodings, one-step tests of
every instruction, and a witness for the hypotheses of every statement. Expected results are from
spec/95_test_vectors.md or worked by hand from the rule a comment names. -/

namespace Sys2Proof.Tests

open Sys2Proof Sys2Proof.Machine

-- ## Small states

/-- Link addresses of the test vectors. -/
def L1 : LLAddr := 0x0212740100010101
def L2 : LLAddr := 0x0212740200020202
def prefixP : BitVec 128 := 0x20010db8000000010000000000000000

/-- A field of the next state, or none where the outcome is no next state. -/
def after {α : Type} (f : State → α) : Result → Option α
  | .next s => some (f s)
  | .fault _ => none
  | .refused _ => none

/-- The block after INIT. -/
def up : State := { State.reset with initDone := true, localLl := L1, hcEn := true }

/-- A slot of 16 bytes with the first eight received. -/
def halfSlot : Slot := ⟨L1, 0x1234, 16, [(0, 0x41), (1, 1), (2, 2), (3, 3), (4, 4), (5, 5), (6, 6), (7, 7)], 5⟩

/-- A slot of another key with nothing received. -/
def otherSlot : Slot := ⟨L2, 7, 9, [], 5⟩

def oneSlot : State := { up with slots := [some halfSlot, none], lru := [0], lastNow := 5 }
def fullPool : State := { up with slots := [some halfSlot, some otherSlot], lru := [1, 0], lastNow := 5 }

/-- A link of 13 bytes, the smallest, and a datagram of 20 bytes. -/
def tight : Config := { Config.vectors with linkMtu := 13 }
def dgram : List Byte := 0x41 :: List.replicate 19 9
def sending : State := { up with cfg := tight, txq := .busy ⟨L2, dgram, 0x1234, 0, true, false⟩, inputs := [.tx] }
def awaitingLast : State :=
  { up with cfg := tight, txq := .busy ⟨L2, dgram, 0x1234, 16, true, true⟩, inputs := [.answer true] }

/-- The fragments of the tests: the second half of `halfSlot`, the first half again, one with a new key. -/
def arr (now : Time) : Arrival := ⟨L1, L2, now⟩
def secondHalf : Instr := .fragN (arr 6) 0 16 0x1234 1 (List.replicate 8 9)
def firstHalf : Instr := .frag1 (arr 6) 0 16 0x1234 [0x41, 1, 2, 3, 4, 5, 6, 7]
def newKey : Instr := .frag1 (arr 6) 0 20 0x77 [1, 2]

-- ## WellFormed: an ill-formed term for each check

theorem test_wf_rxFrame : (Instr.rxFrame (zeros 14) (arr 0)).wellFormed tight = false := by decide
theorem test_wf_badOp : (Instr.badOp 0x0B).wellFormed tight = false := by decide
theorem test_wf_badOp_low : (Instr.badOp 0x01).wellFormed tight = false := by decide
theorem test_wf_register : (Instr.register 2).wellFormed { tight with handles := some 2 } = false := by decide
theorem test_wf_register_fits : (Instr.register 1).wellFormed { tight with handles := some 2 } = true := by decide
theorem test_wf_ipv6Uncomp : (Instr.ipv6Uncomp (arr 0) (zeros 13)).wellFormed tight = false := by decide
theorem test_wf_iphc :
    (Instr.iphc (arr 0) ⟨0, false, 0, false, false, 0, false, false, 0⟩ (zeros 12)).wellFormed tight = false := by decide
theorem test_wf_frag1 : (Instr.frag1 (arr 0) 0 20 1 (zeros 10)).wellFormed tight = false := by decide
theorem test_wf_fragN : (Instr.fragN (arr 0) 0 20 1 1 (zeros 9)).wellFormed tight = false := by decide
theorem test_wf_unknown_dispatched : (Instr.unknown (arr 0) 0x7F []).wellFormed tight = false := by decide
theorem test_wf_unknown_long : (Instr.unknown (arr 0) 0x80 (zeros 13)).wellFormed tight = false := by decide
theorem test_wf_nhcUdp : (Instr.nhcUdp ⟨0, 0, 0, 0, 0⟩ 0 (zeros 2045)).wellFormed tight = false := by
  have h : (zeros 2045).length = 2045 := List.length_replicate
  simp only [Instr.wellFormed, h]; decide
theorem test_wf_fits : (Instr.rxFrame (zeros 13) (arr 0)).wellFormed tight = true := by decide

-- ## Decoding: a word of every row, written from R91, R93, R94, R96, R97, R107, R111

theorem test_decode_init : decode (.op 0x01 { localLl := L1, isBr := true }) = .ok (.init L1 true) := by decide
theorem test_decode_initRouter :
    decode (.op 0x02 { pfx := prefixP, len := 64, localLl := L1 }) = .ok (.initRouter prefixP 64 L1) := by decide
theorem test_decode_send : decode (.op 0x03 { destLl := L2, packet := [1] }) = .ok (.send L2 [1]) := by decide
theorem test_decode_setHc : decode (.op 0x04 { enable := true }) = .ok (.setHc true) := by decide
theorem test_decode_register : decode (.op 0x05 { handle := 7 }) = .ok (.register 7) := by decide
theorem test_decode_ctxLookup : decode (.op 0x06 { id := 3 }) = .ok (.ctxLookup 3) := by decide
theorem test_decode_ctxInsert :
    decode (.op 0x07 { id := 3, pfx := prefixP, len := 48 }) = .ok (.ctxInsert 3 prefixP 48) := by decide
theorem test_decode_ctxRemove : decode (.op 0x08 { id := 3 }) = .ok (.ctxRemove 3) := by decide
theorem test_decode_readStatus : decode (.op 0x09 {}) = .ok .readStatus := by decide
theorem test_decode_rxFrame :
    decode (.op 0x0A { frame := [0x80, 0], srcLl := L1, dstLl := L2, now := 6 }) = .ok (.rxFrame [0x80, 0] (arr 6)) := by
  decide
theorem test_decode_tick : decode (.op 0x0B { now := 65 }) = .ok (.tick 65) := by decide
theorem test_decode_badOp : decode (.op 0x0C {}) = .ok (.badOp 0x0C) := by decide
-- 01000001
theorem test_decode_ipv6Uncomp : decode (.frame [0b01000001, 0x60] (arr 0)) = .ok (.ipv6Uncomp (arr 0) [0x60]) := by decide
-- 011 TF=11 NH=0 HLIM=10, CID=0 SAC=0 SAM=11 M=0 DAC=1 DAM=11 (T10)
theorem test_decode_iphc :
    decode (.frame [0b01111010, 0b00110111, 0x3A] (arr 0)) =
      .ok (.iphc (arr 0) ⟨0b11, false, 0b10, false, false, 0b11, false, true, 0b11⟩ [0x3A]) := by decide
-- 011 TF=01 NH=1 HLIM=00, CID=1 SAC=1 SAM=01 M=1 DAC=0 DAM=10
theorem test_decode_iphc_other :
    decode (.frame [0b01101100, 0b11011010] (arr 0)) =
      .ok (.iphc (arr 0) ⟨0b01, true, 0b00, true, true, 0b01, true, false, 0b10⟩ []) := by decide
-- 110 00 001, 00101100: size 300; tag 0x1234 (T51)
theorem test_decode_frag1 :
    decode (.frame [0b11000001, 0b00101100, 0x12, 0x34, 0x7A] (arr 0)) = .ok (.frag1 (arr 0) 0 300 0x1234 [0x7A]) := by
  decide
-- 111 00 001, 00101100, tag, offset 0x0C (T51)
theorem test_decode_fragN :
    decode (.frame [0b11100001, 0b00101100, 0x12, 0x34, 0x0C, 0x8E] (arr 0)) =
      .ok (.fragN (arr 0) 0 300 0x1234 0x0C [0x8E]) := by decide
-- bits 4:3 are in no field (R93): 110 11 001
theorem test_decode_frag1_bits43 :
    decode (.frame [0b11011001, 0x2C, 0x12, 0x34] (arr 0)) = .ok (.frag1 (arr 0) 0b11 300 0x1234 []) := by decide
theorem test_decode_unknown : decode (.frame [0x42, 0] (arr 0)) = .ok (.unknown (arr 0) 0x42 [0]) := by decide
-- 11110 C=0 P=11 (R107)
theorem test_decode_nhcUdp :
    decode (.nhc [0b11110011, 0x12, 0xAB, 0xCD] ⟨0, 0, 64, 1, 2⟩) = .ok (.nhcUdp ⟨0, 0, 64, 1, 2⟩ 3 [0x12, 0xAB, 0xCD]) := by
  decide
-- C = 1 is refused (R107); a FRAG1 of three bytes is truncated (T7)
theorem test_decode_nhc_elided : decode (.nhc [0b11110111] ⟨0, 0, 0, 0, 0⟩) = .error .unsupportedNhc := by decide
theorem test_decode_truncated : decode (.frame [0xC1, 0x2C, 0x12] (arr 0)) = .error .truncated := by decide
theorem test_encode_frag1 : encode (.frag1 (arr 0) 0 300 0x1234 [0x7A]) = .frame [0xC1, 0x2C, 0x12, 0x34, 0x7A] (arr 0) := by
  decide
-- table words: bit 0 is the least significant bit of the first byte
theorem test_table_tick : decodeTableWord 8 0x0B = some (.tick 0) := by decide
theorem test_table_iphc :
    (decodeTableWord 16 0x377A).map (fun i => match i with | .iphc _ f _ => some (f.sam, f.dam, f.dac) | _ => none) =
      some (some (0b11, 0b11, true)) := by decide

-- ## One step of every instruction

-- R260
theorem test_init : after (fun s => (s.initDone, s.localLl, s.isBr, s.hcEn, s.out)) (exec (.init L1 false) State.reset) =
    some (true, L1, false, true, [.ret 0x01 .ok .none]) := by decide
theorem test_init_twice : after id (exec (.init L1 false) up) = none := by decide
-- T22
theorem test_initRouter : after (fun s => (ctxEntry s.ctx 0, s.isBr)) (exec (.initRouter prefixP 64 L1) State.reset) =
    some (some ⟨prefixP, 64⟩, true) := by decide
theorem test_initRouter_len : after (fun s => (s.initDone, s.out)) (exec (.initRouter prefixP 129 L1) State.reset) =
    some (false, [.ret 0x02 .badArg .none]) := by decide
-- R263 with HC_EN = 0: the uncompressed dispatch; R213, R214: 21 bytes on a link of 13 take a tag
theorem test_send_uncompressed : after (fun s => (s.txq, s.tagCtr)) (exec (.send L2 [1, 2]) { up with hcEn := false }) =
    some (.busy ⟨L2, [0x41, 1, 2], 0, 0, false, false⟩, 0x1234) := by decide
theorem test_send_fragmented :
    after (fun s => (s.txq, s.tagCtr)) (exec (.send L2 (zeros 20)) { up with cfg := tight, tagCtr := 0xFFFF }) =
      some (.busy ⟨L2, 0x41 :: zeros 20, 0xFFFF, 0, true, false⟩, 0) := by decide
-- R215: size 20 = 0x014, tag 0x1234, p1 = 8
theorem test_emit_first : after (fun s => s.out) (step sending) =
    some [.txf L2 [0xC0, 0x14, 0x12, 0x34, 0x41, 9, 9, 9, 9, 9, 9, 9]] := by decide
theorem test_emit_answer_last : after (fun s => (s.txq, s.out)) (step awaitingLast) =
    some (.idle, [.ret 0x03 .ok .none]) := by decide
-- R262
theorem test_setHc : after (fun s => (s.hcEn, s.out)) (exec (.setHc false) up) = some (false, [.ret 0x04 .ok .none]) := by
  decide
-- T70
theorem test_register : after (fun s => (s.reg, s.out)) (exec (.register 9) { up with reg := [some 7, none] }) =
    some ([some 7, some 9], [.ret 0x05 .ok .none]) := by decide
theorem test_register_dup : after (fun s => (s.reg, s.out)) (exec (.register 7) { up with reg := [some 7, some 9] }) =
    some ([some 7, some 9], [.ret 0x05 .regDup .none]) := by decide
-- T20 steps 1 and 2
theorem test_ctxLookup_zero : after (fun s => s.out) (exec (.ctxLookup 0) up) =
    some [.ret 0x06 .ok (.context (some ⟨0xfe800000000000000000000000000000, 64⟩))] := by decide
theorem test_ctxLookup_one : after (fun s => s.out) (exec (.ctxLookup 1) up) = some [.ret 0x06 .ok (.context none)] := by
  decide
-- T20 steps 6 and 11
theorem test_ctxInsert : after (fun s => ctxEntry s.ctx 15) (exec (.ctxInsert 15 prefixP 128) up) =
    some (some ⟨prefixP, 128⟩) := by decide
theorem test_ctxInsert_len : after (fun s => s.out) (exec (.ctxInsert 4 prefixP 129) up) =
    some [.ret 0x07 .badArg .none] := by decide
-- R142, T22
theorem test_ctxRemove :
    after (fun s => ctxEntry s.ctx 3) (exec (.ctxRemove 3) { up with ctx := setCtx up.ctx 3 (some ⟨prefixP, 64⟩) }) =
      some none := by decide
-- R267
theorem test_readStatus :
    after (fun s => s.out) (exec .readStatus { oneSlot with cntDrop := 3, lastErr := 2 }) = some [.ret 0x09 .ok (.record
      ⟨true, false, L1, 0x1234, 0, 0, 0, 3, 2, 1, 0, 0, false⟩)] := by decide
-- T75, and a truncated fragment header (T7)
theorem test_rxFrame_unknown : after (fun s => (s.cntDrop, s.lastErr)) (exec (.rxFrame [0x80, 0x00] (arr 6)) up) =
    some (1, 0x01) := by decide
theorem test_rxFrame_truncated : after (fun s => (s.cntDrop, s.lastErr)) (exec (.rxFrame [0xC1, 0x2C] (arr 6)) up) =
    some (1, 0x02) := by decide
-- T80: REASS_TIMEOUT = 60, t_created = 5
theorem test_tick_keeps : after (fun s => (s.cntTimeout, s.lru)) (exec (.tick 65) oneSlot) = some (0, [0]) := by decide
theorem test_tick_frees : after (fun s => (s.cntTimeout, s.lru, s.slotAt 0)) (exec (.tick 66) oneSlot) =
    some (1, [], none) := by decide
-- T72
theorem test_badOp : after (fun s => s.out) (exec (.badOp 0xFF) up) = some [.ret 0xFF .badOp .none] := by decide
-- T74
theorem test_ipv6Uncomp_short : after (fun s => s.lastErr) (exec (.ipv6Uncomp (arr 6) (zeros 39)) up) = some 0x02 := by
  decide
theorem test_ipv6Uncomp : after (fun s => s.out) (exec (.ipv6Uncomp (arr 6) (zeros 40)) { up with reg := [some 7, none] }) =
    some [.dlv 7 40 (zeros 40)] := by decide
-- T11 with the table of INIT_ROUTER; T31: an absent context
def iphcT11 : Instr := .iphc ⟨L1, L2, 6⟩ ⟨0b11, false, 0b10, false, false, 0b11, false, true, 0b11⟩ [0x3A, 0xDE, 0xAD, 0xBE, 0xEF]
def packetT11 : List Byte :=
  [0x60, 0, 0, 0, 0, 4, 0x3A, 0x40, 0xFE, 0x80, 0, 0, 0, 0, 0, 0, 0x02, 0x12, 0x74, 0x01, 0x00, 0x01, 0x01, 0x01,
   0x20, 0x01, 0x0D, 0xB8, 0, 0, 0, 1, 0x02, 0x12, 0x74, 0x02, 0x00, 0x02, 0x02, 0x02, 0xDE, 0xAD, 0xBE, 0xEF]
theorem test_iphc : after (fun s => s.out)
    (exec iphcT11 { up with reg := [some 7, none], ctx := setCtx up.ctx 0 (some ⟨prefixP, 64⟩) }) =
      some [.dlv 7 44 packetT11] := by decide
theorem test_iphc_no_context : after (fun s => s.lastErr)
    (exec (.iphc ⟨L1, L2, 6⟩ ⟨0b11, false, 0b10, true, false, 0b11, false, true, 0b11⟩ [0x02, 0x3A]) up) = some 0x03 := by
  decide
-- T10
theorem test_compress :
    compress Config.vectors (setCtx up.ctx 0 (some ⟨prefixP, 64⟩)) packetT11 L1 L2 =
      [0x7A, 0x37, 0x3A, 0xDE, 0xAD, 0xBE, 0xEF] := by decide
-- R238, R239; R233
theorem test_frag1 : after (fun s => (s.slotAt 1, s.lru)) (exec newKey oneSlot) =
    some (some ⟨L1, 0x77, 20, [(0, 1), (1, 2)], 6⟩, [1, 0]) := by decide
theorem test_frag1_overflow : after (fun s => (s.slotAt 0, s.cntEvictCorrupt, s.lastErr))
    (exec (.frag1 (arr 6) 0 16 0x1234 (zeros 17)) oneSlot) = some (none, 1, 0x07) := by decide
-- R240: the reassembled 16 bytes are `41 ...`, shorter than an IPv6 header, so the datagram is dropped and the slot free
theorem test_fragN : after (fun s => (s.slotAt 0, s.lru, s.lastErr)) (exec secondHalf oneSlot) =
    some (none, [], 0x02) := by decide
-- R236: LRU names slot 0
theorem test_fragN_evicts : after (fun s => (s.cntEvictLru, s.lru, (s.slotAt 0).map Slot.data))
    (exec (.fragN (arr 6) 0 20 0x77 1 [5]) fullPool) = some (1, [0, 1], some [(8, 5)]) := by decide
-- R135
theorem test_unknown : after (fun s => (s.cntDrop, s.lastErr)) (exec (.unknown (arr 6) 0x80 [0]) up) = some (1, 0x01) := by
  decide
-- T24, first vector: ports f0b1 and f0b2, checksum abcd, data 1122; UDP length 10
theorem test_nhcUdp : after (fun s => s.out)
    (exec (.nhcUdp ⟨0, 0, 64, 0, 0⟩ 3 [0x12, 0xAB, 0xCD, 0x11, 0x22])
      { up with cfg := { Config.vectors with nhcEn := true }, reg := [some 7, none] }) =
    some [.dlv 7 50 ([0x60, 0, 0, 0, 0, 10, 17, 64] ++ zeros 32 ++
      [0xF0, 0xB1, 0xF0, 0xB2, 0x00, 0x0A, 0xAB, 0xCD, 0x11, 0x22])] := by decide
theorem test_nhcUdp_off : after (fun s => s.lastErr) (exec (.nhcUdp ⟨0, 0, 64, 0, 0⟩ 3 [0x12, 0xAB, 0xCD]) up) =
    some 0x05 := by decide

-- ## States that keep the invariant

theorem vectors_ok : Config.vectors.Ok := by constructor <;> decide
theorem tight_ok : tight.Ok := by constructor <;> decide

theorem slotAt_pair (s : State) (a b : Option Slot) (h : s.slots = [a, b]) (i : Nat) :
    s.slotAt i = if i = 0 then a else if i = 1 then b else none := by
  simp only [State.slotAt, h]
  match i with
  | 0 => rfl
  | 1 => rfl
  | _ + 2 => simp

theorem halfSlot_ok (now : Time) (h : 5 ≤ now) : halfSlot.Ok now where
  size_pos := by decide
  data_wf := by decide
  data_bound := by
    intro k hk
    have h16 : 16 ≤ k := hk
    simp only [halfSlot, Memory.read]
    repeat rw [if_neg (by omega)]
  incomplete := ⟨8, by decide, by decide⟩
  created := h

theorem otherSlot_ok (now : Time) (h : 5 ≤ now) : otherSlot.Ok now where
  size_pos := by decide
  data_wf := by decide
  data_bound := fun _ _ => rfl
  incomplete := ⟨0, by decide, rfl⟩
  created := h

/-- The parts of the invariant that do not concern the pool or the send. -/
theorem inv_of_pool (s : State) (a b : Option Slot) (hs : s.slots = [a, b]) (hn : s.cfg.nSlots = 2) (hc : s.cfg.Ok)
    (ha : ∀ sl, a = some sl → sl.Ok s.lastNow) (hb : ∀ sl, b = some sl → sl.Ok s.lastNow)
    (hk : ∀ x y, a = some x → b = some y → ¬(x.srcLl = y.srcLl ∧ x.tag = y.tag)) (hl : s.lru.Nodup)
    (hf : ∀ i, i ∈ s.lru ↔ (i = 0 ∧ a.isSome = true) ∨ (i = 1 ∧ b.isSome = true)) (hctx : s.ctx = up.ctx)
    (hreg : s.reg = up.reg) (hm : s.cfg.maxConsumers = 2) (he : s.lastErr = 0) (hi : s.initDone = true)
    (ht : ∀ f, s.txq = .busy f → f.Ok s.cfg) : s.Inv where
  cfg_ok := hc
  slots_len := by simp [hs, hn]
  slot_ok := by
    intro i sl h
    rw [slotAt_pair s a b hs] at h
    split at h
    · exact ha sl h
    · split at h
      · exact hb sl h
      · cases h
  keys := by
    intro i j x y hx hy h1 h2
    rw [slotAt_pair s a b hs] at hx hy
    split at hx <;> split at hy
    · omega
    · split at hy
      · exact absurd ⟨h1, h2⟩ (hk x y hx hy)
      · cases hy
    · split at hx
      · exact absurd ⟨h1.symm, h2.symm⟩ (hk y x hy hx)
      · cases hx
    · split at hx <;> split at hy <;> first | omega | exact absurd hx (by simp) | exact absurd hy (by simp)
  lru_nodup := hl
  lru_filling := by
    intro i
    rw [hf, slotAt_pair s a b hs]
    match i with
    | 0 => simp
    | 1 => simp
    | _ + 2 => simp
  ctx_count := by rw [hctx]; exact Nat.le_trans (show ctxCount up.ctx ≤ 0 by decide) (Nat.zero_le _)
  ctx_len := by
    intro id e h
    rw [hctx] at h
    simp [up, State.reset, State.resetWith, ctxEntry] at h
  reg_len := by rw [hreg, hm]; rfl
  reg_dense := by
    intro j k hkj hj h
    rw [hreg] at hj h
    have : j < 2 := hj
    match j with
    | 0 => exact absurd rfl h
    | 1 => exact absurd rfl h
  reg_nodup := by rw [hreg]; decide
  lastErr_le := by rw [he]; decide
  tx_ok := ht
  uninit := by intro h; rw [hi] at h; cases h

theorem up_inv : up.Inv := by
  refine inv_of_pool up none none rfl rfl vectors_ok ?_ ?_ ?_ (by decide) ?_ rfl rfl rfl rfl rfl ?_
  · intro _ h; cases h
  · intro _ h; cases h
  · intro _ _ h; cases h
  · intro i; simp [up, State.reset, State.resetWith]
  · intro _ h; cases h

theorem oneSlot_inv : oneSlot.Inv := by
  refine inv_of_pool oneSlot (some halfSlot) none rfl rfl vectors_ok ?_ ?_ ?_ (by decide) ?_ rfl rfl rfl rfl rfl ?_
  · intro _ h; cases h; exact halfSlot_ok 5 (Nat.le_refl 5)
  · intro _ h; cases h
  · intro _ _ _ h; cases h
  · intro i; simp [oneSlot]
  · intro _ h; cases h

theorem fullPool_inv : fullPool.Inv := by
  refine inv_of_pool fullPool (some halfSlot) (some otherSlot) rfl rfl vectors_ok ?_ ?_ ?_ (by decide) ?_ rfl rfl rfl rfl
    rfl ?_
  · intro _ h; cases h; exact halfSlot_ok 5 (Nat.le_refl 5)
  · intro _ h; cases h; exact otherSlot_ok 5 (Nat.le_refl 5)
  · intro _ _ h1 h2; cases h1; cases h2; decide
  · intro i; simp [fullPool]; omega
  · intro _ h; cases h

theorem sending_inv : sending.Inv := by
  refine inv_of_pool sending none none rfl rfl tight_ok ?_ ?_ ?_ (by decide) ?_ rfl rfl rfl rfl rfl ?_
  · intro _ h; cases h
  · intro _ h; cases h
  · intro _ _ h; cases h
  · intro i; simp [sending, up, State.reset, State.resetWith]
  · intro _ h; cases h; constructor <;> decide

/-- The arrival of the tests is admitted wherever the frame fits and time 6 has not passed. -/
theorem admits (s : State) (len : Nat) (h1 : s.initDone = true) (h2 : len ≤ s.cfg.linkMtu) (h3 : s.lastNow ≤ 6) :
    s.Admits (arr 6) len := ⟨h1, h2, h3⟩

-- ## Witnesses: for each statement with hypotheses, values that meet them together, at the boundaries of its clauses

def after? (r : Result) : Bool := (after id r).isSome

theorem witness_InitSetsUpTheBlock : State.reset.initDone = false := rfl
theorem witness_InitRouterSeedsContextZero :
    State.reset.initDone = false ∧ (128#8).toNat ≤ 128 ∧ 128 < (129#8).toNat := by decide
theorem witness_ReinitialisationIsRefused : up.initDone = true := rfl
theorem witness_BeforeInitNothingActs : State.reset.initDone = false := rfl
theorem witness_SetHcWritesHcEn : State.reset.initDone = false ∧ up.initDone = true := by decide
theorem witness_ReadStatusReturnsTheRecord : State.reset.initDone = false ∧ oneSlot.initDone = true := by decide
theorem witness_UnknownOperationIsBadOp : (0x00#8).toNat = 0 ∧ 0x0B < (0x0C#8).toNat ∧ 0x0B < (0xFF#8).toNat := by decide

def regState (r : List (Option Handle)) : State := { up with reg := r }
theorem witness_RegisterTakesTheLowestEntry :
    (regState [some 7, none]).initDone = true ∧ some 7 ∈ (regState [some 7, none]).reg ∧
    (some 11 ∉ (regState [some 7, some 9]).reg ∧ none ∉ (regState [some 7, some 9]).reg) ∧
    (some 9 ∉ (regState [some 7, none]).reg ∧ (regState [some 7, none]).reg[1]? = some none ∧
      ∀ k, k < 1 → (regState [some 7, none]).reg[k]? ≠ some none) := by
  refine ⟨rfl, by decide, by decide, by decide, rfl, fun k hk => ?_⟩
  obtain rfl : k = 0 := by omega
  decide

theorem witness_CtxLookupReturnsTheEntry :
    up.initDone = true ∧ 15 < (16#8).toNat ∧ (15#8).toNat = (15 : Fin 16).val ∧ (0#8).toNat = (0 : Fin 16).val := by
  decide
theorem witness_CtxInsertWritesTheEntry :
    up.initDone = true ∧ (15 < (16#8).toNat ∨ 128 < (0#8).toNat) ∧ (15 < (4#8).toNat ∨ 128 < (129#8).toNat) ∧
    ((15#8).toNat = (15 : Fin 16).val ∧ (128#8).toNat ≤ 128) := by decide
theorem witness_CtxRemoveClearsTheEntry : up.initDone = true ∧ 15 < (16#8).toNat ∧ (15#8).toNat = (15 : Fin 16).val := by
  decide

theorem witness_SendStartsTheDatagram : up.initDone = true ∧ up.txq = .idle ∧ up.sendWait = [] := by decide

def waiting : State := { up with sendWait := [(L2, [1, 2])], inputs := [.tx] }
theorem witness_SecondSendWaitsForIdle_busy : sending.initDone = true ∧ (sending.txq ≠ .idle ∨ sending.sendWait ≠ []) := by
  decide
theorem witness_SecondSendWaitsForIdle_tx :
    waiting.initDone = true ∧ waiting.txq = .idle ∧ waiting.sendWait = (L2, [1, 2]) :: [] ∧ waiting.inputs = .tx :: [] ∧
    after? (exec (.send L2 [1, 2]) { waiting with inputs := [], sendWait := [] }) = true := by decide

theorem witness_EmitStepSendsTheNextFrame_handOver :
    sending.txq = .busy ⟨L2, dgram, 0x1234, 0, true, false⟩ ∧ dgram.length ≤ 2047 ∧ sending.inputs = .tx :: [] := by decide
theorem witness_EmitStepSendsTheNextFrame_last :
    awaitingLast.txq = .busy ⟨L2, dgram, 0x1234, 16, true, true⟩ ∧ awaitingLast.inputs = .answer true :: [] ∧
    16 + (dgram.length - 16) = dgram.length := by decide
def awaitingFirst (ok : Bool) : State :=
  { sending with txq := .busy ⟨L2, dgram, 0x1234, 0, true, true⟩, inputs := [.answer ok] }
theorem witness_EmitStepSendsTheNextFrame_more :
    (awaitingFirst true).txq = .busy ⟨L2, dgram, 0x1234, 0, true, true⟩ ∧
    (awaitingFirst true).inputs = .answer true :: [] ∧ (awaitingFirst false).inputs = .answer false :: [] ∧
    0 + (tight.linkMtu - 4) / 8 * 8 ≠ dgram.length := by decide

def sendingAll : State := { sending with inputs := [.tx, .answer true, .tx, .answer true, .tx, .answer true] }
theorem witness_AcceptedSendEmitsEveryFragment :
    sendingAll.cfg.Ok ∧ sendingAll.cfg.linkMtu < dgram.length ∧ dgram.length ≤ 2047 ∧
    sendingAll.txq = .busy ⟨L2, dgram, 0x1234, 0, true, false⟩ ∧
    sendingAll.inputs =
      (List.replicate (fragmentFrames sendingAll.cfg 0x1234 dgram).length [Event.tx, Event.answer true]).flatten ++ [] :=
  ⟨tight_ok, by decide, by decide, rfl, by decide⟩
theorem witness_FragmentsPartitionTheDatagram : tight.Ok ∧ tight.linkMtu < dgram.length ∧ dgram.length ≤ 2047 :=
  ⟨tight_ok, by decide, by decide⟩
/-- The boundary of the link: one byte more than fits. -/
theorem witness_FragmentsPartitionTheDatagram_least : tight.linkMtu < (dgram.take 14).length := by decide
theorem witness_TransmittedFramesFitTheLink : sending.Inv ∧ ∃ s', step sending = .next s' := ⟨sending_inv, _, rfl⟩
theorem witness_InFlightSendIgnoresConfiguration :
    sending.txq = .busy ⟨L2, dgram, 0x1234, 0, true, false⟩ ∧ sending.inputs = .tx :: [] ∧ ∃ s', step sending = .next s' :=
  ⟨rfl, rfl, _, rfl⟩
theorem witness_InFlightSendIgnoresConfiguration_answer : ∃ s', step awaitingLast = .next s' := ⟨_, rfl⟩
theorem witness_SendPathLeavesReceiveState_send : ∃ s', exec (.send L2 [1]) up = .next s' := ⟨_, rfl⟩
theorem witness_SendPathLeavesReceiveState_tx : sending.inputs = .tx :: [] ∧ ∃ s', step sending = .next s' :=
  ⟨rfl, _, rfl⟩

theorem witness_UnknownAndTruncatedFramesAreDropped :
    up.Admits (arr 6) ([0x40] : List Byte).length ∧ (0x40#8).toNat ≤ 0x40 ∧
    (0x42 ≤ (0x42#8).toNat ∧ (0x42#8).toNat ≤ 0x5F) ∧ (0x42 ≤ (0x5F#8).toNat ∧ (0x5F#8).toNat ≤ 0x5F) ∧
    (0x80 ≤ (0x80#8).toNat ∧ (0x80#8).toNat ≤ 0xBF) ∧ (0x80 ≤ (0xBF#8).toNat ∧ (0xBF#8).toNat ≤ 0xBF) :=
  ⟨admits _ _ rfl (by decide) (by decide), by decide, by decide, by decide, by decide, by decide⟩
theorem witness_UnknownAndTruncatedFramesAreDropped_short :
    up.Admits (arr 6) 4 ∧ (0x60 ≤ (0x60#8).toNat ∧ (0x7F#8).toNat ≤ 0x7F ∧ ([0x7F] : List Byte).length < 2) ∧
    (0xC0 ≤ (0xC0#8).toNat ∧ (0xDF#8).toNat ≤ 0xDF ∧ ([0xDF, 0, 0] : List Byte).length < 4) ∧
    (0xE0 ≤ (0xE0#8).toNat ∧ ([0xFF, 0, 0, 0] : List Byte).length < 5) :=
  ⟨admits _ _ rfl (by decide) (by decide), by decide, by decide, by decide⟩
theorem witness_RxFrameRunsItsDispatchClass :
    decode (.frame [0x80, 0] (arr 6)) = .ok (.unknown (arr 6) 0x80 [0]) := by decide
theorem witness_UnknownClassIsDropped : up.Admits (arr 6) (1 + ([0] : List Byte).length) :=
  admits _ _ rfl (by decide) (by decide)
/-- Both sides of the 40 bytes. -/
theorem witness_UncompressedPacketIsDelivered :
    up.Admits (arr 6) (1 + (zeros 40).length) ∧ up.Admits (arr 6) (1 + (zeros 39).length) :=
  ⟨admits _ _ rfl (by decide) (by decide), admits _ _ rfl (by decide) (by decide)⟩
theorem witness_IphcFrameIsDecompressed : up.Admits (arr 6) (2 + ([0x3A] : List Byte).length) :=
  admits _ _ rfl (by decide) (by decide)
theorem witness_NhcUdpRebuildsTheUdpHeader : up.initDone = true := rfl
theorem witness_OutsideTheContractIsRefused :
    sending.initDone = true ∧ sending.cfg.linkMtu < (zeros 14).length ∧ oneSlot.initDone = true ∧
    (zeros 13).length ≤ oneSlot.cfg.linkMtu ∧ (arr 4).now < oneSlot.lastNow := by decide
theorem witness_EveryAdmittedFrameIsHandled :
    fullPool.Inv ∧ newKey.arrival = some (arr 6, 6) ∧ fullPool.Admits (arr 6) 6 :=
  ⟨fullPool_inv, rfl, admits _ _ rfl (by decide) (by decide)⟩

theorem witness_ZeroSizeFragmentIsDropped :
    (Instr.frag1 (arr 6) 0 0 1 [5]).fragParts = some ⟨arr 6, 5, 0, 1, 0, [5]⟩ ∧ oneSlot.Admits (arr 6) 5 :=
  ⟨rfl, admits _ _ rfl (by decide) (by decide)⟩
/-- With a slot of the key: it ends one byte beyond its size. -/
theorem witness_OverflowingFragmentFailsItsSlot_slot :
    oneSlot.Inv ∧ (Instr.fragN (arr 6) 0 16 0x1234 1 (zeros 9)).fragParts = some ⟨arr 6, 14, 16, 0x1234, 8, zeros 9⟩ ∧
    oneSlot.Admits (arr 6) 14 ∧ (16#11).toNat < 8 + (zeros 9).length ∧ oneSlot.slotAt 0 = some halfSlot ∧
    halfSlot.srcLl = (arr 6).srcLl ∧ halfSlot.tag = 0x1234 :=
  ⟨oneSlot_inv, rfl, admits _ _ rfl (by decide) (by decide), by decide, rfl, rfl, rfl⟩
theorem witness_OverflowingFragmentFailsItsSlot_none :
    up.Inv ∧ (Instr.frag1 (arr 6) 0 1 0x77 [1, 2]).fragParts = some ⟨arr 6, 6, 1, 0x77, 0, [1, 2]⟩ ∧
    up.Admits (arr 6) 6 ∧ (1#11).toNat < 0 + ([1, 2] : List Byte).length ∧
    ∀ k sl, up.slotAt k = some sl → ¬(sl.srcLl = (arr 6).srcLl ∧ sl.tag = 0x77) := by
  refine ⟨up_inv, rfl, admits _ _ rfl (by decide) (by decide), by decide, fun k sl h => ?_⟩
  rw [slotAt_pair up none none rfl] at h
  simp at h
theorem witness_MismatchingFragmentFailsItsSlot :
    oneSlot.Inv ∧ (Instr.frag1 (arr 6) 0 17 0x1234 [1]).fragParts = some ⟨arr 6, 5, 17, 0x1234, 0, [1]⟩ ∧
    oneSlot.Admits (arr 6) 5 ∧ 0 + ([1] : List Byte).length ≤ (17#11).toNat ∧ oneSlot.slotAt 0 = some halfSlot ∧
    halfSlot.srcLl = (arr 6).srcLl ∧ halfSlot.tag = 0x1234 ∧ halfSlot.size ≠ 17 :=
  ⟨oneSlot_inv, rfl, admits _ _ rfl (by decide) (by decide), by decide, rfl, rfl, rfl, by decide⟩
theorem witness_AcceptedFragmentWritesItsBytes :
    oneSlot.Inv ∧ firstHalf.fragParts = some ⟨arr 6, 12, 16, 0x1234, 0, [0x41, 1, 2, 3, 4, 5, 6, 7]⟩ ∧
    oneSlot.Admits (arr 6) 12 ∧ oneSlot.slotAt 0 = some halfSlot ∧ halfSlot.size = 16 ∧ 15 < halfSlot.size.toNat ∧
    ¬(0 ≤ 15 ∧ 15 < 0 + 8) ∧ Memory.read halfSlot.data 15 = none :=
  ⟨oneSlot_inv, rfl, admits _ _ rfl (by decide) (by decide), rfl, rfl, by decide, by decide, by decide⟩
theorem witness_CompletingFragmentHandsTheDatagramOn :
    oneSlot.Inv ∧ secondHalf.fragParts = some ⟨arr 6, 13, 16, 0x1234, 8, List.replicate 8 9⟩ ∧
    oneSlot.Admits (arr 6) 13 ∧ oneSlot.slotAt 0 = some halfSlot ∧
    ∀ b, b < halfSlot.size.toNat → (8 ≤ b ∧ b < 8 + (List.replicate 8 (9 : Byte)).length) ∨
      Memory.read halfSlot.data b ≠ none :=
  ⟨oneSlot_inv, rfl, admits _ _ rfl (by decide) (by decide), rfl, by decide⟩

-- R240: a reassembled datagram that is a fragment again
theorem test_nested_fragment :
    (up.processDatagram [0xC0, 1, 2, 3] L1 L2).lastErr = 0x0A ∧ (up.processDatagram [0xC0, 1, 2] L1 L2).lastErr = 0x02 ∧
    (up.processDatagram [0xE0, 1, 2, 3, 4] L1 L2).lastErr = 0x0A ∧ (up.processDatagram [0x80] L1 L2).lastErr = 0x01 := by
  decide

theorem oneSlot_newKey (k : Nat) (sl : Slot) (h : oneSlot.slotAt k = some sl) :
    ¬(sl.srcLl = (arr 6).srcLl ∧ sl.tag = 0x77) := by
  rw [slotAt_pair oneSlot (some halfSlot) none rfl] at h
  split at h
  · cases h; decide
  · simp at h
theorem fullPool_newKey (k : Nat) (sl : Slot) (h : fullPool.slotAt k = some sl) :
    ¬(sl.srcLl = (arr 6).srcLl ∧ sl.tag = 0x77) := by
  rw [slotAt_pair fullPool (some halfSlot) (some otherSlot) rfl] at h
  split at h
  · cases h; decide
  · split at h
    · cases h; decide
    · cases h
theorem witness_UnseenKeyTakesTheLowestEmptySlot :
    newKey.fragParts = some ⟨arr 6, 6, 20, 0x77, 0, [1, 2]⟩ ∧ oneSlot.Admits (arr 6) 6 ∧
    0 + ([1, 2] : List Byte).length ≤ (20#11).toNat ∧
    (∀ k sl, oneSlot.slotAt k = some sl → ¬(sl.srcLl = (arr 6).srcLl ∧ sl.tag = 0x77)) ∧
    oneSlot.slots[1]? = some none ∧ ∀ j, j < 1 → oneSlot.slots[j]? ≠ some none := by
  refine ⟨rfl, admits _ _ rfl (by decide) (by decide), by decide, oneSlot_newKey, rfl, fun j hj => ?_⟩
  obtain rfl : j = 0 := by omega
  decide
theorem witness_FullPoolEvictsTheLeastRecentlyUpdated :
    fullPool.Inv ∧ newKey.fragParts = some ⟨arr 6, 6, 20, 0x77, 0, [1, 2]⟩ ∧ fullPool.Admits (arr 6) 6 ∧
    (∀ k sl, fullPool.slotAt k = some sl → ¬(sl.srcLl = (arr 6).srcLl ∧ sl.tag = 0x77)) ∧
    none ∉ fullPool.slots ∧ fullPool.lru = [1] ++ [0] :=
  ⟨fullPool_inv, rfl, admits _ _ rfl (by decide) (by decide), fullPool_newKey, by decide, rfl⟩
theorem witness_FragmentLeavesOtherSlotsAlone :
    (∃ s', exec firstHalf fullPool = .next s') ∧ fullPool.matchSlot L1 0x1234 = some (0, halfSlot) ∧
    (∃ s', exec newKey fullPool = .next s') ∧ fullPool.matchSlot L1 0x77 = none ∧
    fullPool.chooseSlot.map Prod.fst = some 0 := ⟨⟨_, rfl⟩, rfl, ⟨_, rfl⟩, rfl, rfl⟩
theorem witness_RepeatedFragmentChangesNothing :
    oneSlot.Inv ∧ oneSlot.initDone = true ∧ ∃ s', exec firstHalf oneSlot = .next s' ∧
      (s'.matchSlot L1 0x1234).isSome = true := ⟨oneSlot_inv, rfl, _, rfl, rfl⟩
theorem witness_TickFreesExactlyTheStaleSlots : oneSlot.initDone = true ∧ oneSlot.lastNow ≤ 5 := by decide

/-- The three fragments of `dgram` on the smallest link. -/
def frames : List (List Byte) := fragmentFrames tight 0x1234 dgram
theorem up_empty (k : Nat) (sl : Slot) (h : up.slotAt k = some sl) : ¬(sl.srcLl = L1 ∧ sl.tag = 0x1234) := by
  rw [slotAt_pair up none none rfl] at h
  simp at h
theorem witness_ReassemblyInAnyOrderYieldsTheDatagram :
    up.Inv ∧ up.initDone = true ∧ tight.Ok ∧ tight.linkMtu ≤ up.cfg.linkMtu ∧ tight.linkMtu < dgram.length ∧
    dgram.length ≤ 2047 ∧ (∀ k sl, up.slotAt k = some sl → ¬(sl.srcLl = L1 ∧ sl.tag = 0x1234)) :=
  ⟨up_inv, rfl, tight_ok, by decide, by decide, by decide, up_empty⟩
/-- Reordered and with a repeat, the first fragment last. -/
theorem witness_ReassemblyInAnyOrderYieldsTheDatagram_all :
    frames.length = 3 ∧ (∀ x ∈ [frames[2]!, frames[1]!, frames[2]!, frames[0]!], x ∈ frames) ∧
    (∀ f ∈ frames, f ∈ [frames[2]!, frames[1]!, frames[2]!, frames[0]!]) ∧
    frames[0]! ∉ [frames[2]!, frames[1]!, frames[2]!] := by decide
theorem witness_ReassemblyInAnyOrderYieldsTheDatagram_missing :
    (∀ x ∈ [frames[2]!, frames[0]!], x ∈ frames) ∧ frames[1]! ∈ frames ∧ frames[1]! ∉ [frames[2]!, frames[0]!] := by
  decide

theorem witness_CompressionRoundTrip :
    40 ≤ packetT11.length ∧ (byteAt packetT11 0).toNat / 16 = 6 ∧
    (byteAt packetT11 4).toNat * 256 + (byteAt packetT11 5).toNat = packetT11.length - 40 ∧
    packetT11.length ≤ Config.vectors.maxIpv6Len := by decide
theorem witness_InexpressiblePacketGoesUncompressed :
    (packetT11.take 39).length < 40 ∧ (byteAt (0x50 :: packetT11.drop 1) 0).toNat / 16 ≠ 6 ∧
    (byteAt (packetT11 ++ [0]) 4).toNat * 256 + (byteAt (packetT11 ++ [0]) 5).toNat ≠ (packetT11 ++ [0]).length - 40 := by
  decide
def bytesT11 : List Byte := [0x7A, 0x37, 0x3A, 0xDE, 0xAD, 0xBE, 0xEF]
theorem witness_DecompressedPacketIsWellFormed :
    decompress Config.vectors (setCtx up.ctx 0 (some ⟨prefixP, 64⟩)) bytesT11 L1 L2 = .ok packetT11 := by rfl
theorem witness_HeaderLengthFollowsTheBaseBytes :
    decompress Config.vectors (setCtx up.ctx 0 (some ⟨prefixP, 64⟩)) bytesT11 L1 L2 = .ok packetT11 ∧
    (iphcBaseOf (byteAt bytesT11 0) (byteAt bytesT11 1)).nh = false := ⟨by rfl, rfl⟩
def nhcOn : Config := { Config.vectors with nhcEn := true }
/-- `7a 34`: DAC = 1, DAM = 00. `7a 3d`: M = 1, DAC = 1, DAM = 01. `7e 33` with NHC_EN = 0: NH = 1. With NHC_EN = 1: the
NHC bytes on both sides of `11110 0 PP`, one that elides the checksum (C = 1) and one of another identifier. -/
theorem witness_ReservedModesNeverDecompress :
    (let f := iphcBaseOf 0x7A 0x34; f.m = false ∧ f.dac = true ∧ f.dam = 0) ∧
    (let f := iphcBaseOf 0x7A 0x3D; f.m = true ∧ f.dac = true ∧ f.dam ≠ 0) ∧
    ((iphcBaseOf 0x7E 0x33).nh = true ∧ Config.vectors.nhcEn = false) ∧
    (nhcOn.nhcEn = true ∧ ¬(0xF0 ≤ (0xF4#8).toNat ∧ (0xF4#8).toNat ≤ 0xF3) ∧
      ¬(0xF0 ≤ (0xEF#8).toNat ∧ (0xEF#8).toNat ≤ 0xF3)) := by decide
/-- The header all there, with a stateless source: no byte missing before a reserved mode, one byte at the NHC stage. -/
theorem witness_ReservedModesNeverDecompress_code :
    (let f := iphcBaseOf 0x7A 0x34; f.sac = false ∧ iphcHdrLen f ≤ ([0x7A, 0x34, 0x3A] ++ zeros 16).length) ∧
    (let f := iphcBaseOf 0x7E 0x33
     f.sac = false ∧ f.dac = false ∧ iphcHdrLen f < ([0x7E, 0x33, 0xF4] : List Byte).length ∧
       byteAt [0x7E, 0x33, 0xF4] (iphcHdrLen f) = 0xF4) := by decide
-- worked by hand from R187 to R189
theorem test_reserved_destination :
    decompress Config.vectors up.ctx ([0x7A, 0x34, 0x3A] ++ zeros 16) L1 L2 = .error .reservedMode := by rfl
theorem test_other_nhc_byte : decompress nhcOn up.ctx [0x7E, 0x33, 0xF4] L1 L2 = .error .unsupportedNhc := by rfl
/-- `7a f3 10`: CID, SAC = 1, SAM = 11, SCI = 1. `7a b7 0f`: CID, DAC = 1, DAM = 11, DCI = 15. `7a bc 01`: CID, M = 1,
DAC = 1, DAM = 00, DCI = 1, its 48 in-line bits there. -/
theorem witness_AbsentContextNeverDecompresses :
    (let f := iphcBaseOf 0x7A 0xF3
     f.cid = true ∧ f.sac = true ∧ f.sam ≠ 0 ∧ (0x10#8).extractLsb' 4 4 ≠ 0 ∧
      ctxEntry up.ctx ((0x10#8).extractLsb' 4 4) = none) ∧
    (let f := iphcBaseOf 0x7A 0xB7
     f.cid = true ∧ f.m = false ∧ f.dac = true ∧ f.dam ≠ 0 ∧ (0x0F#8).extractLsb' 0 4 ≠ 0 ∧
      ctxEntry up.ctx ((0x0F#8).extractLsb' 0 4) = none) ∧
    (let f := iphcBaseOf 0x7A 0xBC
     f.cid = true ∧ f.m = true ∧ f.dac = true ∧ f.dam = 0 ∧ (0x01#8).extractLsb' 0 4 ≠ 0 ∧
      ctxEntry up.ctx ((0x01#8).extractLsb' 0 4) = none ∧ f.sac = false ∧
      iphcHdrLen f ≤ ([0x7A, 0xBC, 0x01, 0x3A] ++ zeros 6).length) := by decide
-- R188 with R143
theorem test_multicast_no_context :
    decompress Config.vectors up.ctx ([0x7A, 0xBC, 0x01, 0x3A] ++ zeros 6) L1 L2 = .error .noContext := by rfl
theorem witness_ReconstructionTakesPrefixBits : (llBytes L1).length = 8 ∧ 0 < 128 ∧ 127 < 128 := by decide

theorem witness_DecodeOfEncodeIsTheInstruction : iphcT11.WF Config.vectors ∧ (Instr.badOp 0x0C).WF Config.vectors := by
  decide
theorem witness_EncodeOfDecodeIsTheWire :
    decode (.frame [0x80, 0] (arr 6)) = .ok (.unknown (arr 6) 0x80 [0]) ∧
    decode (.nhc [0xF0] ⟨0, 0, 0, 0, 0⟩) = .ok (.nhcUdp ⟨0, 0, 0, 0, 0⟩ 0 []) := by decide
theorem witness_FirstByteSelectsTheClass : 4 ≤ (zeros 4).length := by decide
theorem witness_StepRunsTheDecodedInstruction :
    ({ up with inputs := [.txn (.op 0x09 {})] } : State).inputs = .txn (.op 0x09 {}) :: [] ∧
    decode (.op 0x09 {}) = .ok .readStatus := by decide
/-- A block with one transaction before it. -/
def given (s : State) (t : Txn) : State := { s with inputs := [.txn t] }
def fragHead : List Byte := [0xC1, 0x2C, 0x12]
theorem witness_StepRunsTheDecodedInstruction_truncated :
    (0xC0 ≤ (0xC1#8).toNat ∧ (0xC1#8).toNat ≤ 0xDF ∧ fragHead.length < 4) ∧
    (given State.reset (.frame fragHead (arr 6))).initDone = false ∧
    (given up (.frame fragHead (arr 6))).Admits (arr 6) fragHead.length :=
  ⟨by decide, rfl, admits _ _ rfl (by decide) (by decide)⟩
/-- LINK_MTU is at least 13 where R6 holds, so a truncated frame is too long only outside it. -/
def tiny : Config := { Config.vectors with linkMtu := 2 }
theorem witness_StepRunsTheDecodedInstruction_refused :
    up.initDone = true ∧ tiny.linkMtu < fragHead.length ∧ fragHead.length ≤ oneSlot.cfg.linkMtu ∧
    (arr 4).now < oneSlot.lastNow := by decide
theorem witness_StepRunsTheDecodedInstruction_nhc :
    State.reset.initDone = false ∧ up.initDone = true ∧ ¬(0xF0 ≤ (0xF7#8).toNat ∧ (0xF7#8).toNat ≤ 0xF3) := by decide
-- R136, R189
theorem test_step_truncated : after (fun s => (s.cntDrop, s.lastErr)) (step (given up (.frame fragHead (arr 6)))) =
    some (1, 0x02) := by decide
theorem test_step_nhc_empty :
    after (fun s => s.lastErr) (step (given { up with cfg := nhcOn } (.nhc [] ⟨0, 0, 64, 0, 0⟩))) = some 0x02 := by decide
theorem witness_TableWordRunsNext : decodeTableWord 8 0x09 = some .readStatus := by decide
theorem witness_ResetKeepsTheInvariant : Config.vectors.Ok := vectors_ok
theorem witness_EveryStepKeepsTheInvariant : sending.Inv ∧ ∃ s', step sending = .next s' := ⟨sending_inv, _, rfl⟩
theorem witness_NoInputEverFaultsTheBlock : fullPool.Inv := fullPool_inv
theorem witness_StepsOnlyGoForward : ∃ s', step sending = .next s' := ⟨_, rfl⟩
theorem witness_ReceivePathLeavesSendState : newKey.isHostOp = false ∧ ∃ s', exec newKey fullPool = .next s' :=
  ⟨rfl, _, rfl⟩
theorem witness_ReceivePathIgnoresHcEn : secondHalf.isHostOp = false ∧ ∃ s', exec secondHalf oneSlot = .next s' :=
  ⟨rfl, _, rfl⟩

end Sys2Proof.Tests
end

/-! The invariant of the block: it holds at reset (O54) and every step keeps it (O56). First the values of the
invariant's parts (context table, registry, slot storage, in-flight send, error codes), then one rule per operation on
the state, then one lemma per instruction, then the step. -/

namespace Sys2Proof.Machine

-- ## Decode errors are drop codes (R192, R290)

/-- Every error of a decoding stage is a code that may stand in LAST_ERR (R290). -/
structure ErrorsAreDrops {α : Type} (x : Except Status α) : Prop where
  code_le : ∀ e, x = .error e → e.code.toNat ≤ 0x0A

section ErrorsAreDrops
variable {α β : Type}

theorem ErrorsAreDrops.ok (a : α) : ErrorsAreDrops (.ok a) := ⟨nofun⟩

theorem ErrorsAreDrops.error {e : Status} (h : e.code.toNat ≤ 0x0A) : ErrorsAreDrops (.error e : Except Status α) :=
  ⟨fun _ he => Except.error.inj he ▸ h⟩

theorem ErrorsAreDrops.bind {x : Except Status α} {f : α → Except Status β} (hx : ErrorsAreDrops x)
    (hf : ∀ a, ErrorsAreDrops (f a)) : ErrorsAreDrops (x >>= f) := by
  cases x with
  | ok a => exact hf a
  | error e => exact .error (hx.code_le e rfl)

end ErrorsAreDrops

theorem takeBytes_errorsAreDrops (n : Nat) (r : List Byte) : ErrorsAreDrops (takeBytes n r) := by
  unfold takeBytes
  split
  · exact .error (by decide)
  · exact .ok _

theorem decCie_errorsAreDrops (cid : Bool) (r : List Byte) : ErrorsAreDrops (decCie cid r) := by
  cases cid with
  | false => exact .ok _
  | true => exact (takeBytes_errorsAreDrops 1 r).bind fun _ => .ok _

theorem decTf_errorsAreDrops (tf : BitVec 2) (r : List Byte) : ErrorsAreDrops (decTf tf r) :=
  (takeBytes_errorsAreDrops _ r).bind fun _ => .ok _

theorem decNextHeader_errorsAreDrops (nh : Bool) (r : List Byte) : ErrorsAreDrops (decNextHeader nh r) := by
  cases nh with
  | false => exact (takeBytes_errorsAreDrops 1 r).bind fun _ => .ok _
  | true => exact .ok _

theorem decHopLimit_errorsAreDrops (hlim : BitVec 2) (r : List Byte) : ErrorsAreDrops (decHopLimit hlim r) := by
  unfold decHopLimit
  split
  · exact .ok _
  · exact (takeBytes_errorsAreDrops 1 r).bind fun _ => .ok _

theorem ctxReq_errorsAreDrops (t : CtxTable) (i : BitVec 4) : ErrorsAreDrops (ctxReq t i) := by
  unfold ctxReq
  split
  · exact .ok _
  · exact .error (by decide)

theorem decUnicast_errorsAreDrops (c : Config) (t : CtxTable) (ll : LLAddr) (ac : Bool) (am : BitVec 2)
    (ci : BitVec 4) (r : List Byte) : ErrorsAreDrops (decUnicast c t ll ac am ci r) := by
  cases ac with
  | false => exact (takeBytes_errorsAreDrops _ r).bind fun _ => .ok _
  | true => exact (ctxReq_errorsAreDrops t ci).bind fun _ => (takeBytes_errorsAreDrops _ r).bind fun _ => .ok _

theorem decSource_errorsAreDrops (c : Config) (t : CtxTable) (ll : LLAddr) (sac : Bool) (sam : BitVec 2)
    (sci : BitVec 4) (r : List Byte) : ErrorsAreDrops (decSource c t ll sac sam sci r) := by
  unfold decSource
  split
  · exact .ok _
  · exact decUnicast_errorsAreDrops c t ll sac sam sci r

theorem decMulticast_errorsAreDrops (t : CtxTable) (dac : Bool) (dam : BitVec 2) (dci : BitVec 4) (r : List Byte) :
    ErrorsAreDrops (decMulticast t dac dam dci r) := by
  unfold decMulticast
  split
  · split
    · exact (ctxReq_errorsAreDrops t dci).bind fun _ => (takeBytes_errorsAreDrops _ r).bind fun _ => .ok _
    · exact .error (by decide)
  · exact (takeBytes_errorsAreDrops _ r).bind fun _ => .ok _

theorem decDest_errorsAreDrops (c : Config) (t : CtxTable) (ll : LLAddr) (m dac : Bool) (dam : BitVec 2)
    (dci : BitVec 4) (r : List Byte) : ErrorsAreDrops (decDest c t ll m dac dam dci r) := by
  unfold decDest
  split
  · exact decMulticast_errorsAreDrops t dac dam dci r
  · split
    · exact .error (by decide)
    · exact decUnicast_errorsAreDrops c t ll dac dam dci r

theorem assembleIpv6_errorsAreDrops (c : Config) (tc : Byte) (fl : BitVec 20) (nh hl : Byte)
    (src dst upper rest : List Byte) : ErrorsAreDrops (assembleIpv6 c tc fl nh hl src dst upper rest) := by
  simp only [assembleIpv6]
  split
  · exact .error (by decide)
  · exact .ok _

theorem decUdp_errorsAreDrops (c : Config) (tc : Byte) (fl : BitVec 20) (hl : Byte) (src dst : List Byte)
    (p : BitVec 2) (r : List Byte) : ErrorsAreDrops (decUdp c tc fl hl src dst p r) :=
  (takeBytes_errorsAreDrops _ r).bind fun _ => (takeBytes_errorsAreDrops 2 _).bind fun _ =>
    assembleIpv6_errorsAreDrops ..

theorem decNhc_errorsAreDrops (c : Config) (tc : Byte) (fl : BitVec 20) (hl : Byte) (src dst r : List Byte) :
    ErrorsAreDrops (decNhc c tc fl hl src dst r) := by
  unfold decNhc
  split
  · exact .error (by decide)
  · refine (takeBytes_errorsAreDrops 1 r).bind fun (n, r) => ?_
    dsimp only
    split
    · exact decUdp_errorsAreDrops ..
    · exact .error (by decide)

theorem decompressBody_errorsAreDrops (c : Config) (t : CtxTable) (srcLl dstLl : LLAddr) (f : IphcBase)
    (r : List Byte) : ErrorsAreDrops (decompressBody c t srcLl dstLl f r) := by
  refine (decCie_errorsAreDrops f.cid r).bind fun ((sci, dci), r) => ?_
  refine (decTf_errorsAreDrops f.tf r).bind fun ((tc, fl), r) => ?_
  refine (decNextHeader_errorsAreDrops f.nh r).bind fun (nh, r) => ?_
  refine (decHopLimit_errorsAreDrops f.hlim r).bind fun (hl, r) => ?_
  refine (decSource_errorsAreDrops c t srcLl f.sac f.sam sci r).bind fun (src, r) => ?_
  refine (decDest_errorsAreDrops c t dstLl f.m f.dac f.dam dci r).bind fun (dst, r) => ?_
  cases nh with
  | some nh => exact assembleIpv6_errorsAreDrops ..
  | none => exact decNhc_errorsAreDrops ..

theorem decompress_errorsAreDrops (c : Config) (t : CtxTable) (b : List Byte) (srcLl dstLl : LLAddr) :
    ErrorsAreDrops (decompress c t b srcLl dstLl) :=
  (takeBytes_errorsAreDrops _ b).bind fun _ => decompressBody_errorsAreDrops ..

-- ## The context table (R23, R145)

theorem ctxEntry_setCtx (t : CtxTable) (id k : BitVec 4) (e : Option CtxEntry) :
    ctxEntry (setCtx t id e) k = if k = id then e else ctxEntry t k := by
  simp only [ctxEntry, setCtx, Vector.getElem_set, BitVec.toNat_inj, eq_comm]

/-- Replacing an entry changes the count of in-use entries by that entry alone. -/
theorem ctxCount_setCtx (t : CtxTable) (id : BitVec 4) (e : Option CtxEntry) :
    ctxCount (setCtx t id e) = ctxCount t - (ctxEntry t id).isSome.toNat + e.isSome.toNat := by
  simp only [ctxCount, setCtx, ctxEntry, Vector.toList_set]
  rw [List.countP_set (by simpa using id.isLt)]
  simp [Bool.toNat, Bool.cond_eq_ite]

theorem isSome_toNat_le_ctxCount (t : CtxTable) (id : BitVec 4) : (ctxEntry t id).isSome.toNat ≤ ctxCount t := by
  cases hs : (ctxEntry t id).isSome with
  | false => exact Nat.zero_le _
  | true =>
    exact List.countP_pos_iff.2 ⟨ctxEntry t id, by simp [ctxEntry], hs⟩

theorem ctxCount_empty : ctxCount (Vector.replicate 16 none) = 0 := by decide

theorem ctxEntry_empty (id : BitVec 4) : ctxEntry (Vector.replicate 16 none) id = none := by simp [ctxEntry]

-- ## The registry (R30, R273)

/-- Filling an invalid entry adds its handle to the consumers, up to order. -/
theorem filterMap_set_perm {H : Type} (r : List (Option H)) (j : Nat) (h : H) (hj : r[j]? = some none) :
    ((r.set j (some h)).filterMap id).Perm (h :: r.filterMap id) := by
  induction r generalizing j with
  | nil => cases hj
  | cons o r ih =>
    cases j with
    | zero =>
      obtain rfl : o = none := by simpa using hj
      exact .refl _
    | succ j =>
      have ih := ih j (by simpa using hj)
      cases o with
      | none => exact ih
      | some g => exact (ih.cons g).trans (.swap h g _)

-- ## Slot storage (R26, R238)

theorem State.slotAt_lt {s : State} {i : Nat} {sl : Slot} (h : s.slotAt i = some sl) : i < s.slots.length := by
  by_contra hi
  simp [State.slotAt, List.getElem?_eq_none (Nat.le_of_not_lt hi)] at h

/-- A slot at its allocation (R235). -/
theorem freshSlot_ok (a : Arrival) (size : BitVec 11) (tag : BitVec 16) (now : Time) (hs : size ≠ 0)
    (hn : a.now ≤ now) : (freshSlot a size tag).Ok now := by
  have hpos : 1 ≤ size.toNat := Nat.pos_of_ne_zero fun h0 => hs (BitVec.eq_of_toNat_eq h0)
  exact ⟨hpos, Memory.wf_nil, fun _ _ => rfl, ⟨0, hpos, rfl⟩, hn⟩

/-- Bytes written below the size into a slot that stays incomplete (R238, R240). -/
theorem Slot.Ok.write {sl : Slot} {now : Time} {off : Nat} {data : List Byte} (h : sl.Ok now)
    (hfit : off + data.length ≤ sl.size.toNat)
    (hmiss : Memory.readRun (Memory.writeRun sl.data off data) 0 sl.size.toNat = none) :
    ({ sl with data := Memory.writeRun sl.data off data } : Slot).Ok now :=
  { h with
    data_wf := Memory.wf_writeRun data sl.data off h.data_wf
    data_bound := fun k (hk : sl.size.toNat ≤ k) => by
      rw [Memory.read_writeRun, if_neg (by omega)]
      exact h.data_bound k hk
    incomplete := by simpa using (Memory.readRun_eq_none _ _ _).1 hmiss }

theorem Slot.Ok.later {sl : Slot} {t now : Time} (h : sl.Ok t) (hn : t ≤ now) : sl.Ok now :=
  { h with created := h.created.trans hn }

/-- A slot written and then freed is a slot freed. -/
theorem State.freeSlot_putSlot (s : State) (i : Nat) (sl : Slot) : (s.putSlot i sl).freeSlot i = s.freeSlot i := by
  simp [State.freeSlot, State.putSlot]

-- ## The in-flight send (R31, R214 to R216)

theorem uncompressed_ne_nil (p : List Byte) : uncompressed p ≠ [] := List.cons_ne_nil _ _

theorem compress_ne_nil (c : Config) (t : CtxTable) (p : List Byte) (srcLl dstLl : LLAddr) :
    compress c t p srcLl dstLl ≠ [] := by
  simp only [compress]
  split
  · exact List.cons_ne_nil _ _
  · exact uncompressed_ne_nil p

theorem State.datagramOf_length_pos (s : State) (destLl : LLAddr) (p : List Byte) :
    0 < (s.datagramOf destLl p).length := by
  refine List.length_pos_of_ne_nil ?_
  unfold State.datagramOf
  split
  · exact compress_ne_nil _ _ _ _ _
  · exact uncompressed_ne_nil p

theorem firstSlice_le_linkMtu (c : Config) : firstSlice c ≤ c.linkMtu := by
  unfold firstSlice
  omega

theorem firstSlice_mod_eight (c : Config) : firstSlice c % 8 = 0 := by
  unfold firstSlice
  omega

/-- A subsequent fragment takes all the bytes left, or a middle slice, a multiple of 8 that leaves bytes over (R216). -/
theorem nextSlice_cases (c : Config) (d : List Byte) (off : Nat) :
    nextSlice c d off = d.length - off ∨ (nextSlice c d off < d.length - off ∧ nextSlice c d off % 8 = 0) := by
  unfold nextSlice middleSlice
  split <;> omega

/-- A handed-over frame keeps the cursor where it is. -/
theorem InFlight.Ok.withAwaiting {f : InFlight} {c : Config} (h : f.Ok c) (b : Bool) :
    ({ f with awaiting := b } : InFlight).Ok c := { h with }

/-- The cursor after an accepted frame that is not the last (R264). -/
theorem InFlight.Ok.advance {f : InFlight} {c : Config} (h : f.Ok c)
    (hmore : f.nextOff + (sendFrame c f).2 ≠ f.datagram.length) :
    ({ f with nextOff := f.nextOff + (sendFrame c f).2, awaiting := false } : InFlight).Ok c := by
  have hrem := h.remains
  cases hfr : f.fragmented with
  | false =>
    obtain ⟨h0, -⟩ := h.whole hfr
    exact absurd (by simp [sendFrame, hfr, h0]) hmore
  | true =>
    obtain ⟨hlong, hmax, hmod⟩ := h.parts hfr
    suffices hcur : f.nextOff + (sendFrame c f).2 < f.datagram.length ∧ (f.nextOff + (sendFrame c f).2) % 8 = 0 from
      ⟨hcur.1, nofun, fun _ => ⟨hlong, hmax, hcur.2⟩⟩
    by_cases h0 : f.nextOff = 0
    · have hs : (sendFrame c f).2 = firstSlice c := by simp [sendFrame, hfr, h0]
      have hle := firstSlice_le_linkMtu c
      have hmod8 := firstSlice_mod_eight c
      omega
    · have hs : (sendFrame c f).2 = nextSlice c f.datagram f.nextOff := by simp [sendFrame, hfr, h0]
      have := nextSlice_cases c f.datagram f.nextOff
      omega

-- ## The invariant of an empty block

/-- With nothing in the pool, the table, the registry and the transmit queue, the parameters decide the invariant. -/
theorem State.inv_of_empty (s : State) (hc : s.cfg.Ok) (hslots : s.slots = List.replicate s.cfg.nSlots none)
    (hlru : s.lru = []) (hctx : s.ctx = Vector.replicate 16 none) (hreg : s.reg = List.replicate s.cfg.maxConsumers none)
    (herr : s.lastErr = 0) (htxq : s.txq = .idle) (hwait : s.initDone = false → s.sendWait = []) : s.Inv := by
  have hempty : ∀ i, s.slotAt i = none := fun i => by
    simp only [State.slotAt, hslots, List.getElem?_replicate]
    split <;> rfl
  exact {
    cfg_ok := hc
    slots_len := by simp [hslots]
    slot_ok := by simp [hempty]
    keys := by simp [hempty]
    lru_nodup := by simp [hlru]
    lru_filling := by simp [hlru, hempty]
    ctx_count := by simp [hctx, ctxCount_empty]
    ctx_len := by simp [hctx, ctxEntry_empty]
    reg_len := by simp [hreg]
    reg_dense := fun j k _ hj hv => absurd (by simpa [hreg, List.getElem?_replicate] using hj) hv
    reg_nodup := by simp [hreg]
    lastErr_le := by simp [herr]
    tx_ok := by simp [htxq]
    uninit := fun hi => ⟨htxq, hwait hi⟩ }

-- ## One rule per operation on the state

section Rules
variable {s : State}

theorem State.Inv.withInputs (h : s.Inv) (l : List Event) : ({ s with inputs := l } : State).Inv := { h with }

theorem State.Inv.withHcEn (h : s.Inv) (e : Bool) : ({ s with hcEn := e } : State).Inv := { h with }

theorem State.Inv.emit (h : s.Inv) (o : Output) : (s.emit o).Inv := { h with }

theorem State.Inv.ret (h : s.Inv) (op : Byte) (st : Status) (v : RetVal) : (s.ret op st v).Inv := h.emit _

theorem State.Inv.deliver (h : s.Inv) (p : List Byte) : (s.deliver p).Inv := { h with }

theorem State.Inv.countEvictLru (h : s.Inv) : s.countEvictLru.Inv := { h with }

theorem State.Inv.countEvictCorrupt (h : s.Inv) : s.countEvictCorrupt.Inv := { h with }

theorem State.Inv.countTimeout (h : s.Inv) : s.countTimeout.Inv := { h with }

theorem State.Inv.drop (h : s.Inv) {e : Status} (he : e.code.toNat ≤ 0x0A) : (s.drop e).Inv :=
  { h with lastErr_le := he }

/-- Time goes on: a slot's creation stays in the past (R304). -/
theorem State.Inv.withNow (h : s.Inv) {now : Time} (hn : s.lastNow ≤ now) : ({ s with lastNow := now } : State).Inv :=
  { h with slot_ok := fun i sl hsl => (h.slot_ok i sl hsl).later hn }

theorem State.Inv.freeSlot (h : s.Inv) (i : Nat) : (s.freeSlot i).Inv := by
  have hkeep : ∀ j sl, (s.freeSlot i).slotAt j = some sl → s.slotAt j = some sl := fun j sl hj => by
    rw [State.slotAt_freeSlot] at hj
    split at hj
    · cases hj
    · exact hj
  exact { h with
    slots_len := by simpa using h.slots_len
    slot_ok := fun j sl hj => h.slot_ok j sl (hkeep j sl hj)
    keys := fun j k a b hj hk => h.keys j k a b (hkeep j a hj) (hkeep k b hk)
    lru_nodup := h.lru_nodup.filter _
    lru_filling := fun j => by
      rw [State.slotAt_freeSlot, State.freeSlot_lru, List.mem_filter, h.lru_filling]
      by_cases hj : j = i <;> simp [hj] }

/-- A slot may be written where its key is the key of no other slot (R26 b). -/
theorem State.Inv.putSlot (h : s.Inv) {i : Nat} {sl : Slot} (hi : i < s.slots.length) (hsl : sl.Ok s.lastNow)
    (hkey : ∀ j b, s.slotAt j = some b → b.srcLl = sl.srcLl → b.tag = sl.tag → j = i) : (s.putSlot i sl).Inv := by
  have hat : ∀ j b, (s.putSlot i sl).slotAt j = some b → (j = i ∧ b = sl) ∨ (j ≠ i ∧ s.slotAt j = some b) :=
    fun j b hj => by
      rw [State.slotAt_putSlot s i j sl hi] at hj
      split at hj
      · next hji => exact .inl ⟨hji, (Option.some.inj hj).symm⟩
      · next hji => exact .inr ⟨hji, hj⟩
  exact { h with
    slots_len := by simpa using h.slots_len
    slot_ok := fun j b hj => by
      obtain ⟨-, rfl⟩ | ⟨-, hj⟩ := hat j b hj
      · exact hsl
      · exact h.slot_ok j b hj
    keys := fun j k a b hj hk hsrc htag => by
      obtain ⟨rfl, rfl⟩ | ⟨-, hj'⟩ := hat j a hj <;> obtain ⟨rfl, rfl⟩ | ⟨-, hk'⟩ := hat k b hk
      · rfl
      · exact (hkey k b hk' hsrc.symm htag.symm).symm
      · exact hkey j a hj' hsrc htag
      · exact h.keys j k a b hj' hk' hsrc htag
    lru_nodup := by simpa using h.lru_nodup.filter _
    lru_filling := fun j => by
      rw [State.slotAt_putSlot s i j sl hi, State.putSlot_lru, List.mem_cons, List.mem_filter, h.lru_filling]
      by_cases hj : j = i <;> simp [hj] }

/-- A context entry may be replaced where the count stays within CTX_CAP and the length is at most 128 (R145). -/
theorem State.Inv.withCtx (h : s.Inv) {id : BitVec 4} {e : Option CtxEntry}
    (hcount : ctxCount (setCtx s.ctx id e) ≤ s.cfg.ctxCap) (hlen : ∀ x, e = some x → x.len.toNat ≤ 128) :
    ({ s with ctx := setCtx s.ctx id e } : State).Inv :=
  { h with
    ctx_count := hcount
    ctx_len := fun k x hx => by
      rw [ctxEntry_setCtx] at hx
      split at hx
      · exact hlen x hx
      · exact h.ctx_len k x hx }

/-- A successful registration fills the lowest invalid entry with a handle not yet there (R272, R273). -/
theorem State.Inv.withReg (h : s.Inv) {handle : Handle} {r : List (Option Handle)}
    (hr : registerIn handle s.reg = .ok r) : ({ s with reg := r } : State).Inv := by
  obtain ⟨-, he⟩ | ⟨-, -, he⟩ | ⟨hnew, m, hm, hlow, he⟩ := registerIn_cases handle s.reg
  · cases he.symm.trans hr
  · cases he.symm.trans hr
  obtain rfl := Except.ok.inj (he.symm.trans hr)
  exact { h with
    reg_len := by simpa using h.reg_len
    reg_dense := fun j k hkj hj hv => by
      have hj' : j < s.reg.length := by simpa using hj
      simp only [List.getElem?_set] at hv ⊢
      by_cases hkm : m = k
      · simp [hkm, hkj.trans hj']
      · rw [if_neg hkm]
        by_cases hjm : m = j
        · exact hlow k (hjm ▸ hkj)
        · exact h.reg_dense j k hkj hj' (by simpa [hjm] using hv)
    reg_nodup := (filterMap_set_perm s.reg m handle hm).nodup_iff.2
      (List.nodup_cons.2 ⟨by simpa using hnew, h.reg_nodup⟩) }

/-- The transmit queue and the waiting SENDs may change in an initialised block. -/
theorem State.Inv.withTx (h : s.Inv) (hi : s.initDone = true) {q : TxQueue} (hq : ∀ f, q = .busy f → f.Ok s.cfg)
    (tag : BitVec 16) (w : List (LLAddr × List Byte)) :
    ({ s with tagCtr := tag, txq := q, sendWait := w } : State).Inv :=
  { h with tx_ok := hq, uninit := fun hn => by simp [hi] at hn }

theorem State.Inv.setup (h : s.Inv) (localLl : LLAddr) (isBr : Bool) : (s.setup localLl isBr).Inv :=
  State.inv_of_empty _ h.cfg_ok rfl rfl rfl rfl rfl rfl nofun

end Rules

-- ## The instructions

/-- From a state that keeps the invariant, the operation's next state keeps it. -/
def KeepsInv (k : State → Result) : Prop := ∀ s s', s.Inv → k s = .next s' → s'.Inv

-- ### Setup, configuration and status

theorem execInit_keepsInv (localLl : LLAddr) (isBr : Bool) : KeepsInv (execInit localLl isBr) := fun s s' h he => by
  unfold execInit at he
  split at he
  · cases he
  · cases he; exact (h.setup localLl isBr).ret _ _ _

theorem execInitRouter_keepsInv (pfx : BitVec 128) (len : Byte) (localLl : LLAddr) :
    KeepsInv (execInitRouter pfx len localLl) := fun s s' h he => by
  simp only [execInitRouter] at he
  split at he
  · cases he
  · split at he
    · cases he; exact h.ret _ _ _
    · next hlen =>
      cases he
      have hcount : ctxCount (setCtx (Vector.replicate 16 none) 0 (some ⟨pfx, len⟩)) ≤ s.cfg.ctxCap := by
        simpa [ctxCount_setCtx, ctxCount_empty] using h.cfg_ok.ctxCap_pos
      refine ((h.setup localLl true).withCtx hcount ?_).ret _ _ _
      rintro _ ⟨⟩
      simpa [badLen] using hlen

theorem execSetHc_keepsInv (enable : Bool) : KeepsInv (execSetHc enable) := fun s s' h he => by
  simp only [execSetHc] at he
  split at he
  · cases he; exact h.ret _ _ _
  · cases he; exact (h.withHcEn enable).ret _ _ _

theorem execRegister_keepsInv (handle : Handle) : KeepsInv (execRegister handle) := fun s s' h he => by
  simp only [execRegister] at he
  split at he
  · cases he; exact h.ret _ _ _
  · split at he
    · cases he; exact h.ret _ _ _
    · next hr => cases he; exact (h.withReg hr).ret _ _ _

theorem execReadStatus_keepsInv : KeepsInv execReadStatus := fun s s' h he => by
  unfold execReadStatus at he
  split at he <;> (cases he; exact h.ret _ _ _)

theorem execBadOp_keepsInv (code : Byte) : KeepsInv (execBadOp code) := fun s s' h he => by
  cases he; exact h.ret _ _ _

-- ### The context table

theorem execCtxLookup_keepsInv (id : Byte) : KeepsInv (execCtxLookup id) := fun s s' h he => by
  unfold execCtxLookup at he
  split at he
  · cases he; exact h.ret _ _ _
  · split at he <;> (cases he; exact h.ret _ _ _)

/-- The full test of R141 is what keeps the count within CTX_CAP. -/
theorem ctxCount_insert_le {t : CtxTable} {id : BitVec 4} {cap : Nat} (x : CtxEntry) (h : ctxCount t ≤ cap)
    (hfull : ¬(ctxEntry t id = none ∧ ctxCount t = cap)) : ctxCount (setCtx t id (some x)) ≤ cap := by
  have hle := isSome_toNat_le_ctxCount t id
  rw [ctxCount_setCtx]
  cases he : ctxEntry t id with
  | none => simp [he] at hfull ⊢; omega
  | some _ => simp [he] at hle ⊢; omega

theorem execCtxInsert_keepsInv (id : Byte) (pfx : BitVec 128) (len : Byte) : KeepsInv (execCtxInsert id pfx len) :=
  fun s s' h he => by
    simp only [execCtxInsert] at he
    split at he
    · cases he; exact h.ret _ _ _
    · split at he
      · cases he; exact h.ret _ _ _
      · next hbad =>
        split at he
        · cases he; exact h.ret _ _ _
        · next hfull =>
          cases he
          refine (h.withCtx (ctxCount_insert_le _ h.ctx_count hfull) ?_).ret _ _ _
          rintro _ ⟨⟩
          have hlen : badLen len = false := (Bool.or_eq_false_iff.1 (Bool.not_eq_true _ ▸ hbad)).2
          simpa [badLen] using hlen

theorem execCtxRemove_keepsInv (id : Byte) : KeepsInv (execCtxRemove id) := fun s s' h he => by
  simp only [execCtxRemove] at he
  split at he
  · cases he; exact h.ret _ _ _
  · split at he
    · cases he; exact h.ret _ _ _
    · cases he
      have hcount : ctxCount (setCtx s.ctx (ctxId id) none) ≤ s.cfg.ctxCap := by
        have := h.ctx_count
        simp only [ctxCount_setCtx, Option.isSome_none, Bool.toNat_false]
        omega
      exact (h.withCtx hcount nofun).ret _ _ _

-- ### The send path

theorem State.Inv.startSend {s : State} (h : s.Inv) (hi : s.initDone = true) (destLl : LLAddr) (p : List Byte) :
    (s.startSend destLl p).Inv := by
  have hpos := s.datagramOf_length_pos destLl p
  obtain ⟨hfit, he⟩ | ⟨-, -, he⟩ | ⟨hlong, hmax, he⟩ := s.startSend_cases destLl p <;> rw [he]
  · refine h.withTx hi ?_ _ _
    rintro _ ⟨⟩
    exact ⟨hpos, fun _ => ⟨rfl, hfit⟩, nofun⟩
  · exact h.ret _ _ _
  · refine h.withTx hi ?_ _ _
    rintro _ ⟨⟩
    exact ⟨hpos, nofun, fun _ => ⟨hlong, hmax, rfl⟩⟩

theorem execSend_keepsInv (destLl : LLAddr) (p : List Byte) : KeepsInv (execSend destLl p) := fun s s' h he => by
  unfold execSend at he
  split at he
  · cases he; exact h.ret _ _ _
  · next hi =>
    have hi : s.initDone = true := by simpa using hi
    split at he
    · cases he; exact h.startSend hi destLl p
    · cases he; exact h.withTx hi h.tx_ok _ _

/-- Whatever is being sent or waits to be, the block is initialised (R35, R268). -/
theorem State.Inv.initDone_of_tx {s : State} (h : s.Inv) (hq : s.txq ≠ .idle ∨ s.sendWait ≠ []) : s.initDone = true := by
  cases hi : s.initDone with
  | true => rfl
  | false =>
    obtain ⟨hidle, hnone⟩ := h.uninit hi
    exact absurd hidle (hq.resolve_right (not_not.2 hnone))

theorem txStep_keepsInv : KeepsInv txStep := fun s s' h he => by
  obtain ⟨f, -, -, hs⟩ | ⟨f, hf, -, hs⟩ | ⟨-, -, hs⟩ | ⟨d, p, rest, -, hw, hs⟩ := txStep_cases s <;>
    cases he.symm.trans hs
  · exact h
  · have hi := h.initDone_of_tx (.inl (by simp [hf]))
    refine (h.withTx hi ?_ _ _).emit _
    rintro _ ⟨⟩
    exact (h.tx_ok f hf).withAwaiting true
  · exact h
  · have hi := h.initDone_of_tx (.inr (by simp [hw]))
    exact (h.withTx hi h.tx_ok _ rest).startSend hi d p

theorem txAnswer_keepsInv (ok : Bool) : KeepsInv (txAnswer ok) := fun s s' h he => by
  obtain ⟨f, hf, -, hcases⟩ := txAnswer_next ok s s' he
  have hi := h.initDone_of_tx (.inl (by simp [hf]))
  obtain ⟨-, rfl⟩ | ⟨-, -, rfl⟩ | ⟨-, hmore, rfl⟩ := hcases
  · exact (h.withTx hi (q := .idle) nofun _ _).ret _ _ _
  · exact (h.withTx hi (q := .idle) nofun _ _).ret _ _ _
  · refine h.withTx hi ?_ _ _
    rintro _ ⟨⟩
    exact (h.tx_ok f hf).advance hmore

-- ### The receive path: whole datagrams

section Receive
variable {s : State}

theorem State.Inv.deliverUncompressed (h : s.Inv) (p : List Byte) : (s.deliverUncompressed p).Inv := by
  unfold State.deliverUncompressed
  split
  · exact h.drop (by decide)
  · exact h.deliver p

theorem State.Inv.deliverOrDrop (h : s.Inv) {x : Except Status (List Byte)} (hx : ErrorsAreDrops x) :
    (s.deliverOrDrop x).Inv := by
  cases x with
  | ok p => exact h.deliver p
  | error e => exact h.drop (hx.code_le e rfl)

theorem State.Inv.processDatagram (h : s.Inv) (dg : List Byte) (srcLl dstLl : LLAddr) :
    (s.processDatagram dg srcLl dstLl).Inv := by
  unfold State.processDatagram
  split
  case h_1 => exact h.deliverUncompressed _
  case h_2 => exact h.deliverOrDrop (decompress_errorsAreDrops ..)
  all_goals exact h.drop (by decide)

-- ### The receive path: fragments

theorem State.Inv.failSlot (h : s.Inv) (m : Option (Nat × Slot)) : (s.failSlot m).Inv := by
  cases m with
  | none => exact h
  | some m => exact (h.freeSlot m.1).countEvictCorrupt

theorem State.Inv.storeFragment (h : s.Inv) {i : Nat} {sl : Slot} {off : Nat} {data : List Byte}
    (hi : i < s.slots.length) (hsl : sl.Ok s.lastNow) (hfit : off + data.length ≤ sl.size.toNat)
    (hkey : ∀ j b, s.slotAt j = some b → b.srcLl = sl.srcLl → b.tag = sl.tag → j = i) (dstLl : LLAddr) :
    (s.storeFragment i sl off data dstLl).Inv := by
  obtain ⟨hmiss, he⟩ | ⟨dg, -, he⟩ := s.storeFragment_cases i sl off data dstLl <;> rw [he]
  · exact h.putSlot hi (hsl.write hfit hmiss) hkey
  · rw [State.freeSlot_putSlot]
    exact (h.freeSlot i).processDatagram dg _ _

/-- The slot a new key takes lies in the pool, and choosing it brings in no key and moves no clock (R235, R236). -/
theorem State.Inv.chooseSlot (h : s.Inv) {i : Nat} {s1 : State} (hc : s.chooseSlot = some (i, s1)) :
    s1.Inv ∧ i < s1.slots.length ∧ s1.lastNow = s.lastNow ∧ ∀ j b, s1.slotAt j = some b → s.slotAt j = some b := by
  obtain ⟨he, rfl⟩ | ⟨-, hlast, rfl⟩ := State.chooseSlot_cases s i s1 hc
  · obtain ⟨-, hi, -⟩ := findEmpty_some s1.slots 0 i he
    exact ⟨h, (List.getElem?_eq_some_iff.1 hi).1, rfl, fun _ _ hb => hb⟩
  · obtain ⟨sl, hsl⟩ := Option.isSome_iff_exists.1 ((h.lru_filling i).1 (List.mem_of_getLast? hlast))
    refine ⟨(h.freeSlot i).countEvictLru, by simpa using State.slotAt_lt hsl, rfl, fun j b hb => ?_⟩
    have hb : (s.freeSlot i).slotAt j = some b := hb
    rw [State.slotAt_freeSlot] at hb
    split at hb
    · cases hb
    · exact hb

/-- REASSEMBLE, once the frame's time is taken. -/
theorem reassemble_inv (h : s.Inv) {a : Arrival} (ha : a.now ≤ s.lastNow) {size : BitVec 11} {tag : BitVec 16}
    {off : Nat} {data : List Byte} {s' : State} (he : reassemble a size tag off data s = .next s') : s'.Inv := by
  obtain ⟨-, rfl⟩ | ⟨-, -, rfl⟩ | ⟨-, -, i, sl, -, -, rfl⟩ | ⟨-, hfit, i, sl, hm, rfl, rfl⟩ |
    ⟨h0, hfit, hm, i, s1, hc, rfl⟩ := reassemble_next a size tag off data s s' he
  · exact h.drop (by decide)
  · exact (h.failSlot _).drop (by decide)
  · exact (h.freeSlot i).countEvictCorrupt.drop (by decide)
  · obtain ⟨hi, hat, -, -⟩ := s.matchSlot_some _ _ i sl hm
    exact h.storeFragment hi (h.slot_ok i sl hat) hfit (fun j b hb => h.keys j i b sl hb hat) _
  · obtain ⟨h1, hi, hnow, hat⟩ := h.chooseSlot hc
    have hnew := (s.matchSlot_none _ _).1 hm
    exact h1.storeFragment hi (freshSlot_ok a size tag _ h0 (hnow ▸ ha)) hfit
      (fun j b hb hsrc htag => absurd ⟨hsrc, htag⟩ (hnew j b (hat j b hb))) _

end Receive

-- ### The receive path: arrivals

/-- An arrival keeps the invariant when what is done with the admitted frame keeps it, the time being taken. -/
theorem withTime_keepsInv (now : Time) (k : State → Result)
    (hk : ∀ s s', s.Inv → now ≤ s.lastNow → k s = .next s' → s'.Inv) : KeepsInv (withTime now k) :=
  fun s s' h he => by
    obtain ⟨-, rfl⟩ | ⟨-, hn, he⟩ := withTime_next now k s s' he
    · exact h
    · exact hk _ s' (h.withNow hn) (Nat.le_refl now) he

theorem withFrame_keepsInv (a : Arrival) (len : Nat) (k : State → Result)
    (hk : ∀ s s', s.Inv → a.now ≤ s.lastNow → k s = .next s' → s'.Inv) : KeepsInv (withFrame a len k) :=
  fun s s' h he => by
    obtain ⟨-, rfl⟩ | ⟨-, -, hn, he⟩ := withFrame_next a len k s s' he
    · exact h
    · exact hk _ s' (h.withNow hn) (Nat.le_refl a.now) he

theorem execRxFrame_keepsInv (f : List Byte) (a : Arrival) : KeepsInv (execRxFrame f a) :=
  withFrame_keepsInv a f.length (receiveFrame f a) fun s s' h ha he => by
    unfold receiveFrame at he
    split at he
    · cases he; exact h.drop (by decide)
    · cases he; exact h.drop (by decide)
    · exact reassemble_inv h ha he
    · exact reassemble_inv h ha he
    · cases he; exact h.processDatagram f _ _
    · cases he; exact h.processDatagram f _ _

theorem execIpv6Uncomp_keepsInv (a : Arrival) (packet : List Byte) : KeepsInv (execIpv6Uncomp a packet) :=
  withFrame_keepsInv a _ _ fun s s' h _ he => by
    cases he; exact h.deliverUncompressed packet

theorem execIphc_keepsInv (a : Arrival) (base : IphcBase) (rest : List Byte) : KeepsInv (execIphc a base rest) :=
  withFrame_keepsInv a _ _ fun s s' h _ he => by
    cases he; exact h.deliverOrDrop (decompressBody_errorsAreDrops ..)

theorem execFrag1_keepsInv (a : Arrival) (x : BitVec 2) (size : BitVec 11) (tag : BitVec 16) (payload : List Byte) :
    KeepsInv (execFrag1 a x size tag payload) :=
  withFrame_keepsInv a _ _ fun _ _ h ha he => reassemble_inv h ha he

theorem execFragN_keepsInv (a : Arrival) (x : BitVec 2) (size : BitVec 11) (tag : BitVec 16) (offset8 : Byte)
    (payload : List Byte) : KeepsInv (execFragN a x size tag offset8 payload) :=
  withFrame_keepsInv a _ _ fun _ _ h ha he => reassemble_inv h ha he

theorem execUnknown_keepsInv (a : Arrival) (first : Byte) (rest : List Byte) : KeepsInv (execUnknown a first rest) :=
  withFrame_keepsInv a _ _ fun s s' h _ he => by
    cases he; exact h.drop (by decide)

theorem rxTruncated_keepsInv (a : Arrival) (len : Nat) : KeepsInv (rxTruncated a len) :=
  withFrame_keepsInv a _ _ fun s s' h _ he => by
    cases he; exact h.drop (by decide)

theorem execNhcUdp_keepsInv (o : NhcOuter) (p : BitVec 2) (rest : List Byte) : KeepsInv (execNhcUdp o p rest) :=
  fun s s' h he => by
    unfold execNhcUdp at he
    split at he
    · cases he; exact h
    · split at he
      · cases he; exact h.drop (by decide)
      · cases he; exact h.deliverOrDrop (decUdp_errorsAreDrops ..)

theorem nhcUndecoded_keepsInv (e : DecodeError) : KeepsInv (nhcUndecoded e) := fun s s' h he => by
  unfold nhcUndecoded at he
  split at he
  · cases he; exact h
  · split at he
    · cases he; exact h.drop (by decide)
    · cases e <;> (cases he; exact h.drop (by decide))

-- ### TICK

theorem tickSlot_inv (now : Time) {s : State} (h : s.Inv) (i : Nat) : (tickSlot now s i).Inv := by
  unfold tickSlot
  split
  · split
    · exact (h.freeSlot i).countTimeout
    · exact h
  · exact h

theorem foldl_tickSlot_inv (now : Time) (l : List Nat) {s : State} (h : s.Inv) : (l.foldl (tickSlot now) s).Inv := by
  induction l generalizing s with
  | nil => exact h
  | cons i l ih => exact ih (tickSlot_inv now h i)

theorem execTick_keepsInv (now : Time) : KeepsInv (execTick now) :=
  withTime_keepsInv now _ fun s s' h _ he => by
    cases he; exact foldl_tickSlot_inv now _ h

-- ## Every step

theorem exec_keepsInv (i : Instr) : KeepsInv (exec i) := by
  cases i with
  | init localLl isBr => exact execInit_keepsInv localLl isBr
  | initRouter pfx len localLl => exact execInitRouter_keepsInv pfx len localLl
  | send destLl packet => exact execSend_keepsInv destLl packet
  | setHc enable => exact execSetHc_keepsInv enable
  | register handle => exact execRegister_keepsInv handle
  | ctxLookup id => exact execCtxLookup_keepsInv id
  | ctxInsert id pfx len => exact execCtxInsert_keepsInv id pfx len
  | ctxRemove id => exact execCtxRemove_keepsInv id
  | readStatus => exact execReadStatus_keepsInv
  | rxFrame frame a => exact execRxFrame_keepsInv frame a
  | tick now => exact execTick_keepsInv now
  | badOp code => exact execBadOp_keepsInv code
  | ipv6Uncomp a packet => exact execIpv6Uncomp_keepsInv a packet
  | iphc a base rest => exact execIphc_keepsInv a base rest
  | frag1 a x size tag payload => exact execFrag1_keepsInv a x size tag payload
  | fragN a x size tag offset8 payload => exact execFragN_keepsInv a x size tag offset8 payload
  | unknown a first rest => exact execUnknown_keepsInv a first rest
  | nhcUdp outer p rest => exact execNhcUdp_keepsInv outer p rest

theorem undecoded_keepsInv (t : Txn) (e : DecodeError) : KeepsInv (undecoded t e) := by
  cases t with
  | op code args => exact execBadOp_keepsInv code
  | frame bytes a => exact rxTruncated_keepsInv a bytes.length
  | nhc bytes outer => exact nhcUndecoded_keepsInv e

theorem runTxn_keepsInv (t : Txn) : KeepsInv (runTxn t) := fun s s' h he => by
  unfold runTxn at he
  split at he
  · exact exec_keepsInv _ s s' h he
  · exact undecoded_keepsInv t _ s s' h he

theorem step_keepsInv : KeepsInv step := fun s s' h he => by
  cases hin : s.inputs with
  | nil => cases he.symm.trans (step_nil s hin); exact h
  | cons ev rest =>
    have h0 := h.withInputs rest
    cases ev with
    | txn t => exact runTxn_keepsInv t _ s' h0 (step_txn s t rest hin ▸ he)
    | tx => exact txStep_keepsInv _ s' h0 (step_tx s rest hin ▸ he)
    | answer ok => exact txAnswer_keepsInv ok _ s' h0 (step_answer s ok rest hin ▸ he)

-- ## The obligations

/-- Settles O54: hardware reset leaves an empty block. -/
theorem resetKeepsTheInvariant : Obligations.ResetKeepsTheInvariant := fun c hc =>
  State.inv_of_empty (State.resetWith c) hc rfl rfl rfl rfl rfl rfl fun _ => rfl

/-- Settles O56, by the input the step takes and the rule of each operation on the state. -/
theorem everyStepKeepsTheInvariant : Obligations.EveryStepKeepsTheInvariant := step_keepsInv

end Sys2Proof.Machine

/-! The memory family: what the step does with the input it takes (spec/20_memory.md R65, R68, R70, R71). First one
equation per branch of the transmit side, for the in-flight SEND that reads no configuration (O18); then the decoder's
ranges of the first byte and the preconditions of an arrival, for what a step does with a transaction (O52). -/

namespace Sys2Proof.Machine

-- ## The transmit side while a SEND is in flight (R264)

section InFlight
variable {s : State} {f : InFlight}

theorem txStep_awaiting (hq : s.txq = .busy f) (ha : f.awaiting = true) : txStep s = .next s := by
  simp [txStep, hq, ha]

theorem txStep_handOver (hq : s.txq = .busy f) (ha : f.awaiting = false) :
    txStep s =
      .next ({ s with txq := .busy { f with awaiting := true } }.emit (.txf f.destLl (sendFrame s.cfg f).1)) := by
  simp [txStep, hq, ha]

theorem txAnswer_fail (hq : s.txq = .busy f) (ha : f.awaiting = true) :
    txAnswer false s = .next ({ s with txq := .idle }.ret 0x03 .transceiver) := by
  simp [txAnswer, hq, ha]

theorem txAnswer_last (hq : s.txq = .busy f) (ha : f.awaiting = true)
    (hend : f.nextOff + (sendFrame s.cfg f).2 = f.datagram.length) :
    txAnswer true s = .next ({ s with txq := .idle }.ret 0x03 .ok) := by
  simp [txAnswer, hq, ha, hend]

theorem txAnswer_more (hq : s.txq = .busy f) (ha : f.awaiting = true)
    (hmore : f.nextOff + (sendFrame s.cfg f).2 ≠ f.datagram.length) :
    txAnswer true s =
      .next { s with txq := .busy { f with nextOff := f.nextOff + (sendFrame s.cfg f).2, awaiting := false } } := by
  simp [txAnswer, hq, ha, hmore]

/-- The emit step uses the datagram fixed when the SEND started (R70), so HC_EN and the context table pass through. -/
theorem txStep_ignores_configuration {s' : State} (e : Bool) (t : CtxTable) (hq : s.txq = .busy f)
    (h : txStep s = .next s') : txStep { s with hcEn := e, ctx := t } = .next { s' with hcEn := e, ctx := t } := by
  cases ha : f.awaiting with
  | true =>
    cases h.symm.trans (txStep_awaiting hq ha)
    exact txStep_awaiting hq ha
  | false =>
    cases h.symm.trans (txStep_handOver hq ha)
    exact txStep_handOver hq ha

/-- The answer moves a cursor that the parameters and the fixed datagram decide. -/
theorem txAnswer_ignores_configuration {s' : State} (ok e : Bool) (t : CtxTable) (h : txAnswer ok s = .next s') :
    txAnswer ok { s with hcEn := e, ctx := t } = .next { s' with hcEn := e, ctx := t } := by
  obtain ⟨f, hq, ha, ⟨rfl, rfl⟩ | ⟨rfl, hend, rfl⟩ | ⟨rfl, hmore, rfl⟩⟩ := txAnswer_next ok s s' h
  · exact txAnswer_fail hq ha
  · exact txAnswer_last hq ha hend
  · exact txAnswer_more hq ha hmore

end InFlight

/-- Settles O18, by the transmit step and the answer, neither of which reads HC_EN or the table. -/
theorem inFlightSendIgnoresConfiguration : Obligations.InFlightSendIgnoresConfiguration := by
  unfold Obligations.InFlightSendIgnoresConfiguration
  rintro s s' f rest e t hq (hin | ⟨ok, hin⟩) hstep
  · rw [step_tx s rest hin] at hstep
    rw [step_tx { s with hcEn := e, ctx := t } rest hin]
    exact txStep_ignores_configuration (s := { s with inputs := rest }) e t hq hstep
  · rw [step_answer s ok rest hin] at hstep
    rw [step_answer { s with hcEn := e, ctx := t } ok rest hin]
    exact txAnswer_ignores_configuration (s := { s with inputs := rest }) ok e t hstep

-- ## The first byte of a frame and of an NHC stage (R91, R107, R130)

/-- The three top bits of a byte, which select its dispatch class, as a part of its value. -/
theorem extractTop_eq_iff (b : Byte) (k : BitVec 3) : b.extractLsb' 5 3 = k ↔ b.toNat / 32 = k.toNat := by
  have htop : (b.extractLsb' 5 3).toNat = b.toNat / 32 := by
    rw [BitVec.extractLsb'_toNat, Nat.shiftRight_eq_div_pow]
    omega
  rw [← BitVec.toNat_inj, htop]

/-- The classes as ranges of the first byte (R91, R130). -/
theorem classOfByte_eq_ranges (b : Byte) :
    classOfByte b =
      if b.toNat = 0x41 then (.ipv6Uncomp, uncompHdrLen)
      else if 0x60 ≤ b.toNat ∧ b.toNat ≤ 0x7F then (.iphc, iphcBaseLen)
      else if 0xC0 ≤ b.toNat ∧ b.toNat ≤ 0xDF then (.frag1, frag1HdrLen)
      else if 0xE0 ≤ b.toNat then (.fragN, fragNHdrLen)
      else (.unknown, 0) := by
  have h41 : b = 0x41 ↔ b.toNat = 0x41 := (BitVec.toNat_inj (y := 0x41)).symm
  have hiphc : b.extractLsb' 5 3 = 0b011 ↔ 0x60 ≤ b.toNat ∧ b.toNat ≤ 0x7F :=
    (extractTop_eq_iff b _).trans (show b.toNat / 32 = 3 ↔ _ by omega)
  have hfrag1 : b.extractLsb' 5 3 = 0b110 ↔ 0xC0 ≤ b.toNat ∧ b.toNat ≤ 0xDF :=
    (extractTop_eq_iff b _).trans (show b.toNat / 32 = 6 ↔ _ by omega)
  have hfragN : b.extractLsb' 5 3 = 0b111 ↔ 0xE0 ≤ b.toNat :=
    (extractTop_eq_iff b _).trans (show b.toNat / 32 = 7 ↔ _ by omega)
  simp only [classOfByte, h41, hiphc, hfrag1, hfragN]

theorem classOfByte_iphc {b : Byte} (h : 0x60 ≤ b.toNat ∧ b.toNat ≤ 0x7F) : classOfByte b = (.iphc, iphcBaseLen) := by
  rw [classOfByte_eq_ranges, if_neg (by omega), if_pos h]

theorem classOfByte_frag1 {b : Byte} (h : 0xC0 ≤ b.toNat ∧ b.toNat ≤ 0xDF) : classOfByte b = (.frag1, frag1HdrLen) := by
  rw [classOfByte_eq_ranges, if_neg (by omega), if_neg (by omega), if_pos h]

theorem classOfByte_fragN {b : Byte} (h : 0xE0 ≤ b.toNat) : classOfByte b = (.fragN, fragNHdrLen) := by
  rw [classOfByte_eq_ranges, if_neg (by omega), if_neg (by omega), if_neg (by omega), if_pos h]

theorem classify_nil : classify [] = (.truncated, 0) := rfl

/-- The length test of CLASSIFY (R136). -/
theorem classify_short {b : Byte} {p : List Byte} (h : (b :: p).length < (classOfByte b).2) :
    classify (b :: p) = (.truncated, 0) := if_pos h

theorem decodeFrame_of_classify_truncated {bytes : List Byte} (a : Arrival) (h : (classify bytes).1 = .truncated) :
    decodeFrame bytes a = .error .truncated := by
  simp [decodeFrame, h]

/-- A frame shorter than the header its first byte announces is no instruction (R136). -/
theorem decodeFrame_short {bytes : List Byte} (a : Arrival)
    (h : bytes = [] ∨ ∃ b p, bytes = b :: p ∧
      ((0x60 ≤ b.toNat ∧ b.toNat ≤ 0x7F ∧ bytes.length < 2) ∨
       (0xC0 ≤ b.toNat ∧ b.toNat ≤ 0xDF ∧ bytes.length < 4) ∨ (0xE0 ≤ b.toNat ∧ bytes.length < 5))) :
    decodeFrame bytes a = .error .truncated := by
  apply decodeFrame_of_classify_truncated
  obtain rfl | ⟨b, p, rfl, ⟨hlo, hhi, hlen⟩ | ⟨hlo, hhi, hlen⟩ | ⟨hlo, hlen⟩⟩ := h
  · rw [classify_nil]
  · rw [classify_short (by rwa [classOfByte_iphc ⟨hlo, hhi⟩])]
  · rw [classify_short (by rwa [classOfByte_frag1 ⟨hlo, hhi⟩])]
  · rw [classify_short (by rwa [classOfByte_fragN hlo])]

theorem isUdpNhc_iff (n : Byte) : isUdpNhc n = true ↔ 0xF0 ≤ n.toNat ∧ n.toNat ≤ 0xF3 := by
  have htop : (n.extractLsb' 2 6).toNat = n.toNat / 4 := by
    rw [BitVec.extractLsb'_toNat, Nat.shiftRight_eq_div_pow]
    omega
  rw [isUdpNhc, beq_iff_eq, ← BitVec.toNat_inj, htop]
  exact show n.toNat / 4 = 60 ↔ _ by omega

/-- Bytes that do not start with a UDP NHC byte are no NHC stage, for one of two reasons (R189). -/
theorem decodeNhc_other {bytes : List Byte} (o : NhcOuter)
    (h : ∀ b p, bytes = b :: p → ¬(0xF0 ≤ b.toNat ∧ b.toNat ≤ 0xF3)) :
    decodeNhc bytes o = .error (if bytes = [] then .truncated else .unsupportedNhc) := by
  cases bytes with
  | nil => rfl
  | cons n p => exact if_neg (mt (isUdpNhc_iff n).1 (h n p rfl))

-- ## The preconditions of an arrival that is not admitted (R265, R268, R304)

section Arrival
variable {s : State} {a : Arrival} {len : Nat} {k : State → Result}

theorem withFrame_uninit (hi : s.initDone = false) : withFrame a len k s = .next s := by
  simp [withFrame, hi]

theorem withFrame_tooLong (hi : s.initDone = true) (hl : s.cfg.linkMtu < len) :
    withFrame a len k s = .refused .frameTooLong := by
  simp [withFrame, hi, hl]

theorem withFrame_timeBackwards (hi : s.initDone = true) (hl : len ≤ s.cfg.linkMtu) (hn : a.now < s.lastNow) :
    withFrame a len k s = .refused .timeBackwards := by
  simp [withFrame, withTime, hi, Nat.not_lt.2 hl, hn]

end Arrival

-- ## A transaction run (R68)

theorem runTxn_of_decode {t : Txn} {i : Instr} (h : decode t = .ok i) (s : State) : runTxn t s = exec i s := by
  simp [runTxn, h]

theorem runTxn_of_error {t : Txn} {e : DecodeError} (h : decode t = .error e) (s : State) :
    runTxn t s = undecoded t e s := by
  simp [runTxn, h]

theorem nhcUndecoded_uninit {s : State} (e : DecodeError) (hi : s.initDone = false) :
    nhcUndecoded e s = .next s := by
  simp [nhcUndecoded, hi]

/-- NHC_EN is tested before the byte is looked at (R189). -/
theorem nhcUndecoded_init {s : State} (e : DecodeError) (hi : s.initDone = true) :
    nhcUndecoded e s =
      .next (s.drop (if s.cfg.nhcEn = true ∧ e = .truncated then .truncated else .unsupportedNhc)) := by
  cases hn : s.cfg.nhcEn with
  | false => simp [nhcUndecoded, hi, hn]
  | true => cases e <;> simp [nhcUndecoded, hi, hn]

section Undecoded
variable {s : State} {rest : List Event}

theorem step_of_decode {t : Txn} {i : Instr} (hin : s.inputs = .txn t :: rest) (h : decode t = .ok i) :
    step s = exec i { s with inputs := rest } :=
  (step_txn s t rest hin).trans (runTxn_of_decode h _)

theorem step_undecodedFrame {bytes : List Byte} {a : Arrival} {e : DecodeError}
    (hin : s.inputs = .txn (.frame bytes a) :: rest) (h : decodeFrame bytes a = .error e) :
    step s = rxTruncated a bytes.length { s with inputs := rest } :=
  (step_txn s _ rest hin).trans (runTxn_of_error (t := .frame bytes a) h _)

theorem step_undecodedNhc {bytes : List Byte} {o : NhcOuter} {e : DecodeError}
    (hin : s.inputs = .txn (.nhc bytes o) :: rest) (h : decodeNhc bytes o = .error e) :
    step s = nhcUndecoded e { s with inputs := rest } :=
  (step_txn s _ rest hin).trans (runTxn_of_error (t := .nhc bytes o) h _)

end Undecoded

/-- Settles O52: the decoder's answer decides between exec and the three outcomes of a transaction that is none. -/
theorem stepRunsTheDecodedInstruction : Obligations.StepRunsTheDecodedInstruction := by
  unfold Obligations.StepRunsTheDecodedInstruction
  intro s t rest hin
  refine ⟨fun i => step_of_decode hin, ?frame, ?nhc, ?op⟩
  case frame =>
    rintro bytes a rfl hshort
    rw [step_undecodedFrame hin (decodeFrame_short a hshort)]
    exact ⟨fun hi => withFrame_uninit hi,
      fun ⟨hready, hfits, htime⟩ => withFrame_admitted a _ _ { s with inputs := rest } hready hfits htime,
      fun hi hl => withFrame_tooLong hi hl,
      fun hi hl hn => withFrame_timeBackwards hi hl hn⟩
  case nhc =>
    rintro bytes o rfl hother
    rw [step_undecodedNhc hin (decodeNhc_other o hother)]
    refine ⟨fun hi => nhcUndecoded_uninit _ hi, fun hi => ?_⟩
    have hempty : (if bytes = [] then DecodeError.truncated else .unsupportedNhc) = .truncated ↔ bytes = [] := by simp
    rw [nhcUndecoded_init (s := { s with inputs := rest }) _ hi]
    simp only [State.drop, hempty, apply_ite Status.code]
    rfl
  case op =>
    rintro code g rfl
    exact ⟨decodeOp code g, rfl⟩

end Sys2Proof.Machine

/-! The encoding family (spec/30_encoding.md): the codec in both directions (O48, O49) with the class and the words of
frames (O50, O51, O53), the in-line traffic class and flow label (O47), addresses rebuilt from a context (O46), and the
bytes that each stage of DECOMPRESS reads (O43). First the bit fields of a header byte, written and read back; then one
equation per class of frame; then the address bits of big-endian bytes. -/

namespace Sys2Proof.Machine

-- ## Fields of the wire formats, written and read back (R93 to R97, R107)

theorem ofBool_getLsbD {w : Nat} (x : BitVec w) (i : Nat) : BitVec.ofBool (x.getLsbD i) = x.extractLsb' i 1 := by
  ext j hj
  obtain rfl : j = 0 := by omega
  simp

/-- The fields read back from the two base bytes are the fields written into them (R96, R97). -/
theorem iphcBaseOf_iphcByte (f : IphcBase) : iphcBaseOf (iphcByte1 f) (iphcByte2 f) = f := by
  simp (disch := decide) only [iphcBaseOf, iphcByte1, iphcByte2, BitVec.extractLsb'_append_eq_of_le,
    BitVec.extractLsb'_append_eq_of_add_le, BitVec.getLsbD_append]
  simp

theorem iphcByte1_pattern (f : IphcBase) : (iphcByte1 f).extractLsb' 5 3 = 0b011 := by
  simp (disch := decide) only [iphcByte1, BitVec.extractLsb'_append_eq_of_le]
  rfl

/-- Under the pattern of its class the first base byte is its fields (R96). -/
theorem iphcByte1_iphcBaseOf {b0 : Byte} (b1 : Byte) (h : b0.extractLsb' 5 3 = 0b011) :
    iphcByte1 (iphcBaseOf b0 b1) = b0 := by
  have hpattern : 0b011#3 = b0.extractLsb' 5 3 := h.symm
  simp (disch := decide) only [iphcByte1, iphcBaseOf, ofBool_getLsbD, hpattern,
    BitVec.extractLsb'_append_extractLsb'_eq_extractLsb', BitVec.extractLsb'_eq_self]

/-- The second base byte is its fields (R97). -/
theorem iphcByte2_iphcBaseOf (b0 b1 : Byte) : iphcByte2 (iphcBaseOf b0 b1) = b1 := by
  simp (disch := decide) only [iphcByte2, iphcBaseOf, ofBool_getLsbD,
    BitVec.extractLsb'_append_extractLsb'_eq_extractLsb', BitVec.extractLsb'_eq_self]

section FragHeader
variable (k : BitVec 3) (x : BitVec 2) (hi : BitVec 3)

theorem fragByte_pattern : (k ++ x ++ hi).extractLsb' 5 3 = k := by
  simp (disch := decide) only [BitVec.extractLsb'_append_eq_of_le, Nat.reduceSub, BitVec.extractLsb'_eq_self]

theorem fragX_fragByte : fragX (k ++ x ++ hi) = x := by
  simp (disch := decide) only [fragX, BitVec.extractLsb'_append_eq_of_le, BitVec.extractLsb'_append_eq_of_add_le,
    Nat.reduceSub, BitVec.extractLsb'_eq_self]

theorem fragSize_fragByte (size : BitVec 11) :
    fragSize (k ++ x ++ size.extractLsb' 8 3) (size.extractLsb' 0 8) = size := by
  simp (disch := decide) only [fragSize, BitVec.extractLsb'_append_eq_right,
    BitVec.extractLsb'_append_extractLsb'_eq_extractLsb', BitVec.extractLsb'_eq_self]

end FragHeader

theorem fragTag_bytes (tag : BitVec 16) : fragTag (tag.extractLsb' 8 8) (tag.extractLsb' 0 8) = tag :=
  BitVec.extractLsb'_append_extractLsb'

/-- Under its pattern the four bytes of a fragment header are its fields, bits 4:3 included (R93, R94). -/
theorem fragHeader_fields {b0 : Byte} {k : BitVec 3} (b1 b2 b3 : Byte) (h : b0.extractLsb' 5 3 = k) :
    fragHeader k (fragX b0) (fragSize b0 b1) (fragTag b2 b3) = [b0, b1, b2, b3] := by
  simp (disch := decide) only [fragHeader, fragX, fragSize, fragTag, BitVec.extractLsb'_append_eq_left,
    BitVec.extractLsb'_append_eq_right, ← h, BitVec.extractLsb'_append_extractLsb'_eq_extractLsb',
    BitVec.extractLsb'_eq_self]

theorem isUdpNhc_udpNhcByte (p : BitVec 2) : isUdpNhc (udpNhcByte p) = true :=
  beq_iff_eq.2 BitVec.extractLsb'_append_eq_left

theorem udpNhcByte_mode (p : BitVec 2) : (udpNhcByte p).extractLsb' 0 2 = p :=
  BitVec.extractLsb'_append_eq_right

theorem udpNhcByte_of_isUdpNhc {n : Byte} (h : isUdpNhc n = true) : udpNhcByte (n.extractLsb' 0 2) = n := by
  have hfields : n.extractLsb' 2 6 ++ n.extractLsb' 0 2 = n := BitVec.extractLsb'_append_extractLsb'
  rwa [beq_iff_eq.1 h] at hfields

-- ## CLASSIFY by the pattern of the first byte (R91, R130)

theorem classOfByte_of_iphcPattern {b : Byte} (h : b.extractLsb' 5 3 = 0b011) :
    classOfByte b = (.iphc, iphcBaseLen) := by
  have htop : b.toNat / 32 = 3 := (extractTop_eq_iff b _).1 h
  exact classOfByte_iphc (by omega)

theorem classOfByte_of_frag1Pattern {b : Byte} (h : b.extractLsb' 5 3 = frag1Pattern) :
    classOfByte b = (.frag1, frag1HdrLen) := by
  have htop : b.toNat / 32 = 6 := (extractTop_eq_iff b _).1 h
  exact classOfByte_frag1 (by omega)

theorem classOfByte_of_fragNPattern {b : Byte} (h : b.extractLsb' 5 3 = fragNPattern) :
    classOfByte b = (.fragN, fragNHdrLen) := by
  have htop : b.toNat / 32 = 7 := (extractTop_eq_iff b _).1 h
  exact classOfByte_fragN (by omega)

theorem dispatched_cases {b : Byte} (h : b.dispatched = true) :
    b = 0x41 ∨ b.extractLsb' 5 3 = 0b011 ∨ b.extractLsb' 5 3 = frag1Pattern ∨ b.extractLsb' 5 3 = fragNPattern := by
  simpa [Byte.dispatched, frag1Pattern, fragNPattern, or_assoc] using h

theorem classOfByte_of_not_dispatched {b : Byte} (h : b.dispatched = false) : classOfByte b = (.unknown, 0) := by
  simp only [Byte.dispatched, Bool.or_eq_false_iff, beq_eq_false_iff_ne] at h
  obtain ⟨⟨⟨h41, hiphc⟩, hfrag1⟩, hfragN⟩ := h
  rw [classOfByte, if_neg h41, if_neg hiphc, if_neg hfrag1, if_neg hfragN]

/-- A frame as long as the header of its class is of that class (R130). -/
theorem classify_long {b : Byte} {p : List Byte} (h : (classOfByte b).2 ≤ p.length + 1) :
    classify (b :: p) = classOfByte b := if_neg (Nat.not_lt.2 h)

-- ## One equation per class of frame (R92 to R97)

section DecodeFrame
variable {b0 : Byte} (a : Arrival)

theorem decodeFrame_uncomp (packet : List Byte) : decodeFrame (0x41 :: packet) a = .ok (.ipv6Uncomp a packet) := by
  have hc : classify (0x41 :: packet) = (.ipv6Uncomp, uncompHdrLen) := classify_long (Nat.le_add_left 1 _)
  simp only [decodeFrame, hc]

theorem decodeFrame_iphc (h : b0.extractLsb' 5 3 = 0b011) (b1 : Byte) (rest : List Byte) :
    decodeFrame (b0 :: b1 :: rest) a = .ok (.iphc a (iphcBaseOf b0 b1) rest) := by
  have hcls := classOfByte_of_iphcPattern h
  have hc : classify (b0 :: b1 :: rest) = (.iphc, iphcBaseLen) :=
    (classify_long (by simp [hcls, iphcBaseLen])).trans hcls
  simp only [decodeFrame, hc]

theorem decodeFrame_frag1 (h : b0.extractLsb' 5 3 = frag1Pattern) (b1 b2 b3 : Byte) (payload : List Byte) :
    decodeFrame (b0 :: b1 :: b2 :: b3 :: payload) a =
      .ok (.frag1 a (fragX b0) (fragSize b0 b1) (fragTag b2 b3) payload) := by
  have hcls := classOfByte_of_frag1Pattern h
  have hc : classify (b0 :: b1 :: b2 :: b3 :: payload) = (.frag1, frag1HdrLen) :=
    (classify_long (by simp [hcls, frag1HdrLen])).trans hcls
  simp only [decodeFrame, hc]

theorem decodeFrame_fragN (h : b0.extractLsb' 5 3 = fragNPattern) (b1 b2 b3 b4 : Byte) (payload : List Byte) :
    decodeFrame (b0 :: b1 :: b2 :: b3 :: b4 :: payload) a =
      .ok (.fragN a (fragX b0) (fragSize b0 b1) (fragTag b2 b3) b4 payload) := by
  have hcls := classOfByte_of_fragNPattern h
  have hc : classify (b0 :: b1 :: b2 :: b3 :: b4 :: payload) = (.fragN, fragNHdrLen) :=
    (classify_long (by simp [hcls, fragNHdrLen])).trans hcls
  simp only [decodeFrame, hc]

theorem decodeFrame_unknown (h : b0.dispatched = false) (rest : List Byte) :
    decodeFrame (b0 :: rest) a = .ok (.unknown a b0 rest) := by
  have hcls := classOfByte_of_not_dispatched h
  have hc : classify (b0 :: rest) = (.unknown, 0) := (classify_long (by simp [hcls])).trans hcls
  simp only [decodeFrame, hc]

/-- The length test of R136, in a frame that decodes. -/
theorem headerLen_le_of_decodeFrame {p : List Byte} {i : Instr} (h : decodeFrame (b0 :: p) a = .ok i) :
    (classOfByte b0).2 ≤ (b0 :: p).length := by
  by_contra hshort
  rw [decodeFrame_of_classify_truncated a (by rw [classify_short (Nat.lt_of_not_le hshort)])] at h
  cases h

end DecodeFrame

/-- Everything a frame can decode to, with the bytes it has then: one case per class. -/
theorem decodeFrame_ok_cases {bytes : List Byte} {a : Arrival} {i : Instr} (h : decodeFrame bytes a = .ok i) :
    (∃ packet, bytes = 0x41 :: packet ∧ i = .ipv6Uncomp a packet) ∨
    (∃ b0 b1 rest, bytes = b0 :: b1 :: rest ∧ b0.extractLsb' 5 3 = 0b011 ∧ i = .iphc a (iphcBaseOf b0 b1) rest) ∨
    (∃ b0 b1 b2 b3 payload, bytes = b0 :: b1 :: b2 :: b3 :: payload ∧ b0.extractLsb' 5 3 = frag1Pattern ∧
      i = .frag1 a (fragX b0) (fragSize b0 b1) (fragTag b2 b3) payload) ∨
    (∃ b0 b1 b2 b3 b4 payload, bytes = b0 :: b1 :: b2 :: b3 :: b4 :: payload ∧ b0.extractLsb' 5 3 = fragNPattern ∧
      i = .fragN a (fragX b0) (fragSize b0 b1) (fragTag b2 b3) b4 payload) ∨
    (∃ b0 rest, bytes = b0 :: rest ∧ b0.dispatched = false ∧ i = .unknown a b0 rest) := by
  cases bytes with
  | nil => cases h
  | cons b0 p =>
    have hlen := headerLen_le_of_decodeFrame a h
    cases hd : b0.dispatched with
    | false =>
      rw [decodeFrame_unknown a hd] at h
      cases h
      exact .inr (.inr (.inr (.inr ⟨b0, p, rfl, hd, rfl⟩)))
    | true =>
      obtain rfl | hiphc | hfrag1 | hfragN := dispatched_cases hd
      · rw [decodeFrame_uncomp] at h
        cases h
        exact .inl ⟨p, rfl, rfl⟩
      · rw [classOfByte_of_iphcPattern hiphc] at hlen
        obtain ⟨b1, rest, rfl⟩ := List.exists_cons_of_length_pos (Nat.le_of_succ_le_succ hlen)
        rw [decodeFrame_iphc a hiphc] at h
        cases h
        exact .inr (.inl ⟨b0, b1, rest, rfl, hiphc, rfl⟩)
      · rw [classOfByte_of_frag1Pattern hfrag1] at hlen
        obtain ⟨b1, b2, b3, payload, rfl⟩ : ∃ b1 b2 b3 payload, p = b1 :: b2 :: b3 :: payload := by
          match p, hlen with
          | b1 :: b2 :: b3 :: payload, _ => exact ⟨b1, b2, b3, payload, rfl⟩
        rw [decodeFrame_frag1 a hfrag1] at h
        cases h
        exact .inr (.inr (.inl ⟨b0, b1, b2, b3, payload, rfl, hfrag1, rfl⟩))
      · rw [classOfByte_of_fragNPattern hfragN] at hlen
        obtain ⟨b1, b2, b3, b4, payload, rfl⟩ : ∃ b1 b2 b3 b4 payload, p = b1 :: b2 :: b3 :: b4 :: payload := by
          match p, hlen with
          | b1 :: b2 :: b3 :: b4 :: payload, _ => exact ⟨b1, b2, b3, b4, payload, rfl⟩
        rw [decodeFrame_fragN a hfragN] at h
        cases h
        exact .inr (.inr (.inr (.inl ⟨b0, b1, b2, b3, b4, payload, rfl, hfragN, rfl⟩)))

-- ## Operation codes and NHC bytes (R107, R111, R189)

/-- A code outside R111 is BAD_OP, whatever its operands (R269). -/
theorem decodeOp_badOp {code : Byte} (h : code.isOpCode = false) (g : OpArgs) : decodeOp code g = .badOp code := by
  have hrange : ¬(1 ≤ code.toNat ∧ code.toNat ≤ 0x0B) := of_decide_eq_false h
  unfold decodeOp
  split
  on_goal 12 => rfl
  all_goals omega

theorem decodeNhc_udp (p : BitVec 2) (rest : List Byte) (o : NhcOuter) :
    decodeNhc (udpNhcByte p :: rest) o = .ok (.nhcUdp o p rest) := by
  simp only [decodeNhc, isUdpNhc_udpNhcByte, if_true, udpNhcByte_mode]

theorem decodeNhc_ok {bytes : List Byte} {o : NhcOuter} {i : Instr} (h : decodeNhc bytes o = .ok i) :
    ∃ p rest, bytes = udpNhcByte p :: rest ∧ i = .nhcUdp o p rest := by
  cases bytes with
  | nil => cases h
  | cons n rest =>
    cases hn : isUdpNhc n with
    | false => simp [decodeNhc, hn] at h
    | true =>
      refine ⟨n.extractLsb' 0 2, rest, by rw [udpNhcByte_of_isUdpNhc hn], ?_⟩
      simpa [decodeNhc, hn, eq_comm] using h

-- ## The codec's two directions

theorem decode_encode_iphc (a : Arrival) (base : IphcBase) (rest : List Byte) :
    decode (encode (.iphc a base rest)) = .ok (.iphc a base rest) := by
  exact (decodeFrame_iphc a (iphcByte1_pattern base) _ rest).trans (by rw [iphcBaseOf_iphcByte])

theorem decode_encode_frag1 (a : Arrival) (x : BitVec 2) (size : BitVec 11) (tag : BitVec 16) (payload : List Byte) :
    decode (encode (.frag1 a x size tag payload)) = .ok (.frag1 a x size tag payload) :=
  (decodeFrame_frag1 a (fragByte_pattern ..) _ _ _ payload).trans
    (by rw [fragX_fragByte, fragSize_fragByte, fragTag_bytes])

theorem decode_encode_fragN (a : Arrival) (x : BitVec 2) (size : BitVec 11) (tag : BitVec 16) (offset8 : Byte)
    (payload : List Byte) :
    decode (encode (.fragN a x size tag offset8 payload)) = .ok (.fragN a x size tag offset8 payload) :=
  (decodeFrame_fragN a (fragByte_pattern ..) _ _ _ offset8 payload).trans
    (by rw [fragX_fragByte, fragSize_fragByte, fragTag_bytes])

/-- Settles O48, by the row of the instruction: the operations by their code, the frames by the pattern and the fields
of their header, the two default rows by the codes and bytes that well-formedness leaves them. -/
theorem decodeOfEncodeIsTheInstruction : Obligations.DecodeOfEncodeIsTheInstruction := by
  unfold Obligations.DecodeOfEncodeIsTheInstruction
  intro c i hwf
  cases i with
  | init | initRouter | send | setHc | register | ctxLookup | ctxInsert | ctxRemove | readStatus | rxFrame | tick => rfl
  | badOp code => exact congrArg Except.ok (decodeOp_badOp (by simpa [Instr.WF, Instr.wellFormed] using hwf) {})
  | ipv6Uncomp a packet => exact decodeFrame_uncomp a packet
  | iphc a base rest => exact decode_encode_iphc a base rest
  | frag1 a x size tag payload => exact decode_encode_frag1 a x size tag payload
  | fragN a x size tag offset8 payload => exact decode_encode_fragN a x size tag offset8 payload
  | unknown a first rest =>
    have hd : first.dispatched = false := by
      simp only [Instr.WF, Instr.wellFormed, Bool.and_eq_true, Bool.not_eq_true'] at hwf
      exact hwf.1
    exact decodeFrame_unknown a hd rest
  | nhcUdp outer p rest => exact decodeNhc_udp p rest outer

theorem encode_of_decodeFrame {bytes : List Byte} {a : Arrival} {i : Instr} (h : decodeFrame bytes a = .ok i) :
    encode i = .frame bytes a := by
  obtain ⟨packet, rfl, rfl⟩ | ⟨b0, b1, rest, rfl, hpat, rfl⟩ | ⟨b0, b1, b2, b3, payload, rfl, hpat, rfl⟩ |
    ⟨b0, b1, b2, b3, b4, payload, rfl, hpat, rfl⟩ | ⟨b0, rest, rfl, -, rfl⟩ := decodeFrame_ok_cases h
  · rfl
  · rw [encode, iphcByte1_iphcBaseOf b1 hpat, iphcByte2_iphcBaseOf]
  · rw [encode, fragHeader_fields b1 b2 b3 hpat]; rfl
  · rw [encode, fragHeader_fields b1 b2 b3 hpat]; rfl
  · rfl

/-- Settles O49, by the cases in which a frame or an NHC stage decodes. -/
theorem encodeOfDecodeIsTheWire : Obligations.EncodeOfDecodeIsTheWire := by
  unfold Obligations.EncodeOfDecodeIsTheWire
  refine fun bytes i => ⟨fun a h => encode_of_decodeFrame h, fun o h => ?_⟩
  obtain ⟨p, rest, rfl, rfl⟩ := decodeNhc_ok h
  rfl

/-- Settles O50, by the ranges of the first byte: five bytes are as long as every header. -/
theorem firstByteSelectsTheClass : Obligations.FirstByteSelectsTheClass := by
  unfold Obligations.FirstByteSelectsTheClass
  intro b rest hlen
  have hneed : (classOfByte b).2 ≤ 5 := by
    unfold classOfByte
    split_ifs <;> decide
  rw [classify_long (by omega), classOfByte_eq_ranges]
  rfl

/-- Settles O51, by running the decoder on each word. -/
theorem wordsOfTheSpecDecode : Obligations.WordsOfTheSpecDecode := by
  unfold Obligations.WordsOfTheSpecDecode
  exact ⟨fun _ => rfl, fun _ => rfl, fun _ => rfl, fun _ => rfl, fun _ => rfl, fun _ => rfl, fun _ => rfl⟩

theorem decode_tableTxn_of_decodeTableWord {nbits w : Nat} {i : Instr} (h : decodeTableWord nbits w = some i) :
    decode (tableTxn nbits w) = .ok i := by
  unfold decodeTableWord at h
  split at h
  · next j hj => rw [hj, Option.some.inj h]
  · cases h

/-- Settles O53: the placed transaction is the next input, and the inputs it leaves are those of before. -/
theorem tableWordRunsNext : Obligations.TableWordRunsNext := fun s _ _ _ h =>
  step_of_decode (s := s.withTxn _) (rest := s.inputs) rfl (decode_tableTxn_of_decodeTableWord h)

-- ## Traffic class and flow label (R100, R152, R183)

theorem dscp_ecn_parts (tc : Byte) :
    ((ecn tc ++ dscp tc).extractLsb' 0 6 ++ (ecn tc ++ dscp tc).extractLsb' 6 2 : Byte) = tc := by
  rw [BitVec.extractLsb'_append_eq_right, BitVec.extractLsb'_append_eq_left]
  exact BitVec.extractLsb'_append_extractLsb'

theorem ecn_of_dscp_zero {tc : Byte} (h : dscp tc = 0) : (0#6 ++ ecn tc : Byte) = tc := by
  have hparts : dscp tc ++ ecn tc = tc := BitVec.extractLsb'_append_extractLsb'
  rwa [h] at hparts

/-- A flow label is its four top bits and two bytes, whatever stands above the four bits in their byte (R100). -/
theorem flowLabel_parts {w : Nat} (pad : BitVec w) (fl : BitVec 20) :
    (pad ++ fl.extractLsb' 16 4).extractLsb' 0 4 ++ fl.extractLsb' 8 8 ++ fl.extractLsb' 0 8 = fl := by
  simp (disch := decide) only [BitVec.extractLsb'_append_eq_right,
    BitVec.extractLsb'_append_extractLsb'_eq_extractLsb', BitVec.extractLsb'_eq_self]

/-- What each TF value is chosen for (R152). -/
theorem tfMode_cases (tc : Byte) (fl : BitVec 20) :
    (tfMode tc fl = 0b11 ∧ tc = 0 ∧ fl = 0) ∨ (tfMode tc fl = 0b10 ∧ fl = 0) ∨
    (tfMode tc fl = 0b01 ∧ dscp tc = 0) ∨ tfMode tc fl = 0b00 := by
  unfold tfMode
  split_ifs with hboth hfl hdscp <;> simp [*]

theorem length_tfInline (tf : BitVec 2) (tc : Byte) (fl : BitVec 20) : (tfInline tf tc fl).length = tfLen tf := by
  unfold tfInline tfLen
  split <;> rfl

theorem tfOperands_tfInline_zero (tc : Byte) (fl : BitVec 20) : tfOperands 0b00 (tfInline 0b00 tc fl) = (tc, fl) :=
  Prod.ext (dscp_ecn_parts tc) (flowLabel_parts 0#4 fl)

theorem tfOperands_tfInline_one {tc : Byte} (h : dscp tc = 0) (fl : BitVec 20) :
    tfOperands 0b01 (tfInline 0b01 tc fl) = (tc, fl) := by
  refine Prod.ext ?_ (flowLabel_parts (ecn tc ++ 0#2) fl)
  have hecn : (ecn tc ++ 0#2 ++ fl.extractLsb' 16 4).extractLsb' 6 2 = ecn tc := by
    simp (disch := decide) only [BitVec.extractLsb'_append_eq_of_le, Nat.reduceSub, BitVec.extractLsb'_eq_self]
  exact (congrArg (0#6 ++ ·) hecn).trans (ecn_of_dscp_zero h)

theorem tfOperands_tfInline_two (tc : Byte) : tfOperands 0b10 (tfInline 0b10 tc 0) = (tc, 0) :=
  Prod.ext (dscp_ecn_parts tc) rfl

/-- Settles O47, by the TF value chosen: what it elides is zero. -/
theorem trafficClassRoundTrip : Obligations.TrafficClassRoundTrip := by
  unfold Obligations.TrafficClassRoundTrip
  refine fun tc fl => ⟨length_tfInline _ tc fl, ?_⟩
  obtain ⟨hmode, rfl, rfl⟩ | ⟨hmode, rfl⟩ | ⟨hmode, hdscp⟩ | hmode := tfMode_cases tc fl
  · rw [hmode]; rfl
  · rw [hmode, tfOperands_tfInline_two]
  · rw [hmode, tfOperands_tfInline_one hdscp]
  · rw [hmode, tfOperands_tfInline_zero]

-- ## Address bits (R9, R105)

theorem length_beBytes (n v : Nat) : (beBytes n v).length = n := by
  induction n with
  | zero => rfl
  | succ n ih => simp [beBytes, ih]

theorem length_addrBytes (x : BitVec 128) : (addrBytes x).length = 16 := length_beBytes _ _

theorem length_llBytes (ll : LLAddr) : (llBytes ll).length = 8 := length_beBytes _ _

/-- Address bits are counted from the first byte on, most significant bit first (R9). -/
theorem addrBit_cons (b : Byte) (l : List Byte) (k : Nat) :
    addrBit (b :: l) k = if k < 8 then b.getLsbD (7 - k) else addrBit l (k - 8) := by
  split
  · next h =>
    have hbyte : k / 8 = 0 := by omega
    have hbit : k % 8 = k := by omega
    simp [addrBit, byteAt, hbyte, hbit]
  · next h =>
    have hbyte : k / 8 = (k - 8) / 8 + 1 := by omega
    have hbit : k % 8 = (k - 8) % 8 := by omega
    simp [addrBit, byteAt, hbyte, hbit]

theorem addrBit_beBytes {n k : Nat} (v : Nat) (h : k < 8 * n) :
    addrBit (beBytes n v) k = v.testBit (8 * n - 1 - k) := by
  induction n generalizing k with
  | zero => omega
  | succ n ih =>
    rw [beBytes, addrBit_cons]
    split
    · next hk =>
      have hpos : 8 * n + (7 - k) = 8 * (n + 1) - 1 - k := by omega
      have hlt : 7 - k < 8 := by omega
      rw [BitVec.getLsbD_ofNat, Nat.testBit_shiftRight, hpos, decide_eq_true hlt, Bool.true_and]
    · next hk =>
      rw [ih (by omega)]
      congr 1
      omega

theorem foldl_fromBE (l : List Byte) (acc : Nat) :
    l.foldl (fun acc b => acc * 256 + b.toNat) acc = 2 ^ (8 * l.length) * acc + fromBE l := by
  induction l generalizing acc with
  | nil => simp [fromBE]
  | cons b l ih =>
    rw [fromBE, List.foldl_cons, List.foldl_cons, ih, ih, List.length_cons]
    ring

theorem fromBE_cons (b : Byte) (l : List Byte) : fromBE (b :: l) = 2 ^ (8 * l.length) * b.toNat + fromBE l := by
  rw [fromBE, List.foldl_cons, foldl_fromBE]
  simp

theorem fromBE_lt (l : List Byte) : fromBE l < 2 ^ (8 * l.length) := by
  induction l with
  | nil => decide
  | cons b l ih =>
    have hb : 2 ^ (8 * l.length) * b.toNat ≤ 2 ^ (8 * l.length) * 255 :=
      Nat.mul_le_mul_left _ (Nat.le_of_lt_succ b.isLt)
    rw [fromBE_cons, List.length_cons, Nat.mul_succ, Nat.pow_add]
    omega

theorem testBit_fromBE {l : List Byte} {k : Nat} (h : k < 8 * l.length) :
    (fromBE l).testBit (8 * l.length - 1 - k) = addrBit l k := by
  induction l generalizing k with
  | nil => simp at h
  | cons b l ih =>
    rw [fromBE_cons, Nat.testBit_two_pow_mul_add _ (fromBE_lt l), addrBit_cons, List.length_cons]
    rw [List.length_cons] at h
    split_ifs with hlow hk hk
    · omega
    · rw [← ih (by omega)]
      congr 1
      omega
    · have hpos : 8 * (l.length + 1) - 1 - k - 8 * l.length = 7 - k := by omega
      rw [hpos, BitVec.testBit_toNat]
    · omega

/-- Address bit `k` of the bytes of a 128-bit value: bit 127 is the first (R9). -/
theorem addrBit_addrBytes (x : BitVec 128) {k : Nat} (h : k < 128) : addrBit (addrBytes x) k = x.getLsbD (127 - k) := by
  rw [addrBytes, addrBit_beBytes _ h, BitVec.testBit_toNat]

theorem getLsbD_addrOf {l : List Byte} (hl : l.length = 16) {k : Nat} (h : k < 128) :
    (addrOf l).getLsbD (127 - k) = addrBit l k := by
  have hlt : 127 - k < 128 := by omega
  have hbit := testBit_fromBE (l := l) (k := k) (by omega)
  rw [hl] at hbit
  rwa [addrOf, BitVec.getLsbD_ofNat, decide_eq_true hlt, Bool.true_and]

/-- The mask keeps the address bits below the length (R105). -/
theorem getLsbD_prefixMask (len : Nat) {k : Nat} (h : k < 128) :
    (prefixMask len).getLsbD (127 - k) = decide (k < len) := by
  have hlt : 127 - k < 128 := by omega
  have hmask : len + (127 - k) < 128 ↔ ¬ k < len := by omega
  rw [prefixMask, BitVec.getLsbD_not, BitVec.getLsbD_ushiftRight, BitVec.getLsbD_allOnes]
  simp only [decide_eq_true hlt, hmask, decide_not, Bool.not_not, Bool.true_and]

theorem length_reconCtx (e : CtxEntry) (iid : List Byte) : (reconCtx e iid).length = 16 := length_addrBytes _

/-- Settles O46: the mask chooses, bit by bit, between the context entry and `zeros(8) ++ iid`. -/
theorem reconstructionTakesPrefixBits : Obligations.ReconstructionTakesPrefixBits := by
  unfold Obligations.ReconstructionTakesPrefixBits
  intro e iid k hiid hk
  have hlen : (zeros 8 ++ iid).length = 16 := by simp [zeros, hiid]
  refine ⟨length_reconCtx e iid, ?_⟩
  rw [reconCtx, addrBit_addrBytes _ hk]
  simp only [BitVec.getLsbD_or, BitVec.getLsbD_and, BitVec.getLsbD_not, getLsbD_prefixMask _ hk,
    getLsbD_addrOf hlen hk]
  by_cases hp : k < e.len.toNat
  · simp [hp]
  · have hlt : 127 - k < 128 := by omega
    simp [hp, hlt, zeros]

-- ## How many bytes each stage of DECOMPRESS reads (R115)

/-- A stage that answers has read exactly `n` of the bytes `r`, and its value satisfies `P`. -/
structure Reads {α : Type} (n : Nat) (P : α → Prop) (r : List Byte) (x : Except Status (α × List Byte)) : Prop where
  of_ok : ∀ v r', x = .ok (v, r') → n ≤ r.length ∧ r' = r.drop n ∧ P v

section Reads
variable {α β : Type} {n : Nat} {P : α → Prop} {Q : β → Prop} {r : List Byte} {x : Except Status (α × List Byte)}

theorem Reads.nothing {v : α} (h : P v) : Reads 0 P r (.ok (v, r)) :=
  ⟨fun _ _ he => by cases he; exact ⟨Nat.zero_le _, rfl, h⟩⟩

theorem Reads.error (e : Status) : Reads n P r (.error e) := ⟨nofun⟩

/-- The value of a stage computed from what it read. -/
theorem Reads.map (hx : Reads n P r x) (f : α → β) (hf : ∀ v, P v → Q (f v)) :
    Reads n Q r (x >>= fun (v, r') => .ok (f v, r')) := by
  refine ⟨fun w r' he => ?_⟩
  cases x with
  | error e => cases he
  | ok y =>
    obtain ⟨v, r₁⟩ := y
    cases he
    obtain ⟨hn, hr, hv⟩ := hx.of_ok v _ rfl
    exact ⟨hn, hr, hf v hv⟩

/-- A lookup before the reading reads nothing itself. -/
theorem Reads.after (y : Except Status α) {k : α → Except Status (β × List Byte)} (hk : ∀ a, Reads n Q r (k a)) :
    Reads n Q r (y >>= k) := by
  cases y with
  | ok a => exact hk a
  | error e => exact .error e

/-- A stage that is followed by others, in a whole that answers. -/
theorem Reads.then_ok (hx : Reads n P r x) {k : α × List Byte → Except Status β} {b : β} (h : x >>= k = .ok b) :
    ∃ v, P v ∧ n ≤ r.length ∧ k (v, r.drop n) = .ok b := by
  cases x with
  | error e => cases h
  | ok y =>
    obtain ⟨v, r₁⟩ := y
    obtain ⟨hn, hr, hv⟩ := hx.of_ok v r₁ rfl
    exact ⟨v, hv, hn, hr ▸ h⟩

end Reads

theorem takeBytes_reads (n : Nat) (r : List Byte) :
    Reads n (fun t => t = r.take n ∧ t.length = n) r (takeBytes n r) := by
  unfold takeBytes
  split
  · exact .error _
  · next h => exact ⟨fun _ _ he => by cases he; exact ⟨Nat.le_of_not_lt h, rfl, rfl, by simp; omega⟩⟩

theorem decCie_reads (cid : Bool) (r : List Byte) : Reads (if cid then 1 else 0) (fun _ => True) r (decCie cid r) := by
  cases cid with
  | false => exact .nothing trivial
  | true =>
    exact (takeBytes_reads 1 r).map (fun t => ((byteAt t 0).extractLsb' 4 4, (byteAt t 0).extractLsb' 0 4))
      fun _ _ => trivial

theorem decTf_reads (tf : BitVec 2) (r : List Byte) : Reads (tfLen tf) (fun _ => True) r (decTf tf r) :=
  (takeBytes_reads _ r).map (tfOperands tf) fun _ _ => trivial

theorem decNextHeader_inline_reads (r : List Byte) :
    Reads 1 (fun nh => ∃ b, nh = some b) r (decNextHeader false r) :=
  (takeBytes_reads 1 r).map (fun t => some (byteAt t 0)) fun t _ => ⟨byteAt t 0, rfl⟩

theorem hlimValue_elided : ∀ hlim : BitVec 2, hlim ≠ 0 → ∃ hl, hlimValue hlim = some hl := by decide

theorem decHopLimit_reads (hlim : BitVec 2) (r : List Byte) :
    Reads (if hlim = 0 then 1 else 0) (fun _ => True) r (decHopLimit hlim r) := by
  unfold decHopLimit
  split_ifs with h
  · subst h
    exact (takeBytes_reads 1 r).map (byteAt · 0) fun _ _ => trivial
  · obtain ⟨hl, hv⟩ := hlimValue_elided hlim h
    rw [hv]
    exact .nothing trivial

-- ### Addresses are 16 bytes (R102, R103, R105, R106)

theorem bitVec2_cases : ∀ x : BitVec 2, x = 0 ∨ x = 1 ∨ x = 2 ∨ x = 3 := by decide

theorem length_iidFromLl (c : Config) (ll : LLAddr) : (iidFromLl c ll).length = 8 := length_llBytes _

theorem length_amIid (c : Config) {ac : Bool} {am : BitVec 2} (ll : LLAddr) {a : List Byte} (ham : am ≠ 0)
    (ha : a.length = amLen ac am) : (amIid c am ll a).length = 8 := by
  obtain rfl | rfl | rfl | rfl := bitVec2_cases am
  · exact absurd rfl ham
  · exact ha
  · exact (List.length_append ..).trans (congrArg (6 + ·) ha)
  · exact length_iidFromLl c ll

theorem decUnicast_reads (c : Config) (t : CtxTable) (ll : LLAddr) (ac : Bool) (am : BitVec 2) (ci : BitVec 4)
    (r : List Byte) : Reads (amLen ac am) (fun a => a.length = 16) r (decUnicast c t ll ac am ci r) := by
  cases ac with
  | true => exact .after _ fun e => (takeBytes_reads _ r).map (fun a => reconCtx e (amIid c am ll a)) fun _ _ =>
      length_reconCtx e _
  | false =>
    refine (takeBytes_reads _ r).map (fun a => if am = 0 then a else llPrefix ++ amIid c am ll a) fun a ⟨_, ha⟩ => ?_
    split_ifs with ham
    · rw [ha, ham]; rfl
    · rw [List.length_append, length_amIid c ll ham ha]; rfl

theorem decSource_reads (c : Config) (t : CtxTable) (ll : LLAddr) (sac : Bool) (sam : BitVec 2) (sci : BitVec 4)
    (r : List Byte) : Reads (amLen sac sam) (fun a => a.length = 16) r (decSource c t ll sac sam sci r) := by
  unfold decSource
  split_ifs with h
  · obtain ⟨rfl, rfl⟩ := h
    exact .nothing rfl
  · exact decUnicast_reads ..

theorem length_slice (l : List Byte) {i j : Nat} (h : j ≤ l.length) : (slice l i j).length = j - i := by
  simp [slice]
  omega

theorem length_mcStateless {dam : BitVec 2} {a : List Byte} (ha : a.length = mcLen false dam) :
    (mcStateless dam a).length = 16 := by
  obtain rfl | rfl | rfl | rfl := bitVec2_cases dam
  · exact ha
  · have hslice : (slice a 1 6).length = 5 := length_slice a ha.ge
    simp [mcStateless, zeros, hslice]
  · have hslice : (slice a 1 4).length = 3 := length_slice a ha.ge
    simp [mcStateless, zeros, hslice]
  · have hone : a.length = 1 := ha
    simp [mcStateless, zeros, hone]

theorem length_reconMcCtx (e : CtxEntry) {a : List Byte} (ha : a.length = 6) : (reconMcCtx e a).length = 16 := by
  simp [reconMcCtx, length_addrBytes, length_slice a ha.ge]

theorem decMulticast_reads (t : CtxTable) (dac : Bool) (dam : BitVec 2) (dci : BitVec 4) (r : List Byte) :
    Reads (mcLen dac dam) (fun a => a.length = 16) r (decMulticast t dac dam dci r) := by
  cases dac with
  | false => exact (takeBytes_reads _ r).map (mcStateless dam) fun _ ⟨_, ha⟩ => length_mcStateless ha
  | true =>
    rw [decMulticast, if_pos rfl]
    split_ifs with h
    · subst h
      exact .after _ fun e => (takeBytes_reads _ r).map (reconMcCtx e) fun _ ⟨_, ha⟩ => length_reconMcCtx e ha
    · exact .error _

theorem decDest_reads (c : Config) (t : CtxTable) (ll : LLAddr) (m dac : Bool) (dam : BitVec 2) (dci : BitVec 4)
    (r : List Byte) :
    Reads (if m then mcLen dac dam else amLen dac dam) (fun a => a.length = 16) r (decDest c t ll m dac dam dci r) := by
  unfold decDest
  split_ifs
  · exact decMulticast_reads ..
  · exact .error _
  · exact decUnicast_reads ..

-- ### The packet behind the header (R190, R191)

theorem length_ipv6Head (tc : Byte) (fl : BitVec 20) (plen : Nat) (nh hl : Byte) :
    (ipv6Head tc fl plen nh hl).length = 8 := by
  simp [ipv6Head, length_beBytes]

/-- A packet assembled is 40 bytes of header and then its payload. -/
theorem assembleIpv6_ok {c : Config} {tc : Byte} {fl : BitVec 20} {nh hl : Byte} {src dst upper rest p : List Byte}
    (hsrc : src.length = 16) (hdst : dst.length = 16)
    (h : assembleIpv6 c tc fl nh hl src dst upper rest = .ok p) :
    p.length = 40 + (upper ++ rest).length ∧ p.drop 40 = upper ++ rest := by
  simp only [assembleIpv6] at h
  split at h
  · cases h
  · cases h
    have hhead : (ipv6Head tc fl (upper ++ rest).length nh hl ++ src ++ dst).length = 40 := by
      simp [length_ipv6Head, hsrc, hdst]
    exact ⟨by rw [List.length_append, hhead], List.drop_left' hhead⟩

theorem iphcBaseLen_le_iphcHdrLen (f : IphcBase) : iphcBaseLen ≤ iphcHdrLen f := by
  rw [iphcHdrLen]
  omega

/-- With the next header in line the bytes after the base bytes are the in-line fields of R115, then the payload. -/
theorem decompressBody_inline {c : Config} {t : CtxTable} {srcLl dstLl : LLAddr} {f : IphcBase} {r p : List Byte}
    (hnh : f.nh = false) (h : decompressBody c t srcLl dstLl f r = .ok p) :
    iphcHdrLen f ≤ iphcBaseLen + r.length ∧ p.length = 40 + (r.length - (iphcHdrLen f - iphcBaseLen)) ∧
      p.drop 40 = r.drop (iphcHdrLen f - iphcBaseLen) := by
  obtain ⟨⟨sci, dci⟩, -, hcie, h⟩ := (decCie_reads f.cid r).then_ok h
  obtain ⟨⟨tc, fl⟩, -, htf, h⟩ := (decTf_reads f.tf _).then_ok h
  rw [hnh] at h
  obtain ⟨_, ⟨nh, rfl⟩, hnext, h⟩ := (decNextHeader_inline_reads _).then_ok h
  obtain ⟨hl, -, hhop, h⟩ := (decHopLimit_reads f.hlim _).then_ok h
  obtain ⟨src, hsrc, hslen, h⟩ := (decSource_reads c t srcLl f.sac f.sam sci _).then_ok h
  obtain ⟨dst, hdst, hdlen, h⟩ := (decDest_reads c t dstLl f.m f.dac f.dam dci _).then_ok h
  obtain ⟨hlen, hdrop⟩ := assembleIpv6_ok hsrc hdst h
  have hsum : iphcHdrLen f - iphcBaseLen = (if f.cid then 1 else 0) + tfLen f.tf + 1 + (if f.hlim = 0 then 1 else 0)
      + amLen f.sac f.sam + (if f.m then mcLen f.dac f.dam else amLen f.dac f.dam) := by
    rw [iphcHdrLen, hnh]
    simp only [Bool.false_eq_true, if_false]
    omega
  have hle := iphcBaseLen_le_iphcHdrLen f
  simp only [List.nil_append, List.drop_drop, List.length_drop] at hcie htf hnext hhop hslen hdlen hlen hdrop
  rw [hsum]
  exact ⟨by omega, by omega, hdrop⟩

theorem byteAt_take {l : List Byte} {i n : Nat} (h : i < n) : byteAt (l.take n) i = byteAt l i := by
  simp [byteAt, h]

theorem decompress_ok {c : Config} {t : CtxTable} {b p : List Byte} {srcLl dstLl : LLAddr}
    (h : decompress c t b srcLl dstLl = .ok p) :
    iphcBaseLen ≤ b.length ∧
      decompressBody c t srcLl dstLl (iphcBaseOf (byteAt b 0) (byteAt b 1)) (b.drop iphcBaseLen) = .ok p := by
  obtain ⟨_, ⟨rfl, -⟩, hlen, h⟩ := (takeBytes_reads iphcBaseLen b).then_ok h
  dsimp only at h
  rw [byteAt_take (by decide), byteAt_take (by decide)] at h
  exact ⟨hlen, h⟩

/-- Settles O43: every stage reads its bytes of R115, and the packet is 40 bytes and what they leave. -/
theorem headerLengthFollowsTheBaseBytes : Obligations.HeaderLengthFollowsTheBaseBytes := by
  unfold Obligations.HeaderLengthFollowsTheBaseBytes
  intro c t b p src dst h f hnh
  obtain ⟨hbase, hbody⟩ := decompress_ok h
  obtain ⟨hle, hlen, hdrop⟩ := decompressBody_inline hnh hbody
  have hadd : iphcBaseLen + (iphcHdrLen f - iphcBaseLen) = iphcHdrLen f :=
    Nat.add_sub_cancel' (iphcBaseLen_le_iphcHdrLen f)
  rw [List.length_drop] at hle hlen
  rw [List.drop_drop, hadd] at hdrop
  exact ⟨by omega, hdrop⟩

end Sys2Proof.Machine

/-! The dispatch family (spec/40_dispatch_codec.md R135, R136): the frames that CLASSIFY names unknown or truncated, and
the drop that RX_FRAME (O20) and the class UNKNOWN as an instruction (O22) make of them. -/

namespace Sys2Proof.Machine

-- ## The frames of no class (R135, R136)

/-- The bytes of the default row (R135). -/
theorem classOfByte_unknown {b : Byte}
    (h : b.toNat ≤ 0x40 ∨ (0x42 ≤ b.toNat ∧ b.toNat ≤ 0x5F) ∨ (0x80 ≤ b.toNat ∧ b.toNat ≤ 0xBF)) :
    classOfByte b = (.unknown, 0) := by
  rw [classOfByte_eq_ranges, if_neg (by omega), if_neg (by omega), if_neg (by omega), if_neg (by omega)]

/-- The default row has no header, so the length test never meets it (R135). -/
theorem classify_unknown {b : Byte} (p : List Byte) (h : classOfByte b = (.unknown, 0)) :
    classify (b :: p) = (.unknown, 0) := (classify_long (by simp [h])).trans h

/-- The lengths that R136 calls truncated, against the header length of the class. -/
theorem lt_headerLen_of_short {b : Byte} {n : Nat}
    (h : (0x60 ≤ b.toNat ∧ b.toNat ≤ 0x7F ∧ n < 2) ∨ (0xC0 ≤ b.toNat ∧ b.toNat ≤ 0xDF ∧ n < 4) ∨
      (0xE0 ≤ b.toNat ∧ n < 5)) : n < (classOfByte b).2 := by
  obtain ⟨hlo, hhi, hn⟩ | ⟨hlo, hhi, hn⟩ | ⟨hlo, hn⟩ := h
  · rwa [classOfByte_iphc ⟨hlo, hhi⟩]
  · rwa [classOfByte_frag1 ⟨hlo, hhi⟩]
  · rwa [classOfByte_fragN hlo]

-- ## RX_FRAME and the class UNKNOWN on an admitted frame (R265)

section Admitted
variable {s : State} {a : Arrival}

theorem exec_rxFrame_admitted {f : List Byte} (h : s.Admits a f.length) :
    exec (.rxFrame f a) s = receiveFrame f a { s with lastNow := a.now } :=
  withFrame_admitted a f.length (receiveFrame f a) s h.ready h.fits h.time

theorem exec_unknown_admitted {b : Byte} {rest : List Byte} (h : s.Admits a (1 + rest.length)) :
    exec (.unknown a b rest) s = .next ({ s with lastNow := a.now }.drop .unknownDispatch) :=
  withFrame_admitted a (1 + rest.length) _ s h.ready h.fits h.time

theorem receiveFrame_unknown {f : List Byte} (h : classify f = (.unknown, 0)) :
    receiveFrame f a s = .next (s.drop .unknownDispatch) := by
  simp only [receiveFrame, h]

theorem receiveFrame_truncated {f : List Byte} (h : classify f = (.truncated, 0)) :
    receiveFrame f a s = .next (s.drop .truncated) := by
  simp only [receiveFrame, h]

end Admitted

/-- Settles O20: CLASSIFY names the frame unknown or truncated, and RX_FRAME drops it with the code of that name. -/
theorem unknownAndTruncatedFramesAreDropped : Obligations.UnknownAndTruncatedFramesAreDropped := by
  unfold Obligations.UnknownAndTruncatedFramesAreDropped
  intro s f a hadm
  rw [exec_rxFrame_admitted hadm]
  refine ⟨?unknown, ?truncated⟩
  case unknown =>
    rintro ⟨b, rest, rfl, hrange⟩
    exact receiveFrame_unknown (classify_unknown rest (classOfByte_unknown hrange))
  case truncated =>
    rintro (rfl | ⟨b, rest, rfl, hshort⟩)
    · exact receiveFrame_truncated classify_nil
    · exact receiveFrame_truncated (classify_short (lt_headerLen_of_short hshort))

/-- Settles O22: an admitted frame of the default row is dropped, and drop writes the counter and the code alone. -/
theorem unknownClassIsDropped : Obligations.UnknownClassIsDropped := fun _ _ _ _ hadm =>
  exec_unknown_admitted hadm

end Sys2Proof.Machine

/-! The context-table family (spec/41_context_table.md): the three operations on the table (O9, O10, O11), and the
identifier of an absent entry as the decompressor meets it (O45). First an identifier operand as an index of the table;
then one equation per operation and outcome; then the stages of DECOMPRESS that answer whenever their bytes are there. -/

namespace Sys2Proof.Machine

-- ## The table by an index operand (R140 to R142, R144)

theorem ctxCount_eq_length_filter (t : CtxTable) :
    ctxCount t = ((List.finRange 16).filter (fun i => (t[i]).isSome)).length := by
  have hlist : t.toList = (List.finRange 16).map (fun i => t[i]) :=
    List.ext_getElem (by simp) fun i _ _ => by simp
  rw [ctxCount, hlist, List.countP_map, List.countP_eq_length_filter]
  rfl

section Index
variable {id : Byte} {k : Fin 16}

theorem badId_of_gt (h : 15 < id.toNat) : badId id = true := decide_eq_true h

theorem badId_of_eq (hk : id.toNat = k.val) : badId id = false := decide_eq_false (by omega)

/-- The low four bits of an identifier up to 15 are the identifier. -/
theorem toNat_ctxId (hk : id.toNat = k.val) : (ctxId id).toNat = k.val := by
  rw [ctxId, BitVec.extractLsb'_toNat, Nat.shiftRight_zero, hk]
  exact Nat.mod_eq_of_lt k.isLt

theorem ctxEntry_ctxId (t : CtxTable) (hk : id.toNat = k.val) : ctxEntry t (ctxId id) = t[k] := by
  simp only [ctxEntry, toNat_ctxId hk, Fin.getElem_fin]

theorem setCtx_ctxId (t : CtxTable) (e : Option CtxEntry) (hk : id.toNat = k.val) :
    setCtx t (ctxId id) e = t.set k.val e := by
  simp only [setCtx, toNat_ctxId hk]

theorem ctxId_eq_zero_iff (hk : id.toNat = k.val) : ctxId id = 0 ↔ k.val = 0 := by
  rw [← toNat_ctxId hk, ← BitVec.toNat_inj]
  rfl

end Index

/-- An entry in use is what LOOKUP answers (R144). -/
theorem lookupCtx_of_some {t : CtxTable} {i : BitVec 4} {e : CtxEntry} (h : ctxEntry t i = some e) :
    lookupCtx t i = some e := by
  rw [lookupCtx, h]

/-- Without an entry LOOKUP answers the implicit context of identifier 0, or nothing (R144). -/
theorem lookupCtx_of_none {t : CtxTable} {i : BitVec 4} (h : ctxEntry t i = none) :
    lookupCtx t i = if i = 0 then some implicitCtx else none := by
  rw [lookupCtx, h]

-- ## The three operations, one equation per outcome

section Operations
variable {s : State} {id : Byte}

theorem exec_ctxLookup_notInit (hi : s.initDone = false) : exec (.ctxLookup id) s = .next (s.ret 0x06 .notInit) :=
  if_pos (by rw [hi]; rfl)

theorem exec_ctxLookup_badArg (hi : s.initDone = true) (hid : badId id = true) :
    exec (.ctxLookup id) s = .next (s.ret 0x06 .badArg) := by
  simp [exec, execCtxLookup, hi, hid]

theorem exec_ctxLookup_ok (hi : s.initDone = true) (hid : badId id = false) :
    exec (.ctxLookup id) s = .next (s.ret 0x06 .ok (.context (lookupCtx s.ctx (ctxId id)))) := by
  simp [exec, execCtxLookup, hi, hid]

variable {pfx : BitVec 128} {len : Byte}

theorem exec_ctxInsert_notInit (hi : s.initDone = false) :
    exec (.ctxInsert id pfx len) s = .next (s.ret 0x07 .notInit) :=
  if_pos (by rw [hi]; rfl)

theorem exec_ctxInsert_badArg (hi : s.initDone = true) (h : (badId id || badLen len) = true) :
    exec (.ctxInsert id pfx len) s = .next (s.ret 0x07 .badArg) := by
  simp only [exec, execCtxInsert, hi, h, Bool.not_true, Bool.false_eq_true, if_true, if_false]

/-- With good arguments only the full table is left to test, and only for a new entry (R141). -/
theorem exec_ctxInsert_goodArgs (hi : s.initDone = true) (h : (badId id || badLen len) = false) :
    exec (.ctxInsert id pfx len) s =
      if ctxEntry s.ctx (ctxId id) = none ∧ ctxCount s.ctx = s.cfg.ctxCap then .next (s.ret 0x07 .ctxFull)
      else .next (State.ret { s with ctx := setCtx s.ctx (ctxId id) (some ⟨pfx, len⟩) } 0x07 .ok) := by
  simp only [exec, execCtxInsert, hi, h, Bool.not_true, Bool.false_eq_true, if_false]

theorem exec_ctxRemove_notInit (hi : s.initDone = false) : exec (.ctxRemove id) s = .next (s.ret 0x08 .notInit) :=
  if_pos (by rw [hi]; rfl)

theorem exec_ctxRemove_badArg (hi : s.initDone = true) (hid : badId id = true) :
    exec (.ctxRemove id) s = .next (s.ret 0x08 .badArg) := by
  simp [exec, execCtxRemove, hi, hid]

theorem exec_ctxRemove_ok (hi : s.initDone = true) (hid : badId id = false) :
    exec (.ctxRemove id) s = .next (State.ret { s with ctx := setCtx s.ctx (ctxId id) none } 0x08 .ok) := by
  simp [exec, execCtxRemove, hi, hid]

end Operations

/-- Settles O9: one equation per outcome, and LOOKUP by whether the entry is in use. -/
theorem ctxLookupReturnsTheEntry : Obligations.CtxLookupReturnsTheEntry := by
  unfold Obligations.CtxLookupReturnsTheEntry
  intro s id
  refine ⟨exec_ctxLookup_notInit, fun hi hid => exec_ctxLookup_badArg hi (badId_of_gt hid), fun k hi hk => ?_⟩
  rw [exec_ctxLookup_ok hi (badId_of_eq hk), ← ctxEntry_ctxId s.ctx hk]
  cases he : ctxEntry s.ctx (ctxId id) with
  | some e => rw [lookupCtx_of_some he]; rfl
  | none => simp only [lookupCtx_of_none he, ctxId_eq_zero_iff hk]; rfl

/-- Settles O10: the argument test covers both operands, and the full test counts the entries in use. -/
theorem ctxInsertWritesTheEntry : Obligations.CtxInsertWritesTheEntry := by
  unfold Obligations.CtxInsertWritesTheEntry
  intro s id pfx len
  refine ⟨exec_ctxInsert_notInit, fun hi hbad => exec_ctxInsert_badArg hi ?_, fun k hi hk hlen => ?_⟩
  · simpa [badId, badLen] using hbad
  · have hgood : (badId id || badLen len) = false := by simpa [badId_of_eq hk, badLen] using hlen
    rw [exec_ctxInsert_goodArgs hi hgood, ctxEntry_ctxId _ hk, setCtx_ctxId _ _ hk, ctxCount_eq_length_filter]
    rfl

/-- Settles O11: removal writes `none` whether or not the entry was in use. -/
theorem ctxRemoveClearsTheEntry : Obligations.CtxRemoveClearsTheEntry := by
  unfold Obligations.CtxRemoveClearsTheEntry
  intro s id
  refine ⟨exec_ctxRemove_notInit, fun hi hid => exec_ctxRemove_badArg hi (badId_of_gt hid), fun k hi hk => ?_⟩
  rw [exec_ctxRemove_ok hi (badId_of_eq hk), setCtx_ctxId _ _ hk]
  rfl

-- ## Absent contexts in the address stages (R143, R186 to R188)

section AbsentContext
variable {t : CtxTable} {i : BitVec 4}

theorem ctxReq_absent (hi : i ≠ 0) (hnone : ctxEntry t i = none) : ctxReq t i = .error .noContext := by
  rw [ctxReq, lookupCtx_of_none hnone, if_neg hi]

/-- The lookup comes before the in-line bytes, so it fails whatever they are (R186). -/
theorem decUnicast_absent (c : Config) (ll : LLAddr) (am : BitVec 2) (hi : i ≠ 0) (hnone : ctxEntry t i = none)
    (r : List Byte) : decUnicast c t ll true am i r = .error .noContext := by
  rw [decUnicast, if_pos rfl, ctxReq_absent hi hnone]
  rfl

theorem decSource_absent (c : Config) (ll : LLAddr) {sam : BitVec 2} (hsam : sam ≠ 0) (hi : i ≠ 0)
    (hnone : ctxEntry t i = none) (r : List Byte) : decSource c t ll true sam i r = .error .noContext := by
  rw [decSource, if_neg fun h => hsam h.2, decUnicast_absent c ll sam hi hnone]

theorem decDest_unicast_absent (c : Config) (ll : LLAddr) {dam : BitVec 2} (hdam : dam ≠ 0) (hi : i ≠ 0)
    (hnone : ctxEntry t i = none) (r : List Byte) : decDest c t ll false true dam i r = .error .noContext := by
  rw [decDest, if_neg Bool.false_ne_true, if_neg fun h => hdam h.2, decUnicast_absent c ll dam hi hnone]

theorem decDest_multicast_absent (c : Config) (ll : LLAddr) (hi : i ≠ 0) (hnone : ctxEntry t i = none)
    (r : List Byte) : decDest c t ll true true 0 i r = .error .noContext := by
  rw [decDest, if_pos rfl, decMulticast, if_pos rfl, if_pos rfl, ctxReq_absent hi hnone]
  rfl

end AbsentContext

-- ## Stages that answer whenever their bytes are there (R115, R192)

/-- A stage that can fail only for want of its `n` bytes. -/
structure Answers {α : Type} (n : Nat) (r : List Byte) (x : Except Status (α × List Byte)) : Prop where
  ok_of_le : n ≤ r.length → ∃ y, x = .ok y

section Answers
variable {α β : Type} {n : Nat} {P : α → Prop} {r : List Byte} {x : Except Status (α × List Byte)}

theorem Answers.ok (y : α × List Byte) : Answers n r (.ok y) := ⟨fun _ => ⟨y, rfl⟩⟩

theorem Answers.map (hx : Answers n r x) (f : α × List Byte → β × List Byte) :
    Answers n r (x >>= fun y => .ok (f y)) :=
  ⟨fun hn => (hx.ok_of_le hn).elim fun y hy => ⟨f y, hy ▸ rfl⟩⟩

/-- Past a stage whose bytes are there the error is the one of what follows. -/
theorem Answers.then_error (hx : Answers n r x) (hr : Reads n P r x) (hn : n ≤ r.length) {e : Status}
    {k : α × List Byte → Except Status β} (hk : ∀ v, P v → k (v, r.drop n) = .error e) : x >>= k = .error e := by
  obtain ⟨⟨v, q⟩, rfl⟩ := hx.ok_of_le hn
  obtain ⟨-, rfl, hv⟩ := hr.of_ok v q rfl
  exact hk v hv

end Answers

theorem takeBytes_answers (n : Nat) (r : List Byte) : Answers n r (takeBytes n r) :=
  ⟨fun h => ⟨_, if_neg (Nat.not_lt.2 h)⟩⟩

theorem decCie_answers (cid : Bool) (r : List Byte) : Answers (if cid then 1 else 0) r (decCie cid r) := by
  cases cid with
  | false => exact .ok _
  | true => exact (takeBytes_answers 1 r).map _

theorem decTf_answers (tf : BitVec 2) (r : List Byte) : Answers (tfLen tf) r (decTf tf r) :=
  (takeBytes_answers _ r).map _

theorem decNextHeader_answers (nh : Bool) (r : List Byte) : Answers (if nh then 0 else 1) r (decNextHeader nh r) := by
  cases nh with
  | false => exact (takeBytes_answers 1 r).map _
  | true => exact .ok _

theorem decHopLimit_answers (hlim : BitVec 2) (r : List Byte) :
    Answers (if hlim = 0 then 1 else 0) r (decHopLimit hlim r) := by
  unfold decHopLimit
  split_ifs with h
  · subst h
    exact (takeBytes_answers 1 r).map _
  · obtain ⟨hl, hv⟩ := hlimValue_elided hlim h
    rw [hv]
    exact .ok _

theorem decSource_stateless_answers (c : Config) (t : CtxTable) (ll : LLAddr) (sam : BitVec 2) (sci : BitVec 4)
    (r : List Byte) : Answers (amLen false sam) r (decSource c t ll false sam sci r) :=
  (takeBytes_answers _ r).map _

-- ## The error of an address stage is the error of DECOMPRESS (R192)

/-- The identifiers SCI and DCI that the bytes after the base bytes give (R182). -/
def ctxIds (cid : Bool) (r : List Byte) : BitVec 4 × BitVec 4 :=
  if cid then ((byteAt r 0).extractLsb' 4 4, (byteAt r 0).extractLsb' 0 4) else (0, 0)

theorem decCie_reads_ctxIds (cid : Bool) (r : List Byte) :
    Reads (if cid then 1 else 0) (· = ctxIds cid r) r (decCie cid r) := by
  cases cid with
  | false => exact .nothing rfl
  | true =>
    refine (takeBytes_reads 1 r).map (fun t => ((byteAt t 0).extractLsb' 4 4, (byteAt t 0).extractLsb' 0 4)) ?_
    rintro _ ⟨rfl, -⟩
    rw [byteAt_take Nat.one_pos]
    rfl

theorem decNextHeader_reads (nh : Bool) (r : List Byte) :
    Reads (if nh then 0 else 1) (fun _ => True) r (decNextHeader nh r) := by
  cases nh with
  | false => exact (takeBytes_reads 1 r).map (fun t => some (byteAt t 0)) fun _ _ => trivial
  | true => exact .nothing trivial

section AddressError
variable {c : Config} {t : CtxTable} {srcLl dstLl : LLAddr} {f : IphcBase} {r : List Byte} {e : Status}
  {sci dci : BitVec 4}

/-- No packet comes of a header with an address stage that fails whatever bytes it is given. -/
theorem decompressBody_ne_ok (p : List Byte) (hids : ctxIds f.cid r = (sci, dci))
    (h : (∀ q, decSource c t srcLl f.sac f.sam sci q = .error e) ∨
      ∀ q, decDest c t dstLl f.m f.dac f.dam dci q = .error e) :
    decompressBody c t srcLl dstLl f r ≠ .ok p := by
  intro hok
  obtain ⟨_, rfl, -, hok⟩ := (decCie_reads_ctxIds f.cid r).then_ok hok
  rw [hids] at hok
  obtain ⟨_, -, -, hok⟩ := (decTf_reads f.tf _).then_ok hok
  obtain ⟨_, -, -, hok⟩ := (decNextHeader_reads f.nh _).then_ok hok
  obtain ⟨_, -, -, hok⟩ := (decHopLimit_reads f.hlim _).then_ok hok
  obtain hsrc | hdst := h
  · dsimp only at hok
    rw [hsrc] at hok
    cases hok
  · obtain ⟨_, -, -, hok⟩ := (decSource_reads c t srcLl f.sac f.sam _ _).then_ok hok
    dsimp only at hok
    rw [hdst] at hok
    cases hok

/-- With the whole header there the stages before the addresses answer, and a stateless source does too. -/
theorem decompressBody_error (hlen : iphcHdrLen f ≤ iphcBaseLen + r.length) (hids : ctxIds f.cid r = (sci, dci))
    (h : (∀ q, decSource c t srcLl f.sac f.sam sci q = .error e) ∨
      (f.sac = false ∧ ∀ q, decDest c t dstLl f.m f.dac f.dam dci q = .error e)) :
    decompressBody c t srcLl dstLl f r = .error e := by
  rw [iphcHdrLen] at hlen
  refine (decCie_answers f.cid r).then_error (decCie_reads_ctxIds f.cid r) (by omega) ?_
  rintro _ rfl
  rw [hids]
  refine (decTf_answers f.tf _).then_error (decTf_reads f.tf _) (by rw [List.length_drop]; omega) fun _ _ => ?_
  refine (decNextHeader_answers f.nh _).then_error (decNextHeader_reads f.nh _)
    (by simp only [List.length_drop]; omega) fun _ _ => ?_
  refine (decHopLimit_answers f.hlim _).then_error (decHopLimit_reads f.hlim _)
    (by simp only [List.length_drop]; omega) fun _ _ => ?_
  obtain hsrc | ⟨hsac, hdst⟩ := h
  · dsimp only
    rw [hsrc]
    rfl
  · rw [hsac] at hlen ⊢
    refine (decSource_stateless_answers c t srcLl f.sam _ _).then_error (decSource_reads c t srcLl false f.sam _ _)
      (by simp only [List.length_drop]; omega) fun _ _ => ?_
    dsimp only
    rw [hdst]
    rfl

end AddressError

theorem decompress_of_le (c : Config) (t : CtxTable) {b : List Byte} (srcLl dstLl : LLAddr)
    (h : iphcBaseLen ≤ b.length) :
    decompress c t b srcLl dstLl =
      decompressBody c t srcLl dstLl (iphcBaseOf (byteAt b 0) (byteAt b 1)) (b.drop iphcBaseLen) := by
  have htake : takeBytes iphcBaseLen b = .ok (b.take iphcBaseLen, b.drop iphcBaseLen) := if_neg (Nat.not_lt.2 h)
  rw [decompress, htake, ← byteAt_take (l := b) (i := 0) (n := iphcBaseLen) (by decide),
    ← byteAt_take (l := b) (i := 1) (n := iphcBaseLen) (by decide)]
  rfl

/-- The identifiers of a header with CID = 1 stand in its third byte (R98, R182). -/
theorem ctxIds_drop_base {cid : Bool} (h : cid = true) (b : List Byte) :
    ctxIds cid (b.drop iphcBaseLen) = ((byteAt b 2).extractLsb' 4 4, (byteAt b 2).extractLsb' 0 4) := by
  have hbyte : byteAt (b.drop iphcBaseLen) 0 = byteAt b 2 := by simp [byteAt, iphcBaseLen]
  rw [ctxIds, h, if_pos rfl, hbyte]

/-- Settles O45: CTXREQ fails in the stage that names the absent entry, which ends DECOMPRESS, and with E_NO_CONTEXT
where no stage before it can fail. -/
theorem absentContextNeverDecompresses : Obligations.AbsentContextNeverDecompresses := by
  unfold Obligations.AbsentContextNeverDecompresses
  intro c t b p src dst f sci dci source unicast multicast hcid habsent
  have hids : ctxIds f.cid (b.drop iphcBaseLen) = (sci, dci) := ctxIds_drop_base hcid b
  have hsource : source → ∀ q, decSource c t src f.sac f.sam sci q = .error .noContext := by
    rintro ⟨hsac, hsam, hsci, hnone⟩
    rw [hsac]
    exact decSource_absent c src hsam hsci hnone
  have hdest : unicast ∨ multicast → ∀ q, decDest c t dst f.m f.dac f.dam dci q = .error .noContext := by
    rintro (⟨hm, hdac, hdam, hdci, hnone⟩ | ⟨hm, hdac, hdam, hdci, hnone⟩)
    · rw [hm, hdac]
      exact decDest_unicast_absent c dst hdam hdci hnone
    · rw [hm, hdac, hdam]
      exact decDest_multicast_absent c dst hdci hnone
  refine ⟨fun hok => decompressBody_ne_ok p hids (habsent.imp hsource hdest) (decompress_ok hok).2,
    fun hlen hfirst => ?_⟩
  have hbase : iphcBaseLen ≤ b.length := (iphcBaseLen_le_iphcHdrLen f).trans hlen
  have hbody : iphcHdrLen f ≤ iphcBaseLen + (b.drop iphcBaseLen).length := by
    rwa [List.length_drop, Nat.add_sub_cancel' hbase]
  rw [decompress_of_le c t src dst hbase]
  refine decompressBody_error hbody hids ?_
  obtain hs | hsac := hfirst
  · exact .inl (hsource hs)
  · exact habsent.imp hsource fun hd => ⟨hsac, hdest hd⟩

end Sys2Proof.Machine

/-! The compressor family (spec/42_iphc_compressor.md): which packets IPHC expresses (O40), what DECOMPRESS makes of a
compressed packet (O39), and how long that is (O41). First the parts of a packet and the guard of R151; then, stage by
stage in the order of R99, that the decompressor's stage reads back what the compressor wrote; the lengths follow,
because a stage that reads back what was written has read all of it. -/

namespace Sys2Proof.Machine

-- ## The parts of a packet (R9, R108)

theorem slice_cons {l : List Byte} {i j : Nat} (hi : i < l.length) (hj : i < j) :
    slice l i j = byteAt l i :: slice l (i + 1) j := by
  have hn : j - i = j - (i + 1) + 1 := by omega
  rw [slice, hn, List.drop_eq_getElem_cons hi, List.take_succ_cons, byteAt, List.getD_eq_getElem _ _ hi, slice]

theorem slice_same (l : List Byte) (i : Nat) : slice l i i = [] := by simp [slice]

theorem slice_append_slice (l : List Byte) {i j k : Nat} (hij : i ≤ j) (hjk : j ≤ k) :
    slice l i j ++ slice l j k = slice l i k := by
  have hk : k - i = j - i + (k - j) := by omega
  have hj : i + (j - i) = j := by omega
  rw [slice, slice, slice, hk, List.take_add, List.drop_drop, hj]

theorem slice_append_drop (l : List Byte) {i j : Nat} (hij : i ≤ j) : slice l i j ++ l.drop j = l.drop i := by
  have hj : i + (j - i) = j := by omega
  rw [slice, ← hj, ← List.drop_drop, hj, List.take_append_drop]

theorem slice_to_end {l : List Byte} {n : Nat} (h : l.length = n) (i : Nat) : slice l i n = l.drop i := by
  simp [slice, ← h]

theorem fromBE_pair (a b : Byte) : fromBE [a, b] = a.toNat * 256 + b.toNat := by simp [fromBE]

/-- Two bytes written as a number of 16 bits and back (R9). -/
theorem beBytes_two_fromBE (a b : Byte) : beBytes 2 (fromBE [a, b]) = [a, b] := by
  have ha := a.isLt
  have hb := b.isLt
  simp only [fromBE_pair, beBytes, List.cons.injEq, and_true]
  constructor <;> apply BitVec.eq_of_toNat_eq <;> simp [Nat.shiftRight_eq_div_pow] <;> omega

theorem beBytes_fromBE_slice {l : List Byte} {i : Nat} (h : i + 2 ≤ l.length) :
    beBytes 2 (fromBE (slice l i (i + 2))) = slice l i (i + 2) := by
  rw [slice_cons (by omega) (by omega), slice_cons (by omega) (by omega), slice_same, beBytes_two_fromBE]

-- ## The packets that IPHC expresses (R151)

/-- The version is the high half of the first byte (R108). -/
theorem version_eq_six_iff (b : Byte) : b.extractLsb' 4 4 = 6 ↔ b.toNat / 16 = 6 := by
  have hb := b.isLt
  rw [← BitVec.toNat_inj, BitVec.extractLsb'_toNat, Nat.shiftRight_eq_div_pow]
  simp
  omega

theorem fromBE_lengthField {p : List Byte} (h : 40 ≤ p.length) :
    fromBE (slice p 4 6) = (byteAt p 4).toNat * 256 + (byteAt p 5).toNat := by
  rw [slice_cons (by omega) (by omega), slice_cons (by omega) (by omega), slice_same, fromBE_pair]

theorem compressible_iff (p : List Byte) :
    compressible p = true ↔ 40 ≤ p.length ∧ (byteAt p 0).toNat / 16 = 6 ∧
      (byteAt p 4).toNat * 256 + (byteAt p 5).toNat = p.length - 40 := by
  by_cases h : 40 ≤ p.length
  · simp [compressible, ipv6HdrLen, h, ← fromBE_lengthField h, ← version_eq_six_iff]
  · simp [compressible, ipv6HdrLen, h]

/-- Settles O40: each clause denies the guard. -/
theorem inexpressiblePacketGoesUncompressed : Obligations.InexpressiblePacketGoesUncompressed := by
  unfold Obligations.InexpressiblePacketGoesUncompressed
  intro c t p src dst h
  have hguard : ¬ compressible p = true := by
    rw [compressible_iff]
    omega
  rw [compress, if_neg hguard, uncompressed]

-- ## A stage of DECOMPRESS reads back what COMPRESS wrote for it (R163)

/-- A stage that, where the bytes `w` come first, answers `v` and leaves the bytes after `w`. -/
structure ReadsBack {α : Type} (x : List Byte → Except Status (α × List Byte)) (w : List Byte) (v : α) : Prop where
  eq_ok : ∀ r, x (w ++ r) = .ok (v, r)

section ReadsBack
variable {α β : Type} {x : List Byte → Except Status (α × List Byte)} {w : List Byte} {v : α}

theorem ReadsBack.nothing (v : α) : ReadsBack (fun r => .ok (v, r)) [] v := ⟨fun _ => rfl⟩

theorem ReadsBack.map (hx : ReadsBack x w v) (f : α → β) {u : β} (hf : f v = u) :
    ReadsBack (fun r => x r >>= fun (v, r') => .ok (f v, r')) w u :=
  ⟨fun r => by rw [hx.eq_ok r, ← hf]; rfl⟩

/-- What follows a stage starts with its value, at the bytes behind its own. -/
theorem ReadsBack.then_eq (hx : ReadsBack x w v) {k : α × List Byte → Except Status β} {r : List Byte}
    {y : Except Status β} (h : k (v, r) = y) : x (w ++ r) >>= k = y := by
  rw [hx.eq_ok r, ← h]
  rfl

/-- A stage that reads back what was written reads all of it. -/
theorem ReadsBack.length_eq (hx : ReadsBack x w v) {n : Nat} {P : α → Prop} (hr : ∀ r, Reads n P r (x r)) :
    w.length = n := by
  obtain ⟨hle, hnil, -⟩ := (hr w).of_ok v [] (by simpa using hx.eq_ok [])
  have hge : w.length ≤ n := List.drop_eq_nil_iff.1 hnil.symm
  omega

end ReadsBack

theorem takeBytes_readsBack {n : Nat} {w : List Byte} (h : w.length = n) : ReadsBack (takeBytes n) w w :=
  ⟨fun r => by subst h; simp [takeBytes]⟩

-- ### The fields before the addresses (R152 to R154, R182 to R185)

/-- The identifiers are left out only when both are 0, which is what their absence stands for (R158, R182). -/
theorem decCie_readsBack (s d : BitVec 4) :
    ReadsBack (decCie (decide (s ≠ 0 ∨ d ≠ 0))) (if decide (s ≠ 0 ∨ d ≠ 0) then [s ++ d] else []) (s, d) := by
  by_cases h : s ≠ 0 ∨ d ≠ 0
  · rw [decide_eq_true h]
    refine (takeBytes_readsBack (n := 1) (w := [s ++ d]) rfl).map
      (fun t => ((byteAt t 0).extractLsb' 4 4, (byteAt t 0).extractLsb' 0 4)) ?_
    exact Prod.ext BitVec.extractLsb'_append_eq_left BitVec.extractLsb'_append_eq_right
  · obtain ⟨rfl, rfl⟩ : s = 0 ∧ d = 0 := by simpa using h
    exact .nothing _

theorem decTf_readsBack (tc : Byte) (fl : BitVec 20) :
    ReadsBack (decTf (tfMode tc fl)) (tfInline (tfMode tc fl) tc fl) (tc, fl) :=
  (takeBytes_readsBack (length_tfInline _ tc fl)).map _ (trafficClassRoundTrip tc fl).2

theorem decNextHeader_readsBack (nh : Bool) (b : Byte) :
    ReadsBack (decNextHeader nh) (if nh then [] else [b]) (if nh then none else some b) := by
  cases nh with
  | false => exact (takeBytes_readsBack (n := 1) (w := [b]) rfl).map (fun t => some (byteAt t 0)) rfl
  | true => exact .nothing _

/-- An HLIM code that is not `00` stands for the hop limit it was chosen for (R96, R154). -/
theorem hlimValue_hlimMode {hl : Byte} (h : hlimMode hl ≠ 0) : hlimValue (hlimMode hl) = some hl := by
  unfold hlimMode at h ⊢
  split_ifs at h ⊢ with h1 h64 h255
  · rw [h1]; rfl
  · rw [h64]; rfl
  · rw [h255]; rfl
  · exact absurd rfl h

theorem decHopLimit_readsBack (hl : Byte) :
    ReadsBack (decHopLimit (hlimMode hl)) (if hlimMode hl = 0 then [hl] else []) hl := by
  unfold decHopLimit
  split_ifs with h
  · rw [h]
    exact (takeBytes_readsBack (n := 1) (w := [hl]) rfl).map (byteAt · 0) rfl
  · rw [hlimValue_hlimMode h]
    exact .nothing _

-- ### Addresses (R155 to R157, R186 to R188)

/-- An identifier found names an entry in use that satisfies the test. -/
theorem findCtx_some {t : CtxTable} {p : CtxEntry → Bool} {i : BitVec 4} (h : findCtx t p = some i) :
    ∃ e, ctxEntry t i = some e ∧ p e = true := by
  have hi := List.find?_some h
  split at hi
  · next e he => exact ⟨e, he, hi⟩
  · cases hi

theorem ctxReq_of_some {t : CtxTable} {i : BitVec 4} {e : CtxEntry} (h : ctxEntry t i = some e) :
    ctxReq t i = .ok e := by
  rw [ctxReq, lookupCtx_of_some h]

section Unicast
variable {c : Config} {t : CtxTable} {ll : LLAddr} {am : BitVec 2} {i : BitVec 4} {e : CtxEntry} {w a : List Byte}

theorem decUnicast_stateless_readsBack (hw : w.length = amLen false am)
    (ha : (if am = 0 then w else llPrefix ++ amIid c am ll w) = a) : ReadsBack (decUnicast c t ll false am i) w a :=
  (takeBytes_readsBack hw).map (fun a => if am = 0 then a else llPrefix ++ amIid c am ll a) ha

theorem decUnicast_context_readsBack (he : ctxEntry t i = some e) (hw : w.length = amLen true am)
    (ha : reconCtx e (amIid c am ll w) = a) : ReadsBack (decUnicast c t ll true am i) w a := by
  refine ⟨fun r => ?_⟩
  rw [decUnicast, if_pos rfl, ctxReq_of_some he]
  exact ((takeBytes_readsBack hw).map (fun a => reconCtx e (amIid c am ll a)) ha).eq_ok r

end Unicast

/-- `e` stands for the unicast address `a`: its mode is not `AC = 1, AM = 00`, which means something else (R102), and
the decompressor's stage gives `a` back. -/
structure AddrEnc.StandsFor (c : Config) (t : CtxTable) (ll : LLAddr) (a : List Byte) (e : AddrEnc) : Prop where
  unicast : ¬(e.ac ∧ e.am = 0)
  readsBack : ReadsBack (decUnicast c t ll e.ac e.am e.ci) e.bytes a

/-- A context mode is chosen only where the reconstruction from that very context is the address (R155 step 3). -/
theorem encCtx_standsFor {c : Config} {t : CtxTable} {ll : LLAddr} {a : List Byte} {e : AddrEnc}
    (ha : a.length = 16) (h : encCtx c t ll a = some e) : e.StandsFor c t ll a := by
  obtain ⟨⟨am, w⟩, hmode, hfound⟩ := List.exists_of_findSome?_eq_some h
  obtain ⟨i, hi, rfl⟩ := Option.map_eq_some_iff.1 hfound
  obtain ⟨ce, hce, hrecon⟩ := findCtx_some hi
  have hw : am ≠ 0 ∧ w.length = amLen true am := by
    simp only [ctxModes, List.mem_cons, Prod.mk.injEq, List.not_mem_nil, or_false] at hmode
    obtain ⟨rfl, rfl⟩ | ⟨rfl, rfl⟩ | ⟨rfl, rfl⟩ := hmode
    · exact ⟨by decide, rfl⟩
    · exact ⟨by decide, length_slice a ha.ge⟩
    · exact ⟨by decide, length_slice a ha.ge⟩
  exact ⟨fun hz => hw.1 hz.2, decUnicast_context_readsBack hce hw.2 (eq_of_beq hrecon)⟩

theorem encUnicast_standsFor (c : Config) (t : CtxTable) (ll : LLAddr) {a : List Byte} (ha : a.length = 16) :
    (encUnicast c t ll a).StandsFor c t ll a := by
  have hhalves : slice a 0 8 ++ slice a 8 16 = a := by
    rw [slice_append_slice a (by decide) (by decide), slice_to_end ha, List.drop_zero]
  unfold encUnicast
  split_ifs with hprefix hiid hshort
  · rw [hprefix, hiid] at hhalves
    exact ⟨nofun, decUnicast_stateless_readsBack rfl hhalves⟩
  · rw [hprefix, ← slice_append_slice a (i := 8) (j := 14) (by decide) (by decide), hshort] at hhalves
    exact ⟨nofun, decUnicast_stateless_readsBack (length_slice a ha.ge) hhalves⟩
  · rw [hprefix] at hhalves
    exact ⟨nofun, decUnicast_stateless_readsBack (length_slice a ha.ge) hhalves⟩
  · split
    · next e he => exact encCtx_standsFor ha he
    · exact ⟨nofun, decUnicast_stateless_readsBack ha rfl⟩

theorem decSource_readsBack (c : Config) (t : CtxTable) (ll : LLAddr) {a : List Byte} (ha : a.length = 16) :
    ReadsBack (decSource c t ll (encSource c t ll a).ac (encSource c t ll a).am (encSource c t ll a).ci)
      (encSource c t ll a).bytes a := by
  unfold encSource
  split_ifs with hzero
  · rw [hzero]
    exact .nothing _
  · have hu := encUnicast_standsFor c t ll ha
    refine ⟨fun r => ?_⟩
    rw [decSource, if_neg hu.unicast]
    exact hu.readsBack.eq_ok r

section Multicast
variable {t : CtxTable} {dam : BitVec 2} {i : BitVec 4} {e : CtxEntry} {w a : List Byte}

theorem decMulticast_stateless_readsBack (hw : w.length = mcLen false dam) (ha : mcStateless dam w = a) :
    ReadsBack (decMulticast t false dam i) w a := (takeBytes_readsBack hw).map (mcStateless dam) ha

theorem decMulticast_context_readsBack (he : ctxEntry t i = some e) (hw : w.length = 6) (ha : reconMcCtx e w = a) :
    ReadsBack (decMulticast t true 0 i) w a := by
  refine ⟨fun r => ?_⟩
  rw [decMulticast, if_pos rfl, if_pos rfl, ctxReq_of_some he]
  exact ((takeBytes_readsBack hw).map (reconMcCtx e) ha).eq_ok r

/-- The two bytes `ff` and scope, a middle part and the last bytes make up a multicast address. -/
theorem multicast_parts (ha : a.length = 16) (hff : byteAt a 0 = 0xff) {k : Nat} (h2 : 2 ≤ k) (hk : k ≤ 16) :
    [0xff, byteAt a 1] ++ slice a 2 k ++ slice a k 16 = a := by
  have hhead : slice a 0 2 = [0xff, byteAt a 1] := by
    rw [slice_cons (by omega) (by decide), slice_cons (by omega) (by decide), slice_same, hff]
  rw [← hhead, slice_append_slice a (by decide) h2, slice_append_slice a (by omega) hk, slice_to_end ha, List.drop_zero]

/-- The mode that puts the scope byte and the bytes from `k` on in line gives back an address whose middle is zero
(R103, R157 steps 2 and 3). -/
theorem multicast_scope_tail (ha : a.length = 16) (hff : byteAt a 0 = 0xff) {k : Nat} (h2 : 2 ≤ k) (hk : k ≤ 16)
    (hmid : slice a 2 k = zeros (k - 2)) (hw : w = slice a 1 2 ++ slice a k 16) :
    w.length = 17 - k ∧ [0xff, byteAt w 0] ++ zeros (k - 2) ++ slice w 1 (17 - k) = a := by
  have hscope : slice a 1 2 = [byteAt a 1] := by rw [slice_cons (by omega) (by decide), slice_same]
  have htail : (slice a k 16).length = 16 - k := length_slice a ha.ge
  have hlen : 17 - k - 1 = (slice a k 16).length := by omega
  rw [hscope] at hw
  subst hw
  refine ⟨by simp [htail]; omega, ?_⟩
  have hrest : slice ([byteAt a 1] ++ slice a k 16) 1 (17 - k) = slice a k 16 := by
    rw [slice, hlen]
    exact List.take_length
  rw [hrest, ← hmid]
  exact multicast_parts ha hff h2 hk

end Multicast

theorem decMulticast_readsBack (t : CtxTable) {a : List Byte} (ha : a.length = 16) (hff : byteAt a 0 = 0xff) :
    ReadsBack (decMulticast t (encMulticast t a).ac (encMulticast t a).am (encMulticast t a).ci)
      (encMulticast t a).bytes a := by
  unfold encMulticast
  split_ifs with hlast hthree hfive
  · obtain ⟨hscope, hmid⟩ := hlast
    have hparts := multicast_parts ha hff (k := 15) (by decide) (by decide)
    rw [hscope, hmid] at hparts
    exact decMulticast_stateless_readsBack (length_slice a ha.ge) hparts
  · obtain ⟨hlen, hparts⟩ := multicast_scope_tail ha hff (by decide) (by decide) hthree rfl
    exact decMulticast_stateless_readsBack hlen hparts
  · obtain ⟨hlen, hparts⟩ := multicast_scope_tail ha hff (by decide) (by decide) hfive rfl
    exact decMulticast_stateless_readsBack hlen hparts
  · dsimp only
    split
    · next i hi =>
      obtain ⟨e, he, hrecon⟩ := findCtx_some hi
      have hlen : (slice a 1 3 ++ slice a 12 16).length = 6 := by
        rw [List.length_append, length_slice a (by omega), length_slice a ha.ge]
      exact decMulticast_context_readsBack he hlen (eq_of_beq hrecon)
    · exact decMulticast_stateless_readsBack ha rfl

theorem decDest_readsBack (c : Config) (t : CtxTable) (ll : LLAddr) {a : List Byte} (ha : a.length = 16) :
    ReadsBack (decDest c t ll (isMulticast a) (encDest c t ll a).ac (encDest c t ll a).am (encDest c t ll a).ci)
      (encDest c t ll a).bytes a := by
  refine ⟨fun r => ?_⟩
  unfold encDest decDest
  split_ifs with hm hreserved
  · exact (decMulticast_readsBack t ha (eq_of_beq hm)).eq_ok r
  · exact absurd hreserved (encUnicast_standsFor c t ll ha).unicast
  · exact (encUnicast_standsFor c t ll ha).readsBack.eq_ok r

-- ### What follows the header (R160, R189 to R191)

theorem nibble_parts {b : Byte} (h : b.extractLsb' 4 4 = 0xb) : 0xb#4 ++ b.extractLsb' 0 4 = b := by
  have hparts : b.extractLsb' 4 4 ++ b.extractLsb' 0 4 = b := BitVec.extractLsb'_append_extractLsb'
  rwa [h] at hparts

/-- The port mode has the ports' bytes in line that give the four port bytes back (R107, R160). -/
theorem portsOperands_encPorts {u : List Byte} (hu : u.length = 4) :
    (encPorts u).2.length = portsLen (encPorts u).1 ∧ portsOperands (encPorts u).1 (encPorts u).2 = u := by
  obtain ⟨s0, s1, d0, d1, rfl⟩ := List.length_eq_four.1 hu
  simp only [encPorts, byteAt, List.getD_cons_zero, List.getD_cons_succ]
  split_ifs with hboth hdst hsrc
  · obtain ⟨rfl, hs1, rfl, hd1⟩ := hboth
    refine ⟨rfl, ?_⟩
    simp only [portsOperands, byteAt, List.getD_cons_zero, BitVec.extractLsb'_append_eq_left,
      BitVec.extractLsb'_append_eq_right, nibble_parts hs1, nibble_parts hd1]
    rfl
  · subst hdst
    exact ⟨rfl, rfl⟩
  · subst hsrc
    exact ⟨rfl, rfl⟩
  · exact ⟨rfl, rfl⟩

theorem compressesNh_cases {c : Config} {p : List Byte} (h : compressesNh c p = true) :
    c.nhcEn = true ∧ byteAt p 6 = nhUdp ∧ 48 ≤ p.length ∧ fromBE (slice p 44 46) = p.length - 40 := by
  simp only [compressesNh, Bool.and_eq_true, beq_iff_eq] at h
  obtain ⟨⟨hen, hnh⟩, hudp⟩ := h
  obtain ⟨hlen, hfield⟩ := of_decide_eq_true hudp
  have hrest : 8 ≤ p.length - 40 := hlen
  exact ⟨hen, hnh, by omega, hfield⟩

/-- Assembly sees the upper-layer header and the rest only as one payload (R191). -/
theorem assembleIpv6_payload (c : Config) (tc : Byte) (fl : BitVec 20) (nh hl : Byte) (src dst upper rest : List Byte) :
    assembleIpv6 c tc fl nh hl src dst upper rest = assembleIpv6 c tc fl nh hl src dst [] (upper ++ rest) := rfl

/-- Ports, length and checksum of the UDP header and what follows it make up the payload; the length field is the number
of bytes from the UDP header on, which is why the compressor may leave it out (R160). -/
theorem udpPayload_parts {c : Config} {p : List Byte} (h : compressesNh c p = true) :
    slice p 40 44 ++ beBytes 2 (udpHdrLen + (p.drop 48).length) ++ slice p 46 48 ++ p.drop 48 = p.drop 40 := by
  obtain ⟨-, -, hlen, hfield⟩ := compressesNh_cases h
  have hudp : udpHdrLen + (p.drop 48).length = fromBE (slice p 44 46) := by
    rw [hfield, udpHdrLen, List.length_drop]
    omega
  rw [hudp, beBytes_fromBE_slice (by omega), slice_append_slice p (by decide) (by decide),
    slice_append_slice p (by decide) (by decide), slice_append_drop p (by decide)]

/-- The NHC stage rebuilds the UDP header that the compressor replaced (R160, R189). -/
theorem decNhc_encNhc {c : Config} {p : List Byte} (h : compressesNh c p = true) (tc : Byte) (fl : BitVec 20)
    (hl : Byte) (src dst : List Byte) :
    decNhc c tc fl hl src dst (encNhc p ++ p.drop 48) =
      assembleIpv6 c tc fl (byteAt p 6) hl src dst [] (p.drop 40) := by
  obtain ⟨hen, hnh, hlen, -⟩ := compressesNh_cases h
  obtain ⟨hports, hback⟩ := portsOperands_encPorts (u := slice p 40 44) (length_slice p (by omega))
  rw [encNhc, decNhc, hen, hnh]
  simp only [List.append_assoc]
  refine (takeBytes_readsBack (n := 1) (w := [udpNhcByte (encPorts (slice p 40 44)).1]) rfl).then_eq ?_
  simp only [byteAt, List.getD_cons_zero]
  rw [if_pos (isUdpNhc_udpNhcByte _), udpNhcByte_mode]
  refine (takeBytes_readsBack hports).then_eq ((takeBytes_readsBack (length_slice p hlen)).then_eq ?_)
  dsimp only
  rw [assembleIpv6_payload, hback, udpPayload_parts h]

/-- Version 6, traffic class and flow label make up the first 4 bytes (R108, R152). -/
theorem versionTcFl_bytes {p : List Byte} (hversion : (byteAt p 0).extractLsb' 4 4 = 6) :
    [0x6#4 ++ (packetTc p).extractLsb' 4 4, (packetTc p).extractLsb' 0 4 ++ (packetFl p).extractLsb' 16 4,
      (packetFl p).extractLsb' 8 8, (packetFl p).extractLsb' 0 8] =
      [byteAt p 0, byteAt p 1, byteAt p 2, byteAt p 3] := by
  have halves (b : Byte) : b.extractLsb' 4 4 ++ b.extractLsb' 0 4 = b := BitVec.extractLsb'_append_extractLsb'
  have h0 : 0x6#4 ++ (byteAt p 0).extractLsb' 0 4 = byteAt p 0 := by
    have hparts := halves (byteAt p 0)
    rwa [hversion] at hparts
  have hflHigh : (packetFl p).extractLsb' 16 4 = (byteAt p 1).extractLsb' 0 4 := by
    simp (disch := decide) only [packetFl, BitVec.extractLsb'_append_eq_of_le, Nat.reduceSub,
      BitVec.extractLsb'_eq_self]
  have hflMid : (packetFl p).extractLsb' 8 8 = byteAt p 2 := by
    rw [packetFl, BitVec.extractLsb'_append_eq_of_le (by decide)]
    exact BitVec.extractLsb'_append_eq_right
  have hflLow : (packetFl p).extractLsb' 0 8 = byteAt p 3 := BitVec.extractLsb'_append_eq_right
  rw [packetTc, BitVec.extractLsb'_append_eq_left, BitVec.extractLsb'_append_eq_right, hflHigh, hflMid, hflLow, h0,
    halves]

/-- The fields that COMPRESS reads and the length field make up the first 8 bytes (R108). -/
theorem ipv6Head_of_compressible {p : List Byte} (h : compressible p = true) :
    ipv6Head (packetTc p) (packetFl p) (p.length - 40) (byteAt p 6) (byteAt p 7) = slice p 0 8 := by
  obtain ⟨hlen, hversion, hfield⟩ := (compressible_iff p).1 h
  have hplen : beBytes 2 (p.length - 40) = slice p 4 6 := by
    rw [← hfield, ← fromBE_lengthField hlen, beBytes_fromBE_slice (by omega)]
  have h04 : slice p 0 4 = [byteAt p 0, byteAt p 1, byteAt p 2, byteAt p 3] := by
    simp (disch := omega) only [slice_cons, slice_same]
  have h68 : slice p 6 8 = [byteAt p 6, byteAt p 7] := by
    simp (disch := omega) only [slice_cons, slice_same]
  rw [ipv6Head, versionTcFl_bytes ((version_eq_six_iff _).2 hversion), hplen, ← h04, ← h68,
    slice_append_slice p (by decide) (by decide), slice_append_slice p (by decide) (by decide)]

/-- The parts of a compressible packet assemble to it again (R151, R191). -/
theorem assembleIpv6_of_compressible {c : Config} {p : List Byte} (h : compressible p = true)
    (hmax : p.length ≤ c.maxIpv6Len) :
    assembleIpv6 c (packetTc p) (packetFl p) (byteAt p 6) (byteAt p 7) (slice p 8 24) (slice p 24 40) [] (p.drop 40) =
      .ok p := by
  obtain ⟨hlen, -, -⟩ := (compressible_iff p).1 h
  have hfits : ¬ ipv6HdrLen + (p.drop 40).length > c.maxIpv6Len := by
    rw [ipv6HdrLen, List.length_drop]
    omega
  rw [assembleIpv6, List.nil_append, if_neg hfits, List.length_drop, ipv6Head_of_compressible h,
    slice_append_slice p (by decide) (by decide), slice_append_slice p (by decide) (by decide),
    slice_append_drop p (by decide), List.drop_zero]

theorem decompressBody_compressTail (c : Config) (t : CtxTable) {p : List Byte} (srcLl dstLl : LLAddr)
    (hlen : 40 ≤ p.length) :
    let s := encSource c t srcLl (slice p 8 24)
    let d := encDest c t dstLl (slice p 24 40)
    decompressBody c t srcLl dstLl (compressBase c p s d) (compressTail c p (compressBase c p s d) s d) =
      assembleIpv6 c (packetTc p) (packetFl p) (byteAt p 6) (byteAt p 7) (slice p 8 24) (slice p 24 40) []
        (p.drop 40) := by
  intro s d
  simp only [compressTail, List.append_assoc]
  refine (decCie_readsBack s.ci d.ci).then_eq ?_
  refine (decTf_readsBack _ _).then_eq ?_
  refine (decNextHeader_readsBack _ _).then_eq ?_
  refine (decHopLimit_readsBack _).then_eq ?_
  refine (decSource_readsBack c t srcLl (length_slice p (by omega))).then_eq ?_
  refine (decDest_readsBack c t dstLl (length_slice p hlen)).then_eq ?_
  cases h : compressesNh c p with
  | true =>
    simp only [compressBase, h, if_true]
    exact decNhc_encNhc h ..
  | false =>
    simp only [compressBase, h, Bool.false_eq_true, if_false]

/-- Settles O39: the stages of DECOMPRESS read back the stages of COMPRESS, and the parts assemble to the packet. -/
theorem compressionRoundTrip : Obligations.CompressionRoundTrip := by
  unfold Obligations.CompressionRoundTrip
  intro c t p src dst hlen hversion hfield hmax
  have h : compressible p = true := (compressible_iff p).2 ⟨hlen, hversion, hfield⟩
  rw [compress, if_pos h, decompress_of_le c t src dst (by simp [iphcBaseLen])]
  refine .trans ?_ (assembleIpv6_of_compressible h hmax)
  rw [← decompressBody_compressTail c t src dst hlen]
  exact congrArg (decompressBody c t src dst · _) (iphcBaseOf_iphcByte _)

-- ## How long the compressed datagram is (R115, R159)

theorem tfLen_le (tf : BitVec 2) : tfLen tf ≤ 4 := by
  unfold tfLen
  split <;> decide

theorem amLen_le (ac : Bool) (am : BitVec 2) : amLen ac am ≤ 16 := by
  unfold amLen
  split
  · split_ifs <;> decide
  all_goals decide

theorem mcLen_le (dac : Bool) (dam : BitVec 2) : mcLen dac dam ≤ 16 := by
  unfold mcLen
  split <;> decide

/-- The longest IPHC header is one byte longer than the IPv6 header. -/
theorem iphcHdrLen_le (f : IphcBase) : iphcHdrLen f ≤ 41 := by
  have htf := tfLen_le f.tf
  have hsam := amLen_le f.sac f.sam
  have hdam := amLen_le f.dac f.dam
  have hmc := mcLen_le f.dac f.dam
  rw [iphcHdrLen, iphcBaseLen]
  split_ifs <;> omega

theorem length_encNhc {p : List Byte} (h : 48 ≤ p.length) :
    (encNhc p).length = nhcLen (encPorts (slice p 40 44)).1 := by
  obtain ⟨hports, -⟩ := portsOperands_encPorts (u := slice p 40 44) (length_slice p (by omega))
  simp [encNhc, nhcLen, hports, length_slice p h]
  omega

/-- The NHC part is shorter than the UDP header it stands for (R107). -/
theorem nhcLen_lt (p : BitVec 2) : nhcLen p < udpHdrLen := by
  rw [nhcLen, portsLen]
  split <;> decide

/-- What follows the in-line fields is no longer than the payload (R159). -/
theorem length_upper_le (c : Config) (p : List Byte) :
    (if compressesNh c p then encNhc p ++ p.drop 48 else p.drop 40).length ≤ p.length - 40 := by
  split_ifs with h
  · obtain ⟨-, -, hudp, -⟩ := compressesNh_cases h
    have hnhc := nhcLen_lt (encPorts (slice p 40 44)).1
    rw [udpHdrLen] at hnhc
    rw [List.length_append, length_encNhc hudp, List.length_drop]
    omega
  · rw [List.length_drop]

/-- The in-line fields have the length that the base bytes announce, since the stages that read them back read as many
(R115). -/
theorem length_compressTail_le (c : Config) (t : CtxTable) {p : List Byte} (srcLl dstLl : LLAddr)
    (hlen : 40 ≤ p.length) :
    let s := encSource c t srcLl (slice p 8 24)
    let d := encDest c t dstLl (slice p 24 40)
    let f := compressBase c p s d
    iphcBaseLen + (compressTail c p f s d).length ≤ iphcHdrLen f + (p.length - 40) := by
  intro s d f
  have hcie : (if f.cid then [s.ci ++ d.ci] else []).length = if f.cid then 1 else 0 :=
    (decCie_readsBack s.ci d.ci).length_eq (decCie_reads _)
  have htf := length_tfInline f.tf (packetTc p) (packetFl p)
  have hnh : (if f.nh then [] else [byteAt p 6]).length = if f.nh then 0 else 1 :=
    (decNextHeader_readsBack f.nh (byteAt p 6)).length_eq (decNextHeader_reads _)
  have hhop : (if f.hlim = 0 then [byteAt p 7] else []).length = if f.hlim = 0 then 1 else 0 :=
    (decHopLimit_readsBack (byteAt p 7)).length_eq (decHopLimit_reads _)
  have hsrc : s.bytes.length = amLen f.sac f.sam :=
    (decSource_readsBack c t srcLl (length_slice p (by omega))).length_eq (decSource_reads c t srcLl _ _ _)
  have hdst : d.bytes.length = if f.m then mcLen f.dac f.dam else amLen f.dac f.dam :=
    (decDest_readsBack c t dstLl (length_slice p hlen)).length_eq (decDest_reads c t dstLl _ _ _ _)
  have hupper := length_upper_le c p
  rw [compressTail, iphcHdrLen]
  simp only [List.length_append, hcie, htf, hnh, hhop, hsrc, hdst] at hupper ⊢
  omega

/-- Settles O41: the header is at most 41 bytes, for the 40 of the IPv6 header; 0x41 alone is one byte too. -/
theorem compressionAddsAtMostOneByte : Obligations.CompressionAddsAtMostOneByte := by
  unfold Obligations.CompressionAddsAtMostOneByte
  intro c t p src dst
  by_cases h : compressible p = true
  · obtain ⟨hlen, -, -⟩ := (compressible_iff p).1 h
    have htail := length_compressTail_le c t src dst hlen
    have hhdr := iphcHdrLen_le
      (compressBase c p (encSource c t src (slice p 8 24)) (encDest c t dst (slice p 24 40)))
    rw [compress, if_pos h]
    simp only [List.length_cons]
    rw [iphcBaseLen] at htail
    omega
  · rw [compress, if_neg h, uncompressed, List.length_cons]

end Sys2Proof.Machine

/-! The decompressor family (spec/43_iphc_decompressor.md): a packet of DECOMPRESS is a whole IPv6 packet (O42), the
NHC stage rebuilds the UDP header (O25), and reserved modes and other next-header compressions give no packet (O44).
First what the stages after the addresses answer; then what a run that answers has read, and which error ends a run
whose bytes are all there. -/

namespace Sys2Proof.Machine

-- ## Bytes taken (R10)

theorem byteAt_drop (l : List Byte) (i : Nat) : byteAt (l.drop i) 0 = byteAt l i := by
  simp [byteAt]

/-- What follows bytes that are there starts behind them. -/
theorem takeBytes_then {α : Type} {n : Nat} {r : List Byte} (k : List Byte × List Byte → Except Status α)
    (h : n ≤ r.length) : takeBytes n r >>= k = k (r.take n, r.drop n) := by
  rw [takeBytes, if_neg (Nat.not_lt.2 h)]
  rfl

/-- Nothing follows bytes that are missing: the run ends with E_TRUNCATED (R192). -/
theorem takeBytes_then_short {α : Type} {n : Nat} {r : List Byte} (k : List Byte × List Byte → Except Status α)
    (h : r.length < n) : takeBytes n r >>= k = .error .truncated := by
  rw [takeBytes, if_pos h]
  rfl

-- ## The packet that assembly answers (R108, R190, R191)

section Assemble
variable {c : Config} {tc : Byte} {fl : BitVec 20} {nh hl : Byte} {src dst upper rest p : List Byte}

theorem assembleIpv6_of_length {n : Nat} (h : (upper ++ rest).length = n) :
    assembleIpv6 c tc fl nh hl src dst upper rest =
      if c.maxIpv6Len < ipv6HdrLen + n then .error .tooLong
      else .ok (ipv6Head tc fl n nh hl ++ (src ++ dst ++ (upper ++ rest))) := by
  subst h
  simp only [assembleIpv6, List.append_assoc]

theorem assembleIpv6_eq_ok (h : assembleIpv6 c tc fl nh hl src dst upper rest = .ok p) :
    ipv6HdrLen + (upper ++ rest).length ≤ c.maxIpv6Len ∧
      p = ipv6Head tc fl (upper ++ rest).length nh hl ++ (src ++ dst ++ (upper ++ rest)) := by
  rw [assembleIpv6_of_length rfl] at h
  split_ifs at h with hmax
  cases h
  exact ⟨Nat.le_of_not_lt hmax, rfl⟩

/-- The version nibble stands above the traffic class (R108). -/
theorem ipv6Head_version (tc : Byte) (fl : BitVec 20) (plen : Nat) (nh hl : Byte) (l : List Byte) :
    (byteAt (ipv6Head tc fl plen nh hl ++ l) 0).toNat / 16 = 6 :=
  (version_eq_six_iff _).1 BitVec.extractLsb'_append_eq_left

/-- Bytes 4 and 5 hold a payload length of 16 bits, most significant byte first (R108). -/
theorem ipv6Head_lengthField (tc : Byte) (fl : BitVec 20) {plen : Nat} (nh hl : Byte) (l : List Byte)
    (hplen : plen < 65536) :
    (byteAt (ipv6Head tc fl plen nh hl ++ l) 4).toNat * 256 + (byteAt (ipv6Head tc fl plen nh hl ++ l) 5).toNat =
      plen := by
  have hhigh : byteAt (ipv6Head tc fl plen nh hl ++ l) 4 = BitVec.ofNat 8 (plen >>> 8) := rfl
  have hlow : byteAt (ipv6Head tc fl plen nh hl ++ l) 5 = BitVec.ofNat 8 plen := rfl
  rw [hhigh, hlow, BitVec.toNat_ofNat, BitVec.toNat_ofNat, Nat.shiftRight_eq_div_pow]
  omega

/-- What assembly answers is well-formed whatever the payload, if the addresses are whole. -/
theorem assembleIpv6_wellFormed (hsrc : src.length = 16) (hdst : dst.length = 16)
    (h : assembleIpv6 c tc fl nh hl src dst upper rest = .ok p) :
    40 ≤ p.length ∧ p.length ≤ c.maxIpv6Len ∧ (byteAt p 0).toNat / 16 = 6 ∧
      (p.length - 40 < 65536 → (byteAt p 4).toNat * 256 + (byteAt p 5).toNat = p.length - 40) := by
  obtain ⟨hlen, -⟩ := assembleIpv6_ok hsrc hdst h
  obtain ⟨hmax, hp⟩ := assembleIpv6_eq_ok h
  have hplen : p.length - 40 = (upper ++ rest).length := by omega
  refine ⟨by omega, hlen.le.trans hmax, ?_, fun h16 => ?_⟩
  · rw [hp]
    exact ipv6Head_version ..
  · rw [hplen] at h16 ⊢
    rw [hp]
    exact ipv6Head_lengthField _ _ _ _ _ h16

end Assemble

-- ## The UDP header rebuilt (R107, R189)

/-- The port operands are the in-line bytes alone. -/
theorem portsOperands_take (p : BitVec 2) (r : List Byte) :
    portsOperands p (r.take (portsLen p)) = portsOperands p r := by
  obtain rfl | rfl | rfl | rfl := bitVec2_cases p <;> simp [portsOperands, portsLen, byteAt_take]

theorem length_portsOperands (p : BitVec 2) (r : List Byte) : (portsOperands p r).length = 4 := by
  obtain rfl | rfl | rfl | rfl := bitVec2_cases p <;> rfl

theorem b_nibble_eq_ofNat : ∀ x : BitVec 4, 0xb#4 ++ x = BitVec.ofNat 8 (0xB0 + x.toNat) := by decide

/-- The two 4-bit ports of port mode `11` as numbers (R107). -/
theorem portsOperands_three (r : List Byte) :
    portsOperands 3 r =
      [0xF0, BitVec.ofNat 8 (0xB0 + (byteAt r 0).toNat / 16), 0xF0, BitVec.ofNat 8 (0xB0 + (byteAt r 0).toNat % 16)] := by
  have hbyte := (byteAt r 0).isLt
  have hhigh : ((byteAt r 0).extractLsb' 4 4).toNat = (byteAt r 0).toNat / 16 := by
    rw [BitVec.extractLsb'_toNat, Nat.shiftRight_eq_div_pow]
    omega
  have hlow : ((byteAt r 0).extractLsb' 0 4).toNat = (byteAt r 0).toNat % 16 := BitVec.extractLsb'_toNat ..
  rw [← hhigh, ← hlow, ← b_nibble_eq_ofNat, ← b_nibble_eq_ofNat]
  rfl

section Udp
variable {c : Config} {tc : Byte} {fl : BitVec 20} {hl : Byte} {src dst : List Byte} {p : BitVec 2} {r q : List Byte}

theorem decUdp_truncated (h : r.length < portsLen p + 2) : decUdp c tc fl hl src dst p r = .error .truncated := by
  rw [decUdp]
  by_cases hports : r.length < portsLen p
  · exact takeBytes_then_short _ hports
  · rw [takeBytes_then _ (Nat.le_of_not_lt hports)]
    exact takeBytes_then_short _ (by rw [List.length_drop]; omega)

/-- The UDP header of R189 from what follows the NHC byte: ports, length and checksum. -/
def udpHeaderOf (p : BitVec 2) (r : List Byte) : List Byte :=
  portsOperands p r ++ beBytes 2 (udpHdrLen + (r.drop (portsLen p + 2)).length) ++ (r.drop (portsLen p)).take 2

theorem length_udpHeaderOf (h : portsLen p + 2 ≤ r.length) : (udpHeaderOf p r).length = udpHdrLen := by
  have hck : ((r.drop (portsLen p)).take 2).length = 2 := by simp; omega
  rw [udpHeaderOf, List.length_append, List.length_append, length_portsOperands, length_beBytes, hck]
  rfl

/-- With ports and checksum there the rest is the data behind the rebuilt header. -/
theorem decUdp_of_le (h : portsLen p + 2 ≤ r.length) :
    decUdp c tc fl hl src dst p r =
      assembleIpv6 c tc fl nhUdp hl src dst (udpHeaderOf p r) (r.drop (portsLen p + 2)) := by
  rw [decUdp, takeBytes_then _ (by omega)]
  dsimp only
  rw [takeBytes_then _ (by rw [List.length_drop]; omega)]
  dsimp only
  rw [portsOperands_take, List.drop_drop, udpHeaderOf]

theorem decUdp_ok (h : decUdp c tc fl hl src dst p r = .ok q) :
    assembleIpv6 c tc fl nhUdp hl src dst (udpHeaderOf p r) (r.drop (portsLen p + 2)) = .ok q := by
  by_cases hlen : r.length < portsLen p + 2
  · rw [decUdp_truncated hlen] at h
    cases h
  · rwa [decUdp_of_le (Nat.le_of_not_lt hlen)] at h

end Udp

theorem exec_nhcUdp_of_init {s : State} (hi : s.initDone = true) (o : NhcOuter) (p : BitVec 2) (rest : List Byte) :
    exec (.nhcUdp o p rest) s =
      if s.cfg.nhcEn = false then .next (s.drop .unsupportedNhc)
      else .next (s.deliverOrDrop (decUdp s.cfg o.tc o.fl o.hl (addrBytes o.src) (addrBytes o.dst) p rest)) := by
  simp [exec, execNhcUdp, hi]

/-- Settles O25: with the bytes there the NHC stage assembles the packet, and its answer is delivered or dropped. -/
theorem nhcUdpRebuildsTheUdpHeader : Obligations.NhcUdpRebuildsTheUdpHeader := by
  unfold Obligations.NhcUdpRebuildsTheUdpHeader
  intro s o p rest hi n ck data ports packet
  have hports : portsOperands p rest = ports := by
    obtain rfl | rfl | rfl | rfl := bitVec2_cases p
    · rfl
    · rfl
    · rfl
    · exact portsOperands_three rest
  have hudp : udpHeaderOf p rest = ports ++ beBytes 2 (8 + data.length) ++ ck := by rw [← hports]; rfl
  have hanswer (hle : portsLen p + 2 ≤ rest.length) :
      decUdp s.cfg o.tc o.fl o.hl (addrBytes o.src) (addrBytes o.dst) p rest =
        if s.cfg.maxIpv6Len < 48 + data.length then .error .tooLong else .ok packet := by
    have hlen : (udpHeaderOf p rest ++ data).length = 8 + data.length := by
      rw [List.length_append, length_udpHeaderOf hle, udpHdrLen]
    have htotal : ipv6HdrLen + (8 + data.length) = 48 + data.length := by rw [ipv6HdrLen]; omega
    rw [decUdp_of_le hle]
    refine (assembleIpv6_of_length hlen).trans ?_
    rw [htotal, hudp]
    simp only [packet, List.append_assoc]
    rfl
  rw [exec_nhcUdp_of_init hi]
  split_ifs with hen hshort hlong
  · rfl
  · rw [decUdp_truncated hshort]
    rfl
  · rw [hanswer (Nat.le_of_not_lt hshort), if_pos hlong]
    rfl
  · rw [hanswer (Nat.le_of_not_lt hshort), if_neg hlong]
    rfl

-- ## A run of DECOMPRESS after the addresses (R189, R192)

section Nhc
variable {c : Config} {tc : Byte} {fl : BitVec 20} {hl : Byte} {src dst q p : List Byte}

theorem decNhc_disabled (h : c.nhcEn = false) : decNhc c tc fl hl src dst q = .error .unsupportedNhc := by
  rw [decNhc, h]
  rfl

theorem decNhc_nil (h : c.nhcEn = true) : decNhc c tc fl hl src dst [] = .error .truncated := by
  rw [decNhc, h]
  rfl

theorem decNhc_cons (h : c.nhcEn = true) (n : Byte) :
    decNhc c tc fl hl src dst (n :: q) =
      if isUdpNhc n then decUdp c tc fl hl src dst (n.extractLsb' 0 2) q else .error .unsupportedNhc := by
  rw [decNhc, h]
  rfl

/-- Only a UDP NHC byte with NHC_EN = 1 gives a packet. -/
theorem decNhc_ok (h : decNhc c tc fl hl src dst q = .ok p) :
    c.nhcEn = true ∧ isUdpNhc (byteAt q 0) = true ∧
      decUdp c tc fl hl src dst ((byteAt q 0).extractLsb' 0 2) (q.drop 1) = .ok p := by
  cases hen : c.nhcEn with
  | false => rw [decNhc_disabled hen] at h; cases h
  | true =>
    cases q with
    | nil => rw [decNhc_nil hen] at h; cases h
    | cons n r =>
      rw [decNhc_cons hen] at h
      split_ifs at h with hn
      exact ⟨rfl, hn, h⟩

/-- While NHC_EN = 0, or at another NHC byte, the error is E_UNSUPPORTED_NHC; only a missing byte could differ (R189). -/
theorem decNhc_unsupported (hq : q ≠ []) (h : c.nhcEn = false ∨ ¬ isUdpNhc (byteAt q 0) = true) :
    decNhc c tc fl hl src dst q = .error .unsupportedNhc := by
  cases hen : c.nhcEn with
  | false => exact decNhc_disabled hen
  | true =>
    obtain ⟨n, r, rfl⟩ := List.exists_cons_of_ne_nil hq
    rw [hen] at h
    exact (decNhc_cons hen n).trans (if_neg (h.resolve_left (by decide)))

end Nhc

-- ## A run of DECOMPRESS up to the addresses (R115, R192)

theorem decNextHeader_reads_isNone (nh : Bool) (r : List Byte) :
    Reads (if nh then 0 else 1) (fun v => v.isNone = nh) r (decNextHeader nh r) := by
  cases nh with
  | false => exact (takeBytes_reads 1 r).map (fun t => some (byteAt t 0)) fun _ _ => rfl
  | true => exact .nothing rfl

/-- The in-line fields in the order in which the stages read them. -/
theorem iphcHdrLen_sub_base (f : IphcBase) :
    iphcHdrLen f - iphcBaseLen = (if f.cid then 1 else 0) + tfLen f.tf + (if f.nh then 0 else 1) +
      (if f.hlim = 0 then 1 else 0) + amLen f.sac f.sam + (if f.m then mcLen f.dac f.dam else amLen f.dac f.dam) := by
  rw [iphcHdrLen]
  omega

theorem decDest_stateless_answers (c : Config) (t : CtxTable) (ll : LLAddr) (m : Bool) (dam : BitVec 2)
    (dci : BitVec 4) (r : List Byte) :
    Answers (if m then mcLen false dam else amLen false dam) r (decDest c t ll m false dam dci r) := by
  cases m with
  | true => exact (takeBytes_answers _ r).map _
  | false => exact (takeBytes_answers _ r).map _

section Body
variable {c : Config} {t : CtxTable} {srcLl dstLl : LLAddr} {f : IphcBase} {r p : List Byte} {e : Status}

/-- A run that answers has whole addresses, and its last stage starts behind the header of R115. -/
theorem decompressBody_ok (h : decompressBody c t srcLl dstLl f r = .ok p) :
    ∃ tc fl hl src dst, src.length = 16 ∧ dst.length = 16 ∧
      ((f.nh = false ∧ ∃ nh, assembleIpv6 c tc fl nh hl src dst [] (r.drop (iphcHdrLen f - iphcBaseLen)) = .ok p) ∨
        (f.nh = true ∧ decNhc c tc fl hl src dst (r.drop (iphcHdrLen f - iphcBaseLen)) = .ok p)) := by
  obtain ⟨⟨sci, dci⟩, -, -, h⟩ := (decCie_reads f.cid r).then_ok h
  obtain ⟨⟨tc, fl⟩, -, -, h⟩ := (decTf_reads f.tf _).then_ok h
  obtain ⟨nh, hnh, -, h⟩ := (decNextHeader_reads_isNone f.nh _).then_ok h
  obtain ⟨hl, -, -, h⟩ := (decHopLimit_reads f.hlim _).then_ok h
  obtain ⟨src, hsrc, -, h⟩ := (decSource_reads c t srcLl f.sac f.sam sci _).then_ok h
  obtain ⟨dst, hdst, -, h⟩ := (decDest_reads c t dstLl f.m f.dac f.dam dci _).then_ok h
  simp only [List.drop_drop, ← iphcHdrLen_sub_base] at h
  refine ⟨tc, fl, hl, src, dst, hsrc, hdst, ?_⟩
  cases nh with
  | some nh => exact .inl ⟨hnh.symm, nh, h⟩
  | none => exact .inr ⟨hnh.symm, h⟩

/-- With stateless addresses and the whole header there, the error of the NHC stage is the error of the run. -/
theorem decompressBody_nhc_error (hlen : iphcHdrLen f ≤ iphcBaseLen + r.length) (hnh : f.nh = true)
    (hsac : f.sac = false) (hdac : f.dac = false)
    (h : ∀ tc fl hl src dst, decNhc c tc fl hl src dst (r.drop (iphcHdrLen f - iphcBaseLen)) = .error e) :
    decompressBody c t srcLl dstLl f r = .error e := by
  rw [iphcHdrLen] at hlen
  refine (decCie_answers f.cid r).then_error (decCie_reads f.cid r) (by omega) fun _ _ => ?_
  refine (decTf_answers f.tf _).then_error (decTf_reads f.tf _) (by rw [List.length_drop]; omega) fun _ _ => ?_
  refine (decNextHeader_answers f.nh _).then_error (decNextHeader_reads_isNone f.nh _)
    (by simp only [List.length_drop]; omega) fun nh hnone => ?_
  refine (decHopLimit_answers f.hlim _).then_error (decHopLimit_reads f.hlim _)
    (by simp only [List.length_drop]; omega) fun _ _ => ?_
  have hsource := decSource_stateless_answers c t srcLl f.sam
  have hdest := decDest_stateless_answers c t dstLl f.m f.dam
  rw [← hsac] at hsource
  rw [← hdac] at hdest
  refine (hsource _ _).then_error (decSource_reads c t srcLl f.sac f.sam _ _)
    (by simp only [List.length_drop]; omega) fun _ _ => ?_
  refine (hdest _ _).then_error (decDest_reads c t dstLl f.m f.dac f.dam _ _)
    (by simp only [List.length_drop]; omega) fun _ _ => ?_
  obtain rfl : nh = none := Option.isNone_iff_eq_none.1 (hnone.trans hnh)
  simp only [List.drop_drop, ← iphcHdrLen_sub_base]
  exact h ..

/-- Every packet is one that assembly answers for whole addresses. -/
theorem decompressBody_assembles (h : decompressBody c t srcLl dstLl f r = .ok p) :
    ∃ tc fl nh hl src dst upper rest, src.length = 16 ∧ dst.length = 16 ∧
      assembleIpv6 c tc fl nh hl src dst upper rest = .ok p := by
  obtain ⟨tc, fl, hl, src, dst, hsrc, hdst, ⟨-, nh, hasm⟩ | ⟨-, hnhc⟩⟩ := decompressBody_ok h
  · exact ⟨tc, fl, nh, hl, src, dst, _, _, hsrc, hdst, hasm⟩
  · obtain ⟨-, -, hudp⟩ := decNhc_ok hnhc
    exact ⟨tc, fl, nhUdp, hl, src, dst, _, _, hsrc, hdst, decUdp_ok hudp⟩

end Body

/-- Settles O42: whatever stages a run has gone through, its packet comes out of assembly. -/
theorem decompressedPacketIsWellFormed : Obligations.DecompressedPacketIsWellFormed := by
  unfold Obligations.DecompressedPacketIsWellFormed
  intro c t b p srcLl dstLl h
  obtain ⟨_, hbody⟩ := decompress_ok h
  obtain ⟨tc, fl, nh, hl, src, dst, upper, rest, hsrc, hdst, hasm⟩ := decompressBody_assembles hbody
  exact assembleIpv6_wellFormed hsrc hdst hasm

-- ## Reserved modes (R187, R188)

/-- The reserved destination modes of R109 fail before a byte is read. -/
theorem decDest_reserved (c : Config) (t : CtxTable) (ll : LLAddr) {m dac : Bool} {dam : BitVec 2}
    (h : (m = false ∧ dac = true ∧ dam = 0) ∨ (m = true ∧ dac = true ∧ dam ≠ 0)) (dci : BitVec 4) (q : List Byte) :
    decDest c t ll m dac dam dci q = .error .reservedMode := by
  obtain ⟨rfl, rfl, rfl⟩ | ⟨rfl, rfl, hdam⟩ := h
  · rfl
  · rw [decDest, if_pos rfl, decMulticast, if_pos rfl, if_neg hdam]

/-- Settles O44: a reserved mode fails in the destination stage; another next header than UDP fails in the NHC stage,
which starts behind the header of R115. -/
theorem reservedModesNeverDecompress : Obligations.ReservedModesNeverDecompress := by
  unfold Obligations.ReservedModesNeverDecompress
  intro c t b p src dst f n reserved unsupported
  have hbase := iphcBaseLen_le_iphcHdrLen f
  have hnhc : (b.drop iphcBaseLen).drop (iphcHdrLen f - iphcBaseLen) = b.drop (iphcHdrLen f) := by
    rw [List.drop_drop, Nat.add_sub_cancel' hbase]
  have hbyte (h : unsupported) : c.nhcEn = false ∨ ¬ isUdpNhc (byteAt (b.drop (iphcHdrLen f)) 0) = true := by
    rw [byteAt_drop, isUdpNhc_iff]
    exact h.2
  have hbody (hlen : iphcHdrLen f ≤ b.length) : iphcHdrLen f ≤ iphcBaseLen + (b.drop iphcBaseLen).length := by
    rwa [List.length_drop, Nat.add_sub_cancel' (hbase.trans hlen)]
  refine ⟨?nopacket, ?reserved, ?unsupported⟩
  case nopacket =>
    rintro (hres | hunsup) hok
    · exact decompressBody_ne_ok p rfl (.inr (decDest_reserved c t dst hres _)) (decompress_ok hok).2
    · obtain ⟨_, _, _, _, _, -, -, ⟨hnh, -⟩ | ⟨-, hok⟩⟩ := decompressBody_ok (decompress_ok hok).2
      · exact Bool.false_ne_true (hnh.symm.trans hunsup.1)
      · rw [hnhc] at hok
        obtain ⟨hen, hudp, -⟩ := decNhc_ok hok
        obtain hdisabled | hother := hbyte hunsup
        · exact Bool.false_ne_true (hdisabled.symm.trans hen)
        · exact hother hudp
  case reserved =>
    intro hres hsac hlen
    rw [decompress_of_le c t src dst (hbase.trans hlen)]
    exact decompressBody_error (hbody hlen) rfl (.inr ⟨hsac, decDest_reserved c t dst hres _⟩)
  case unsupported =>
    intro hunsup hsac hdac hlen
    rw [decompress_of_le c t src dst (hbase.trans hlen.le)]
    refine decompressBody_nhc_error (hbody hlen.le) hunsup.1 hsac hdac fun _ _ _ _ _ => ?_
    rw [hnhc]
    exact decNhc_unsupported (mt List.drop_eq_nil_iff.1 (Nat.not_le.2 hlen)) (hbyte hunsup)

end Sys2Proof.Machine

/-! The fragmenter family (spec/44_fragmenter.md): the frames of a fragmented datagram (O16), and that no step hands
over a frame the link does not take (O17). First what one frame holds; then how the sequence of frames goes on, with one
lemma per property of the sequence; then what each operation puts out, where the transmit step alone hands frames over. -/

namespace Sys2Proof.Machine

-- ## One fragment frame (R215, R216)

section Frame
variable (c : Config) (tag : BitVec 16) (d : List Byte) (off : Nat)

theorem firstFrame_payload : (firstFrame c tag d).drop 4 = d.take (firstSlice c) := rfl

theorem nextFrame_payload : (nextFrame c tag d off).drop 5 = slice d off (off + nextSlice c d off) := rfl

theorem length_firstFrame : (firstFrame c tag d).length = 4 + min (firstSlice c) d.length := by
  rw [firstFrame, List.length_append, List.length_take]
  rfl

theorem nextSlice_le_remaining : nextSlice c d off ≤ d.length - off := by
  have := nextSlice_cases c d off
  omega

theorem nextSlice_le_room : nextSlice c d off ≤ c.linkMtu - 5 := by
  unfold nextSlice middleSlice
  split <;> omega

variable {off}

theorem length_nextFrame_payload (h : off ≤ d.length) :
    ((nextFrame c tag d off).drop 5).length = nextSlice c d off := by
  have := nextSlice_le_remaining c d off
  rw [nextFrame_payload, length_slice d (by omega), Nat.add_sub_cancel_left]

theorem length_nextFrame (h : off ≤ d.length) : (nextFrame c tag d off).length = 5 + nextSlice c d off := by
  rw [← length_nextFrame_payload c tag d h]
  exact Nat.add_comm _ 5

/-- The constraint `LINK_MTU ≥ 13` leaves room for a whole header and 8 bytes (R6). -/
theorem firstFrame_fits {c : Config} (hc : c.Ok) : (firstFrame c tag d).length ≤ c.linkMtu := by
  have := hc.linkMtu_ge
  rw [length_firstFrame, firstSlice]
  omega

theorem nextFrame_fits {c : Config} (hc : c.Ok) (h : off ≤ d.length) : (nextFrame c tag d off).length ≤ c.linkMtu := by
  have := hc.linkMtu_ge
  have := nextSlice_le_room c d off
  rw [length_nextFrame c tag d h]
  omega

/-- The offset byte counts units of 8; below MAX_DGRAM it does not wrap (R219 c). -/
theorem nextFrame_offsetByte (hmax : d.length ≤ 2047) (h : off < d.length) (hmod : off % 8 = 0) :
    (byteAt (nextFrame c tag d off) 4).toNat * 8 = off := by
  have hbyte : byteAt (nextFrame c tag d off) 4 = BitVec.ofNat 8 (off / 8) := rfl
  rw [hbyte, BitVec.toNat_ofNat]
  omega

end Frame

theorem firstSlice_pos {c : Config} (hc : c.Ok) : 0 < firstSlice c := by
  have := hc.linkMtu_ge
  unfold firstSlice
  omega

theorem middleSlice_pos {c : Config} (hc : c.Ok) : 0 < middleSlice c := by
  have := hc.linkMtu_ge
  unfold middleSlice
  omega

theorem middleSlice_mod_eight (c : Config) : middleSlice c % 8 = 0 := Nat.mul_mod_left _ _

theorem nextSlice_last {c : Config} {d : List Byte} {off : Nat} (h : d.length - off ≤ c.linkMtu - 5) :
    nextSlice c d off = d.length - off := if_pos h

theorem nextSlice_middle {c : Config} {d : List Byte} {off : Nat} (h : c.linkMtu - 5 < d.length - off) :
    nextSlice c d off = middleSlice c := if_neg (Nat.not_le.2 h)

-- ## The sequence of subsequent fragments (R216)

/-- The frames that carry `d` from `off` on: the last takes all the bytes left, any other a middle slice. -/
inductive LaterFragments (c : Config) (tag : BitVec 16) (d : List Byte) : Nat → List (List Byte) → Prop
  | last {off : Nat} (hbytes : off < d.length) (hroom : d.length - off ≤ c.linkMtu - 5) :
      LaterFragments c tag d off [nextFrame c tag d off]
  | more {off : Nat} {fs : List (List Byte)} (hroom : c.linkMtu - 5 < d.length - off)
      (hrest : LaterFragments c tag d (off + middleSlice c) fs) :
      LaterFragments c tag d off (nextFrame c tag d off :: fs)

theorem laterFrames_at_end (c : Config) (tag : BitVec 16) {d : List Byte} (fuel : Nat) {off : Nat}
    (h : d.length ≤ off) : laterFrames c tag d fuel off = [] := by
  cases fuel with
  | zero => rfl
  | succ fuel => exact if_neg (Nat.not_lt.2 h)

/-- Fuel for the bytes left is enough, because every frame carries a byte. -/
theorem laterFrames_laterFragments {c : Config} (hc : c.Ok) (tag : BitVec 16) (d : List Byte) {fuel off : Nat}
    (hbytes : off < d.length) (hfuel : d.length ≤ off + fuel) :
    LaterFragments c tag d off (laterFrames c tag d fuel off) := by
  induction fuel generalizing off with
  | zero => omega
  | succ fuel ih =>
    rw [laterFrames, if_pos hbytes]
    obtain hroom | hroom := le_or_gt (d.length - off) (c.linkMtu - 5)
    · rw [nextSlice_last hroom, laterFrames_at_end c tag fuel (by omega)]
      exact .last hbytes hroom
    · have hpos := middleSlice_pos hc
      have hle := nextSlice_le_room c d off
      rw [nextSlice_middle hroom] at hle ⊢
      exact .more hroom (ih (by omega) (by omega))

namespace LaterFragments
variable {c : Config} {tag : BitVec 16} {d : List Byte} {off : Nat} {fs : List (List Byte)}

theorem off_lt (h : LaterFragments c tag d off fs) : off < d.length := by
  cases h <;> omega

theorem ne_nil (h : LaterFragments c tag d off fs) : fs ≠ [] := by
  cases h <;> exact List.cons_ne_nil _ _

theorem fits (hc : c.Ok) (h : LaterFragments c tag d off fs) : ∀ f ∈ fs, f.length ≤ c.linkMtu := by
  induction h with
  | last hbytes _ => exact List.forall_mem_singleton.2 (nextFrame_fits tag d hc hbytes.le)
  | more _ _ ih => exact List.forall_mem_cons.2 ⟨nextFrame_fits tag d hc (by omega), ih⟩

/-- Joined, the payloads are the bytes left. -/
theorem payloads_flatten (h : LaterFragments c tag d off fs) : (fs.map (List.drop 5)).flatten = d.drop off := by
  induction h with
  | last hbytes hroom =>
    rw [List.map_singleton, List.flatten_singleton, nextFrame_payload, nextSlice_last hroom]
    exact slice_to_end (by omega) _
  | more hroom _ ih =>
    rw [List.map_cons, List.flatten_cons, ih, nextFrame_payload, nextSlice_middle hroom]
    exact slice_append_drop d (Nat.le_add_right _ _)

/-- Every payload but the last is a middle slice. -/
theorem length_payload (h : LaterFragments c tag d off fs) {k : Nat} (hk : k + 1 < fs.length) :
    ((fs.getD k []).drop 5).length = middleSlice c := by
  induction h generalizing k with
  | last => simp at hk
  | more hroom _ ih =>
    cases k with
    | zero =>
      rw [List.getD_cons_zero, length_nextFrame_payload c tag d (by omega), nextSlice_middle hroom]
    | succ k => exact ih (Nat.lt_of_succ_lt_succ hk)

/-- The offset byte of each frame is where its payload begins. -/
theorem offsetByte (h : LaterFragments c tag d off fs) (hmax : d.length ≤ 2047) (hoff : off % 8 = 0) {k : Nat}
    (hk : k < fs.length) :
    (byteAt (fs.getD k []) 4).toNat * 8 = off + ((fs.take k).map (List.drop 5)).flatten.length := by
  induction h generalizing k with
  | last hbytes _ =>
    obtain rfl : k = 0 := by simpa using hk
    exact nextFrame_offsetByte c tag d hmax hbytes hoff
  | more hroom _ ih =>
    cases k with
    | zero => exact nextFrame_offsetByte c tag d hmax (by omega) hoff
    | succ k =>
      have hmod := middleSlice_mod_eight c
      rw [List.getD_cons_succ, ih (by omega) (Nat.lt_of_succ_lt_succ hk), List.take_succ_cons, List.map_cons,
        List.flatten_cons, List.length_append, length_nextFrame_payload c tag d (by omega), nextSlice_middle hroom,
        Nat.add_assoc]

end LaterFragments

-- ## All fragments of a datagram (R214 to R216)

/-- What frame `k` of a sequence carries: the first has a header of 4 bytes, the others one of 5 (R95). -/
def fragPayload (fs : List (List Byte)) (k : Nat) : List Byte := (fs.getD k []).drop (if k = 0 then 4 else 5)

section Payload
variable (f : List Byte) (fs : List (List Byte)) (k : Nat)

@[simp] theorem fragPayload_cons_zero : fragPayload (f :: fs) 0 = f.drop 4 := rfl

@[simp] theorem fragPayload_cons_succ : fragPayload (f :: fs) (k + 1) = (fs.getD k []).drop 5 := rfl

/-- The payloads up to frame `k`, counted by position, as a list. -/
theorem map_fragPayload_range (h : k ≤ fs.length) :
    (List.range (k + 1)).map (fragPayload (f :: fs)) = f.drop 4 :: (fs.take k).map (List.drop 5) := by
  rw [List.range_succ_eq_map, List.map_cons, List.map_map, fragPayload_cons_zero]
  congr 1
  refine List.ext_getElem (by simp [h]) fun i hi _ => ?_
  have hi : i < fs.length := by simp at hi; omega
  simp [hi]

end Payload

/-- The first fragment, then frames that carry the rest: there is a rest, because the first slice is below LINK_MTU. -/
theorem fragmentFrames_eq {c : Config} (hc : c.Ok) (tag : BitVec 16) {d : List Byte} (h : c.linkMtu < d.length) :
    ∃ later, fragmentFrames c tag d = firstFrame c tag d :: later ∧ LaterFragments c tag d (firstSlice c) later :=
  ⟨_, rfl, laterFrames_laterFragments hc tag d ((firstSlice_le_linkMtu c).trans_lt h) (Nat.le_add_left _ _)⟩

/-- Settles O16: the first frame's part is read off its definition, the others' from the sequence after it. -/
theorem fragmentsPartitionTheDatagram : Obligations.FragmentsPartitionTheDatagram := by
  unfold Obligations.FragmentsPartitionTheDatagram
  intro c tag d hc hlong hmax fs payload
  have hpayload : payload = fragPayload fs := rfl
  obtain ⟨later, hfs, hlater⟩ : ∃ later, fs = firstFrame c tag d :: later ∧ _ := fragmentFrames_eq hc tag hlong
  rw [hpayload, hfs]
  have hcut : (d.take (firstSlice c)).length = firstSlice c := List.length_take_of_le hlater.off_lt.le
  refine ⟨?atLeastTwo, ?fit, ?joined, ?aligned, ?offset⟩
  case atLeastTwo => exact Nat.succ_le_succ (List.length_pos_of_ne_nil hlater.ne_nil)
  case fit => exact List.forall_mem_cons.2 ⟨firstFrame_fits tag d hc, hlater.fits hc⟩
  case joined =>
    rw [List.length_cons, map_fragPayload_range _ _ _ le_rfl, List.take_length, List.flatten_cons,
      hlater.payloads_flatten, firstFrame_payload, List.take_append_drop]
  case aligned =>
    intro k hk
    cases k with
    | zero =>
      rw [fragPayload_cons_zero, firstFrame_payload, hcut]
      exact ⟨firstSlice_pos hc, firstSlice_mod_eight c⟩
    | succ k =>
      rw [fragPayload_cons_succ, hlater.length_payload (Nat.lt_of_succ_lt_succ hk)]
      exact ⟨middleSlice_pos hc, middleSlice_mod_eight c⟩
  case offset =>
    intro k hpos hk
    obtain ⟨k, rfl⟩ := Nat.exists_eq_succ_of_ne_zero hpos.ne'
    have hk : k < later.length := Nat.lt_of_succ_lt_succ hk
    rw [Nat.succ_eq_add_one, List.getD_cons_succ, map_fragPayload_range _ _ _ hk.le, List.flatten_cons,
      List.length_append, firstFrame_payload, hcut]
    exact hlater.offsetByte hmax (firstSlice_mod_eight c) hk

-- ## What an operation puts out

/-- The outputs of `s'` are those of `s` and then others, each with `P`. -/
def Adds (P : Output → Prop) (s s' : State) : Prop := ∃ new, s'.out = s.out ++ new ∧ ∀ o ∈ new, P o

/-- An operation on `s` with this outcome puts out only what has `P`. -/
def Emits (P : Output → Prop) (s : State) (r : Result) : Prop := ∀ s', r = .next s' → Adds P s s'

/-- A returned status. -/
def Output.isRet : Output → Bool
  | .ret _ _ _ => true
  | _ => false

/-- A frame handed over is at most `n` bytes long. -/
def Output.Fits (n : Nat) (o : Output) : Prop := ∀ dest frame, o = .txf dest frame → frame.length ≤ n

theorem Output.fits_of_isRet (n : Nat) {o : Output} (h : o.isRet = true) : o.Fits n := by
  rintro _ _ rfl
  cases h

theorem Output.fits_of_isDlv (n : Nat) {o : Output} (h : o.isDlv = true) : o.Fits n := by
  rintro _ _ rfl
  cases h

section Outputs
variable {P Q : Output → Prop} {s t s' : State}

theorem Adds.none (h : s'.out = s.out) : Adds P s s' := ⟨[], by rw [h, List.append_nil], nofun⟩

theorem Adds.one {o : Output} (h : s'.out = s.out ++ [o]) (ho : P o) : Adds P s s' :=
  ⟨[o], h, List.forall_mem_singleton.2 ho⟩

theorem Adds.trans (h : Adds P s t) (h' : Adds P t s') : Adds P s s' := by
  obtain ⟨l, hl, hp⟩ := h
  obtain ⟨l', hl', hp'⟩ := h'
  exact ⟨l ++ l', by rw [hl', hl, List.append_assoc], List.forall_mem_append.2 ⟨hp, hp'⟩⟩

theorem Emits.next (h : Adds P s s') : Emits P s (.next s') := by
  rintro _ ⟨⟩
  exact h

/-- An outcome that leaves the outputs as they were. -/
theorem Emits.none (h : s'.out = s.out) : Emits P s (.next s') := .next (.none h)

/-- An outcome that returns a status and puts out nothing before it. -/
theorem Emits.ret {op : Byte} {st : Status} {v : RetVal} (h : t.out = s.out) :
    Emits (·.isRet = true) s (.next (t.ret op st v)) :=
  .next (.one (by rw [State.ret_out, h]) rfl)

theorem Emits.refused {e : Refusal} : Emits P s (.refused e) := nofun

theorem Emits.ite {c : Prop} [Decidable c] {x y : Result} (hx : Emits P s x) (hy : Emits P s y) :
    Emits P s (if c then x else y) := by
  split
  · exact hx
  · exact hy

theorem Emits.mono {r : Result} (h : Emits P s r) (hpq : ∀ o, P o → Q o) : Emits Q s r := fun s' he =>
  let ⟨new, hout, hp⟩ := h s' he
  ⟨new, hout, fun o ho => hpq o (hp o ho)⟩

end Outputs

-- ### The host's operations return statuses

theorem State.startSend_adds (s : State) (destLl : LLAddr) (p : List Byte) :
    Adds (·.isRet = true) s (s.startSend destLl p) := by
  obtain ⟨-, he⟩ | ⟨-, -, he⟩ | ⟨-, -, he⟩ := s.startSend_cases destLl p <;> rw [he]
  · exact .none rfl
  · exact .one rfl rfl
  · exact .none rfl

theorem execRegister_emits (handle : Handle) (s : State) : Emits (·.isRet = true) s (execRegister handle s) := by
  refine .ite (.ret rfl) ?_
  split
  · exact .ret rfl
  · exact .ret rfl

theorem exec_hostOp_emits {i : Instr} (h : i.isHostOp = true) (s : State) : Emits (·.isRet = true) s (exec i s) := by
  cases i with
  | init => exact .ite .refused (.ret rfl)
  | initRouter => exact .ite .refused (.ite (.ret rfl) (.ret rfl))
  | send destLl p => exact .ite (.ret rfl) (.ite (.next (s.startSend_adds destLl p)) (.none rfl))
  | setHc => exact .ite (.ret rfl) (.ret rfl)
  | register handle => exact execRegister_emits handle s
  | ctxLookup => exact .ite (.ret rfl) (.ite (.ret rfl) (.ret rfl))
  | ctxInsert => exact .ite (.ret rfl) (.ite (.ret rfl) (.ite (.ret rfl) (.ret rfl)))
  | ctxRemove => exact .ite (.ret rfl) (.ite (.ret rfl) (.ret rfl))
  | readStatus => exact .ite (.ret rfl) (.ret rfl)
  | badOp => exact .ret rfl
  | rxFrame | tick | ipv6Uncomp | iphc | frag1 | fragN | unknown | nhcUdp => cases h

-- ### The receive path delivers (R290, R293)

section Receive
variable (s : State)

theorem State.deliver_adds (p : List Byte) : Adds (·.isDlv = true) s (s.deliver p) :=
  ⟨_, rfl, List.forall_mem_map.2 fun _ _ => rfl⟩

theorem State.processDatagram_adds (dg : List Byte) (srcLl dstLl : LLAddr) :
    Adds (·.isDlv = true) s (s.processDatagram dg srcLl dstLl) := by
  obtain ⟨p, he⟩ | ⟨e, he⟩ := s.processDatagram_cases dg srcLl dstLl <;> rw [he]
  · exact s.deliver_adds p
  · exact .none rfl

theorem State.deliverUncompressed_emits (p : List Byte) :
    Emits (·.isDlv = true) s (.next (s.deliverUncompressed p)) := by
  unfold State.deliverUncompressed
  split
  · exact .none rfl
  · exact .next (s.deliver_adds p)

theorem State.deliverOrDrop_emits (x : Except Status (List Byte)) :
    Emits (·.isDlv = true) s (.next (s.deliverOrDrop x)) := by
  cases x with
  | ok p => exact .next (s.deliver_adds p)
  | error e => exact .none rfl

theorem State.failSlot_out (m : Option (Nat × Slot)) : (s.failSlot m).out = s.out := by
  cases m <;> rfl

theorem State.chooseSlot_out {s s1 : State} {i : Nat} (h : s.chooseSlot = some (i, s1)) : s1.out = s.out := by
  obtain ⟨-, rfl⟩ | ⟨-, -, rfl⟩ := s.chooseSlot_cases i s1 h <;> rfl

theorem State.storeFragment_adds (i : Nat) (sl : Slot) (off : Nat) (data : List Byte) (dstLl : LLAddr) :
    Adds (·.isDlv = true) s (s.storeFragment i sl off data dstLl) := by
  obtain ⟨-, he⟩ | ⟨dg, -, he⟩ := s.storeFragment_cases i sl off data dstLl <;> rw [he]
  · exact .none rfl
  · rw [State.freeSlot_putSlot]
    exact (Adds.none rfl).trans ((s.freeSlot i).processDatagram_adds dg _ _)

theorem reassemble_emits (a : Arrival) (size : BitVec 11) (tag : BitVec 16) (off : Nat) (data : List Byte) :
    Emits (·.isDlv = true) s (reassemble a size tag off data s) := fun s' he => by
  obtain ⟨-, rfl⟩ | ⟨-, -, rfl⟩ | ⟨-, -, i, sl, -, -, rfl⟩ | ⟨-, -, i, sl, -, -, rfl⟩ | ⟨-, -, -, i, s1, hc, rfl⟩ :=
    reassemble_next a size tag off data s s' he
  · exact .none rfl
  · exact .none (s.failSlot_out _)
  · exact .none rfl
  · exact s.storeFragment_adds i sl off data a.dstLl
  · exact (Adds.none (State.chooseSlot_out hc)).trans (s1.storeFragment_adds i _ off data a.dstLl)

theorem tickSlot_out (now : Time) (i : Nat) : (tickSlot now s i).out = s.out := by
  unfold tickSlot
  split
  · split <;> rfl
  · rfl

theorem foldl_tickSlot_out (now : Time) (l : List Nat) : (l.foldl (tickSlot now) s).out = s.out := by
  induction l generalizing s with
  | nil => rfl
  | cons i l ih => exact (ih _).trans (tickSlot_out s now i)

theorem withTime_emits {P : Output → Prop} (now : Time) {k : State → Result} (hk : ∀ t, Emits P t (k t)) :
    Emits P s (withTime now k s) := fun s' he => by
  obtain ⟨-, rfl⟩ | ⟨-, -, he⟩ := withTime_next now k s s' he
  · exact .none rfl
  · exact (Adds.none rfl).trans (hk { s with lastNow := now } s' he)

theorem withFrame_emits {P : Output → Prop} (a : Arrival) (len : Nat) {k : State → Result} (hk : ∀ t, Emits P t (k t)) :
    Emits P s (withFrame a len k s) :=
  .ite (.none rfl) (.ite .refused (withTime_emits s a.now hk))

theorem receiveFrame_emits (f : List Byte) (a : Arrival) : Emits (·.isDlv = true) s (receiveFrame f a s) := by
  unfold receiveFrame
  split
  · exact .none rfl
  · exact .none rfl
  · exact reassemble_emits s a _ _ _ _
  · exact reassemble_emits s a _ _ _ _
  · exact .next (s.processDatagram_adds f _ _)
  · exact .next (s.processDatagram_adds f _ _)

theorem exec_receive_emits {i : Instr} (h : i.isHostOp = false) : Emits (·.isDlv = true) s (exec i s) := by
  cases i with
  | rxFrame f a => exact withFrame_emits s a _ fun t => receiveFrame_emits t f a
  | tick now => exact withTime_emits s now fun t => .none (foldl_tickSlot_out t now _)
  | ipv6Uncomp a p => exact withFrame_emits s a _ fun t => t.deliverUncompressed_emits p
  | iphc a => exact withFrame_emits s a _ fun t => t.deliverOrDrop_emits _
  | frag1 a x size tag payload => exact withFrame_emits s a _ fun t => reassemble_emits t a size tag 0 payload
  | fragN a x size tag offset8 payload => exact withFrame_emits s a _ fun t => reassemble_emits t a size tag _ payload
  | unknown a => exact withFrame_emits s a _ fun _ => .none rfl
  | nhcUdp => exact .ite (.none rfl) (.ite (.none rfl) (s.deliverOrDrop_emits _))
  | init | initRouter | send | setHc | register | ctxLookup | ctxInsert | ctxRemove | readStatus | badOp => cases h

end Receive

-- ### No transaction hands a frame over

theorem exec_emits (n : Nat) (i : Instr) (s : State) : Emits (·.Fits n) s (exec i s) := by
  cases h : i.isHostOp with
  | true => exact (exec_hostOp_emits h s).mono fun _ => Output.fits_of_isRet n
  | false => exact (exec_receive_emits s h).mono fun _ => Output.fits_of_isDlv n

theorem undecoded_emits (n : Nat) (t : Txn) (e : DecodeError) (s : State) : Emits (·.Fits n) s (undecoded t e s) := by
  cases t with
  | op => exact (Emits.ret rfl).mono fun _ => Output.fits_of_isRet n
  | frame _ a => exact withFrame_emits s a _ fun _ => .none rfl
  | nhc =>
    refine .ite (.none rfl) (.ite (.none rfl) ?_)
    split
    · exact .none rfl
    · exact .none rfl

theorem runTxn_emits (n : Nat) (t : Txn) (s : State) : Emits (·.Fits n) s (runTxn t s) := by
  unfold runTxn
  split
  · exact exec_emits n _ s
  · exact undecoded_emits n t _ s

-- ### The transmit side hands over frames that fit (R221)

/-- The next frame of an in-flight send that keeps R31. -/
theorem InFlight.Ok.sendFrame_fits {f : InFlight} {c : Config} (h : f.Ok c) (hc : c.Ok) :
    (sendFrame c f).1.length ≤ c.linkMtu := by
  cases hfr : f.fragmented with
  | false =>
    obtain ⟨-, hfit⟩ := h.whole hfr
    simpa [sendFrame, hfr] using hfit
  | true =>
    by_cases h0 : f.nextOff = 0
    · simpa [sendFrame, hfr, h0] using firstFrame_fits f.tag f.datagram hc
    · simpa [sendFrame, hfr, h0] using nextFrame_fits f.tag f.datagram hc h.remains.le

theorem txStep_emits {s : State} (h : s.Inv) : Emits (·.Fits s.cfg.linkMtu) s (txStep s) := by
  obtain ⟨f, -, -, he⟩ | ⟨f, hf, -, he⟩ | ⟨-, -, he⟩ | ⟨destLl, p, rest, -, -, he⟩ := txStep_cases s <;> rw [he]
  · exact .none rfl
  · refine .next (.one rfl ?_)
    rintro _ _ ⟨⟩
    exact (h.tx_ok f hf).sendFrame_fits h.cfg_ok
  · exact .none rfl
  · refine Emits.mono (.next ?_) fun _ => Output.fits_of_isRet _
    exact (Adds.none rfl).trans (State.startSend_adds { s with sendWait := rest } destLl p)

theorem txAnswer_emits (ok : Bool) (s : State) : Emits (·.isRet = true) s (txAnswer ok s) := fun s' he => by
  obtain ⟨f, -, -, ⟨-, rfl⟩ | ⟨-, -, rfl⟩ | ⟨-, -, rfl⟩⟩ := txAnswer_next ok s s' he
  · exact .one rfl rfl
  · exact .one rfl rfl
  · exact .none rfl

theorem step_emits {s : State} (h : s.Inv) : Emits (·.Fits s.cfg.linkMtu) s (step s) := by
  cases hin : s.inputs with
  | nil =>
    rw [step_nil s hin]
    exact .none rfl
  | cons ev rest =>
    cases ev with
    | txn t =>
      rw [step_txn s t rest hin]
      exact runTxn_emits _ t { s with inputs := rest }
    | tx =>
      rw [step_tx s rest hin]
      exact txStep_emits (h.withInputs rest)
    | answer ok =>
      rw [step_answer s ok rest hin]
      exact (txAnswer_emits ok { s with inputs := rest }).mono fun _ => Output.fits_of_isRet _

/-- Settles O17: only the transmit step hands a frame over, and under the invariant that frame fits. -/
theorem transmittedFramesFitTheLink : Obligations.TransmittedFramesFitTheLink := by
  unfold Obligations.TransmittedFramesFitTheLink
  intro s s' h he
  obtain ⟨new, hout, hfits⟩ := step_emits h s' he
  exact ⟨new, hout, fun dest frame hmem => hfits _ hmem dest frame rfl⟩

end Sys2Proof.Machine

/-! The reassembly family (spec/45_reassembly_manager.md). First the rules of the slot storage and of the slot pool, and
one equation per branch of REASSEMBLE (R241); then what one fragment does to its slot (O28 to O36) and what TICK does to
the pool (O37). -/

namespace Sys2Proof.Machine

-- ## Slot storage (R238)

theorem Memory.mem_of_read {m : Memory} {k : Nat} {v : Byte} (h : Memory.read m k = some v) : (k, v) ∈ m := by
  induction m with
  | nil => cases h
  | cons c m ih =>
    obtain ⟨a, b⟩ := c
    rw [Memory.read_cons] at h
    split at h
    · next ha =>
      obtain rfl := Option.some.inj h
      exact ha ▸ List.mem_cons_self
    · exact List.mem_cons_of_mem _ (ih h)

/-- The canonical form has one place for a byte, so a byte written over itself changes nothing. -/
theorem Memory.write_of_read {m : Memory} {k : Nat} {v : Byte} (hwf : Memory.wf m = true)
    (h : Memory.read m k = some v) : Memory.write m k v = m := by
  induction m with
  | nil => cases h
  | cons c m ih =>
    obtain ⟨a, b⟩ := c
    obtain ⟨hrise, hm⟩ := (Memory.wf_cons _ _).1 hwf
    rw [Memory.read_cons] at h
    split at h
    · next ha =>
      subst ha
      simp [Memory.write, Option.some.inj h]
    · have hlt : a < k := hrise _ (Memory.mem_of_read h)
      rw [Memory.write, if_neg hlt.not_gt, if_neg hlt.ne', ih hm h]

theorem Memory.writeRun_of_read {m : Memory} {off : Nat} {bs : List Byte} (hwf : Memory.wf m = true)
    (h : ∀ i, i < bs.length → Memory.read m (off + i) = bs[i]?) : Memory.writeRun m off bs = m := by
  induction bs generalizing off with
  | nil => rfl
  | cons b bs ih =>
    have hb : Memory.read m off = some b := h 0 (Nat.succ_pos _)
    rw [Memory.writeRun, Memory.write_of_read hwf hb]
    refine ih fun i hi => ?_
    rw [Nat.add_right_comm]
    exact h (i + 1) (Nat.succ_lt_succ hi)

/-- A run written twice is written once (R244). -/
theorem Memory.writeRun_writeRun {m : Memory} (hwf : Memory.wf m = true) (off : Nat) (bs : List Byte) :
    Memory.writeRun (Memory.writeRun m off bs) off bs = Memory.writeRun m off bs :=
  Memory.writeRun_of_read (Memory.wf_writeRun bs m off hwf) fun i hi => by
    rw [Memory.read_writeRun, if_pos (by omega), Nat.add_sub_cancel_left]

-- ## The slot pool (R233 to R239)

section Pool
variable {s : State} {k : Nat} {sl : Slot}

theorem bne_eq_decide_ne (j k : Nat) : (j != k) = decide (j ≠ k) := by by_cases h : j = k <;> simp [h]

/-- `FREE` and the write of a slot with the filter of the statements. -/
theorem State.freeSlot_eq (s : State) (k : Nat) : s.freeSlot k =
    { s with slots := s.slots.set k none, lru := s.lru.filter (fun j => decide (j ≠ k)) } := by
  simp only [State.freeSlot, bne_eq_decide_ne]

theorem State.putSlot_eq (s : State) (k : Nat) (sl : Slot) : s.putSlot k sl =
    { s with slots := s.slots.set k (some sl), lru := k :: s.lru.filter (fun j => decide (j ≠ k)) } := by
  simp only [State.putSlot, bne_eq_decide_ne]

/-- Only the last contents written into a slot count. -/
theorem State.putSlot_putSlot (s : State) (k : Nat) (a b : Slot) : (s.putSlot k a).putSlot k b = s.putSlot k b := by
  simp [State.putSlot]

theorem State.matchSlot_eq_some (hat : s.slotAt k = some sl)
    (honly : ∀ j b, s.slotAt j = some b → b.srcLl = sl.srcLl → b.tag = sl.tag → j = k) :
    s.matchSlot sl.srcLl sl.tag = some (k, sl) := by
  cases hm : s.matchSlot sl.srcLl sl.tag with
  | none => exact absurd ⟨rfl, rfl⟩ ((s.matchSlot_none _ _).1 hm k sl hat)
  | some found =>
    obtain ⟨j, b⟩ := found
    obtain ⟨-, hb, hsrc, htag⟩ := s.matchSlot_some _ _ j b hm
    obtain rfl := honly j b hb hsrc htag
    rw [Option.some.inj (hb.symm.trans hat)]

/-- Under the invariant a key has one slot, so `MATCH` finds it (R26 b, R234). -/
theorem State.Inv.matchSlot_of_slotAt (h : s.Inv) (hat : s.slotAt k = some sl) :
    s.matchSlot sl.srcLl sl.tag = some (k, sl) :=
  State.matchSlot_eq_some hat fun j b hb => h.keys j k b sl hb hat

/-- A slot written where its key has no other is the one that `MATCH` finds. -/
theorem State.matchSlot_putSlot (hk : k < s.slots.length)
    (honly : ∀ j b, s.slotAt j = some b → b.srcLl = sl.srcLl → b.tag = sl.tag → j = k) :
    (s.putSlot k sl).matchSlot sl.srcLl sl.tag = some (k, sl) := by
  refine State.matchSlot_eq_some (by rw [s.slotAt_putSlot k k sl hk, if_pos rfl]) fun j b hj hsrc htag => ?_
  rw [s.slotAt_putSlot k j sl hk] at hj
  split at hj
  · assumption
  · exact honly j b hj hsrc htag

/-- Once its only slot is freed, a key has none (R233). -/
theorem State.matchSlot_freeSlot {src : LLAddr} {tag : BitVec 16}
    (honly : ∀ j b, s.slotAt j = some b → b.srcLl = src → b.tag = tag → j = k) :
    (s.freeSlot k).matchSlot src tag = none := by
  refine (State.matchSlot_none _ _ _).2 fun j b hj ⟨hsrc, htag⟩ => ?_
  rw [State.slotAt_freeSlot] at hj
  split at hj
  · cases hj
  · next hne => exact hne (honly j b hj hsrc htag)

theorem findEmpty_eq_some {l : List (Option Slot)} (hk : l[k]? = some none) (hlow : ∀ j, j < k → l[j]? ≠ some none) :
    findEmpty 0 l = some k := by
  cases he : findEmpty 0 l with
  | none => exact absurd (List.mem_of_getElem? hk) ((findEmpty_none l 0).1 he)
  | some i =>
    obtain ⟨-, hi, hlow'⟩ := findEmpty_some l 0 i he
    obtain hlt | rfl | hgt := Nat.lt_trichotomy i k
    · exact absurd hi (hlow i hlt)
    · rfl
    · exact absurd hk (hlow' k hgt)

theorem State.chooseSlot_of_empty (h : findEmpty 0 s.slots = some k) : s.chooseSlot = some (k, s) := by
  simp only [State.chooseSlot, h]

theorem State.chooseSlot_of_full {v : Nat} (hfull : none ∉ s.slots) (hlast : s.lru.getLast? = some v) :
    s.chooseSlot = some (v, (s.freeSlot v).countEvictLru) := by
  simp only [State.chooseSlot, (findEmpty_none s.slots 0).2 hfull, hlast]

end Pool

-- ## One equation per branch of REASSEMBLE (R241)

section Reassemble
variable {s : State} {a : Arrival} {size : BitVec 11} {tag : BitVec 16} {off : Nat} {data : List Byte}

theorem reassemble_zero (h : size = 0) : reassemble a size tag off data s = .next (s.drop .fragZeroSize) := if_pos h

theorem reassemble_overflow (h0 : size ≠ 0) (hover : size.toNat < off + data.length) :
    reassemble a size tag off data s = .next ((s.failSlot (s.matchSlot a.srcLl tag)).drop .fragOverflow) := by
  rw [reassemble, if_neg h0, if_pos hover]

variable (h0 : size ≠ 0) (hfit : off + data.length ≤ size.toNat) {k : Nat} {sl : Slot}
include h0 hfit

theorem reassemble_mismatch (hm : s.matchSlot a.srcLl tag = some (k, sl)) (hsize : sl.size ≠ size) :
    reassemble a size tag off data s = .next ((s.freeSlot k).countEvictCorrupt.drop .fragSizeMismatch) := by
  rw [reassemble, if_neg h0, if_neg (Nat.not_lt.2 hfit), hm]
  exact if_pos hsize

theorem reassemble_match (hm : s.matchSlot a.srcLl tag = some (k, sl)) (hsize : sl.size = size) :
    reassemble a size tag off data s = .next (s.storeFragment k sl off data a.dstLl) := by
  rw [reassemble, if_neg h0, if_neg (Nat.not_lt.2 hfit), hm]
  exact if_neg (not_not.2 hsize)

theorem reassemble_new (hm : s.matchSlot a.srcLl tag = none) {t : State} (hc : s.chooseSlot = some (k, t)) :
    reassemble a size tag off data s = .next (t.storeFragment k (freshSlot a size tag) off data a.dstLl) := by
  rw [reassemble, if_neg h0, if_neg (Nat.not_lt.2 hfit), hm, hc]

end Reassemble

-- ## The two fragment instructions (R133, R134, R230)

section Fragment
variable {s : State} {i : Instr} {f : FragParts}

theorem exec_of_fragParts (hi : i.fragParts = some f) (s : State) :
    exec i s = withFrame f.a f.len (reassemble f.a f.size f.tag f.off f.data) s := by
  cases i with
  | frag1 a x size tag payload => cases hi; rfl
  | fragN a x size tag offset8 payload => cases hi; rfl
  | _ => cases hi

theorem exec_fragment_admitted (hi : i.fragParts = some f) (hadm : s.Admits f.a f.len) :
    exec i s = reassemble f.a f.size f.tag f.off f.data { s with lastNow := f.a.now } :=
  (exec_of_fragParts hi s).trans (withFrame_admitted f.a f.len _ s hadm.ready hadm.fits hadm.time)

end Fragment

-- ## A fragment that is dropped (R232, R233, R237)

/-- Settles O28: the size test comes first, and drop writes the counter and the code alone. -/
theorem zeroSizeFragmentIsDropped : Obligations.ZeroSizeFragmentIsDropped := fun _ _ _ hi hadm h0 =>
  (exec_fragment_admitted hi hadm).trans (reassemble_zero h0)

/-- Settles O29: the overflow test fails what `MATCH` finds, which is the slot of the key or nothing. -/
theorem overflowingFragmentFailsItsSlot : Obligations.OverflowingFragmentFailsItsSlot := by
  unfold Obligations.OverflowingFragmentFailsItsSlot
  intro s i f hinv hi hadm h0 hover
  rw [exec_fragment_admitted hi hadm, reassemble_overflow h0 hover]
  have hinv := hinv.withNow hadm.time
  refine ⟨fun hnone => ?noSlot, fun k sl hat hsrc htag => ?slot⟩
  case noSlot =>
    have hm : ({ s with lastNow := f.a.now } : State).matchSlot f.a.srcLl f.tag = none :=
      (State.matchSlot_none _ _ _).2 hnone
    rw [hm]
    rfl
  case slot =>
    rw [← hsrc, ← htag, hinv.matchSlot_of_slotAt hat, State.failSlot, State.freeSlot_eq]
    rfl

/-- Settles O30: `MATCH` finds the slot, and the size test fails it. -/
theorem mismatchingFragmentFailsItsSlot : Obligations.MismatchingFragmentFailsItsSlot := by
  unfold Obligations.MismatchingFragmentFailsItsSlot
  intro s i f k sl hinv hi hadm h0 hfit hat hsrc htag hsize
  have hm := (hinv.withNow hadm.time).matchSlot_of_slotAt hat
  rw [hsrc, htag] at hm
  rw [exec_fragment_admitted hi hadm, reassemble_mismatch h0 hfit hm hsize, State.freeSlot_eq]
  rfl

-- ## A fragment that is accepted (R238 to R240)

section Accepted
variable {s : State} {i : Instr} {f : FragParts} {k : Nat} {sl : Slot}

/-- A fragment with the key and size of a slot is stored in it. -/
theorem exec_fragment_accepted (hinv : s.Inv) (hi : i.fragParts = some f) (hadm : s.Admits f.a f.len) (h0 : f.size ≠ 0)
    (hfit : f.off + f.data.length ≤ f.size.toNat) (hat : s.slotAt k = some sl) (hsrc : sl.srcLl = f.a.srcLl)
    (htag : sl.tag = f.tag) (hsize : sl.size = f.size) :
    exec i s = .next (({ s with lastNow := f.a.now } : State).storeFragment k sl f.off f.data f.a.dstLl) := by
  have hm := (hinv.withNow hadm.time).matchSlot_of_slotAt hat
  rw [hsrc, htag] at hm
  rw [exec_fragment_admitted hi hadm, reassemble_match h0 hfit hm hsize]

variable {off : Nat} {data : List Byte} {dstLl : LLAddr}

/-- A store that leaves a byte missing writes the slot (R238, R239). -/
theorem State.storeFragment_incomplete
    (hmiss : ∃ b, b < sl.size.toNat ∧ ¬(off ≤ b ∧ b < off + data.length) ∧ Memory.read sl.data b = none) :
    s.storeFragment k sl off data dstLl = s.putSlot k { sl with data := Memory.writeRun sl.data off data } := by
  obtain ⟨b, hb, hout, hnone⟩ := hmiss
  obtain ⟨-, he⟩ | ⟨dg, hdg, -⟩ := s.storeFragment_cases k sl off data dstLl
  · exact he
  · have hread : Memory.readRun (Memory.writeRun sl.data off data) 0 sl.size.toNat = none := by
      refine (Memory.readRun_eq_none _ _ _).2 ⟨b, hb, ?_⟩
      rw [Nat.zero_add, Memory.read_writeRun, if_neg hout, hnone]
    cases hread.symm.trans hdg

/-- A store that leaves no byte missing frees the slot and hands its bytes on (R240). -/
theorem State.storeFragment_complete
    (hall : ∀ b, b < sl.size.toNat → (off ≤ b ∧ b < off + data.length) ∨ Memory.read sl.data b ≠ none) :
    ∃ dg : List Byte, dg.length = sl.size.toNat ∧
      (∀ b, b < sl.size.toNat →
        dg[b]? = if off ≤ b ∧ b < off + data.length then data[b - off]? else Memory.read sl.data b) ∧
      s.storeFragment k sl off data dstLl = (s.freeSlot k).processDatagram dg sl.srcLl dstLl := by
  obtain ⟨hmiss, -⟩ | ⟨dg, hdg, he⟩ := s.storeFragment_cases k sl off data dstLl
  · obtain ⟨b, hb, hnone⟩ := (Memory.readRun_eq_none _ _ _).1 hmiss
    rw [Nat.zero_add, Memory.read_writeRun] at hnone
    split at hnone
    · next hin =>
      have := List.getElem?_eq_none_iff.1 hnone
      omega
    · next hout => exact absurd hnone ((hall b hb).resolve_left hout)
  · obtain ⟨hlen, hbytes⟩ := (Memory.readRun_eq_some _ _ _ _).1 hdg
    rw [State.freeSlot_putSlot] at he
    refine ⟨dg, hlen, fun b hb => ?_, he⟩
    rw [← hbytes b hb, Nat.zero_add, Memory.read_writeRun]

end Accepted

/-- Settles O31: the store's storage is the old one with the fragment's run written over it. -/
theorem acceptedFragmentWritesItsBytes : Obligations.AcceptedFragmentWritesItsBytes := by
  unfold Obligations.AcceptedFragmentWritesItsBytes
  intro s i f k sl hinv hi hadm h0 hfit hat hsrc htag hsize hmiss
  refine ⟨Memory.writeRun sl.data f.off f.data, Memory.wf_writeRun _ _ _ (hinv.slot_ok k sl hat).data_wf,
    Memory.read_writeRun _ _ _, ?_⟩
  rw [exec_fragment_accepted hinv hi hadm h0 hfit hat hsrc htag hsize, State.storeFragment_incomplete hmiss,
    State.putSlot_eq]

-- ## PROCESS_DATAGRAM by the first byte and the length (R266)

section Process
variable (t : State) {b : Byte} {p : List Byte} {src dst : LLAddr}

/-- A datagram shorter than the header of its class is truncated; a longer one goes by its class (R130, R136). -/
theorem State.processDatagram_of_class {cls : FrameClass} {need : Nat} (hc : classOfByte b = (cls, need)) {long : State}
    (hlong : classify (b :: p) = (cls, need) → t.processDatagram (b :: p) src dst = long) :
    t.processDatagram (b :: p) src dst = if (b :: p).length < need then t.drop .truncated else long := by
  split
  · next h =>
    have hcls : classify (b :: p) = (.truncated, 0) := classify_short (by rwa [hc])
    simp only [State.processDatagram, hcls]
  · next h => exact hlong ((classify_long (by rw [hc]; exact Nat.le_of_not_lt h)).trans hc)

theorem State.deliverUncompressed_eq (p : List Byte) :
    t.deliverUncompressed p = if 40 ≤ p.length then t.deliver p else t.drop .truncated := by
  simp only [State.deliverUncompressed, ipv6HdrLen, ← Nat.not_le, ite_not]

theorem State.processDatagram_cons : t.processDatagram (b :: p) src dst =
    if b.toNat = 0x41 then t.deliverUncompressed p
    else if 0x60 ≤ b.toNat ∧ b.toNat ≤ 0x7F then
      if (b :: p).length < 2 then t.drop .truncated else t.deliverOrDrop (decompress t.cfg t.ctx (b :: p) src dst)
    else if 0xC0 ≤ b.toNat ∧ b.toNat ≤ 0xDF then
      if (b :: p).length < 4 then t.drop .truncated else t.drop .nestedDispatch
    else if 0xE0 ≤ b.toNat then if (b :: p).length < 5 then t.drop .truncated else t.drop .nestedDispatch
    else t.drop .unknownDispatch := by
  split
  case isTrue h =>
    have hc : classOfByte b = (.ipv6Uncomp, uncompHdrLen) := by rw [classOfByte_eq_ranges, if_pos h]
    refine (t.processDatagram_of_class hc fun hcls => ?_).trans (if_neg (Nat.not_lt.2 (Nat.le_add_left 1 _)))
    simp only [State.processDatagram, hcls]
    rfl
  case isFalse h41 =>
  split
  case isTrue h =>
    exact t.processDatagram_of_class (classOfByte_iphc h) fun hcls => by simp only [State.processDatagram, hcls]
  case isFalse hiphc =>
  split
  case isTrue h =>
    exact t.processDatagram_of_class (classOfByte_frag1 h) fun hcls => by simp only [State.processDatagram, hcls]
  case isFalse hfrag1 =>
  split
  case isTrue h =>
    exact t.processDatagram_of_class (classOfByte_fragN h) fun hcls => by simp only [State.processDatagram, hcls]
  case isFalse hfragN =>
    have hcls := classify_unknown p (classOfByte_unknown (b := b) (by omega))
    simp only [State.processDatagram, hcls]

end Process

/-- Settles O32: a store that leaves nothing missing hands its bytes on, and PROCESS_DATAGRAM goes by the class. -/
theorem completingFragmentHandsTheDatagramOn : Obligations.CompletingFragmentHandsTheDatagramOn := by
  unfold Obligations.CompletingFragmentHandsTheDatagramOn
  refine ⟨?handOn, ?process⟩
  case handOn =>
    intro s i f k sl hinv hi hadm h0 hfit hat hsrc htag hsize hall
    obtain ⟨dg, hlen, hbytes, he⟩ := State.storeFragment_complete (s := { s with lastNow := f.a.now }) (k := k)
      (dstLl := f.a.dstLl) hall
    refine ⟨dg, hlen, hbytes, ?_⟩
    rw [exec_fragment_accepted hinv hi hadm h0 hfit hat hsrc htag hsize, he, State.freeSlot_eq]
  case process =>
    intro t dg src dst dropped delivered
    cases dg with
    | nil => rfl
    | cons b p =>
      rw [State.processDatagram_cons, State.deliverUncompressed_eq]
      cases decompress t.cfg t.ctx (b :: p) src dst with
      | ok q => rfl
      | error e => rfl

-- ## A fragment of an unseen key (R235, R236)

section UnseenKey
variable {s : State} {a : Arrival} {size : BitVec 11} {tag : BitVec 16} {off : Nat} {data : List Byte} {k : Nat}

/-- The pool with a slot laid out at an EMPTY index and most recent in LRU. -/
def State.layOut (s : State) (k : Nat) (sl : Slot) : State :=
  { s with slots := s.slots.set k (some sl), lru := k :: s.lru }

theorem State.putSlot_layOut (s : State) (k : Nat) (a b : Slot) : (s.layOut k a).putSlot k b = s.putSlot k b := by
  simp [State.putSlot, State.layOut]

theorem State.storeFragment_layOut (s : State) (k : Nat) (sl : Slot) (dstLl : LLAddr) :
    (s.layOut k sl).storeFragment k sl off data dstLl = s.storeFragment k sl off data dstLl := by
  simp only [State.storeFragment, State.putSlot_layOut]

variable (h0 : size ≠ 0) (hfit : off + data.length ≤ size.toNat)
  (hnew : ∀ j sl, s.slotAt j = some sl → ¬(sl.srcLl = a.srcLl ∧ sl.tag = tag))
include h0 hfit hnew

/-- `MATCH` finds the slot laid out for the key where the search for an EMPTY one would end, and the store overwrites
its contents and its place in LRU. -/
theorem reassemble_layOut (hk : s.slots[k]? = some none) (hlow : ∀ j, j < k → s.slots[j]? ≠ some none) :
    reassemble a size tag off data s = reassemble a size tag off data (s.layOut k (freshSlot a size tag)) := by
  have hklt : k < s.slots.length := (List.getElem?_eq_some_iff.1 hk).1
  have hm : (s.layOut k (freshSlot a size tag)).matchSlot a.srcLl tag = some (k, freshSlot a size tag) :=
    State.matchSlot_putSlot (sl := freshSlot a size tag) hklt fun j b hj hsrc htag =>
      absurd ⟨hsrc, htag⟩ (hnew j b hj)
  rw [reassemble_new h0 hfit ((s.matchSlot_none _ _).2 hnew) (State.chooseSlot_of_empty (findEmpty_eq_some hk hlow)),
    reassemble_match h0 hfit hm rfl, State.storeFragment_layOut]

/-- The victim of a full pool is the slot that the search for an EMPTY one ends at once it is freed. -/
theorem reassemble_evict {v : Nat} (hv : v < s.slots.length) (hfull : none ∉ s.slots)
    (hlast : s.lru.getLast? = some v) :
    reassemble a size tag off data s = reassemble a size tag off data (s.freeSlot v).countEvictLru := by
  have hempty : findEmpty 0 (s.slots.set v none) = some v := by
    refine findEmpty_eq_some (List.getElem?_set_self hv) fun j hj => ?_
    rw [List.getElem?_set_ne hj.ne']
    exact fun hnone => hfull (List.mem_of_getElem? hnone)
  have hm : (s.freeSlot v).countEvictLru.matchSlot a.srcLl tag = none := by
    refine (State.matchSlot_none _ _ _).2 fun j b hj => ?_
    have hj : (s.freeSlot v).slotAt j = some b := hj
    rw [State.slotAt_freeSlot] at hj
    split at hj
    · cases hj
    · exact hnew j b hj
  rw [reassemble_new h0 hfit ((s.matchSlot_none _ _).2 hnew) (State.chooseSlot_of_full hfull hlast),
    reassemble_new h0 hfit hm (State.chooseSlot_of_empty hempty)]

end UnseenKey

/-- Settles O33: laying the slot out first does not change what REASSEMBLE does. -/
theorem unseenKeyTakesTheLowestEmptySlot : Obligations.UnseenKeyTakesTheLowestEmptySlot := by
  unfold Obligations.UnseenKeyTakesTheLowestEmptySlot
  intro s i f k hi hadm h0 hfit hnew hk hlow
  refine (exec_fragment_admitted hi hadm).trans (.trans (reassemble_layOut h0 hfit hnew hk hlow) (.symm ?_))
  exact exec_fragment_admitted hi ⟨hadm.ready, hadm.fits, hadm.time⟩

theorem filter_ne_last {l : List Nat} {v : Nat} (h : (l ++ [v]).Nodup) : (l ++ [v]).filter (fun j => j != v) = l := by
  have hv : v ∉ l := fun hmem => (List.nodup_append.1 h).2.2 v hmem v (by simp) rfl
  rw [List.filter_append, List.filter_eq_self.2 fun j hj => bne_iff_ne.2 (ne_of_mem_of_not_mem hj hv)]
  simp

/-- Settles O34: evicting the victim first does not change what REASSEMBLE does, and LRU names it once. -/
theorem fullPoolEvictsTheLeastRecentlyUpdated : Obligations.FullPoolEvictsTheLeastRecentlyUpdated := by
  unfold Obligations.FullPoolEvictsTheLeastRecentlyUpdated
  intro s i f v pre hinv hi hadm h0 hfit hnew hfull hlru
  have hv : (s.slotAt v).isSome = true := (hinv.lru_filling v).1 (by simp [hlru])
  obtain ⟨sl, hat⟩ := Option.isSome_iff_exists.1 hv
  have hevicted : s.lru.filter (fun j => j != v) = pre := by
    rw [hlru]
    exact filter_ne_last (hlru ▸ hinv.lru_nodup)
  rw [← hevicted]
  have hlast : s.lru.getLast? = some v := hlru ▸ List.getLast?_concat
  refine (exec_fragment_admitted hi hadm).trans (.trans (reassemble_evict (s := { s with lastNow := f.a.now }) h0 hfit
    hnew (State.slotAt_lt hat) hfull hlast) (.symm ?_))
  exact exec_fragment_admitted hi ⟨hadm.ready, hadm.fits, hadm.time⟩

-- ## The other slots (R246)

theorem State.processDatagram_slots (s : State) (dg : List Byte) (src dst : LLAddr) :
    (s.processDatagram dg src dst).slots = s.slots := by
  obtain ⟨p, he⟩ | ⟨e, he⟩ := s.processDatagram_cases dg src dst <;> rw [he] <;> rfl

theorem State.matchSlot_processDatagram (s : State) (dg : List Byte) (src dst src' : LLAddr) (tag : BitVec 16) :
    (s.processDatagram dg src dst).matchSlot src' tag = s.matchSlot src' tag := by
  rw [State.matchSlot, State.processDatagram_slots, ← State.matchSlot]

section OtherSlots
variable {s : State} {j k : Nat} (hj : j ≠ k)
include hj

theorem State.slotAt_freeSlot_ne : (s.freeSlot k).slotAt j = s.slotAt j := by
  rw [State.slotAt_freeSlot, if_neg hj]

theorem State.slotAt_putSlot_ne (sl : Slot) : (s.putSlot k sl).slotAt j = s.slotAt j := by
  simp only [State.slotAt, State.putSlot_slots, List.getElem?_set_ne hj.symm]

theorem State.slotAt_storeFragment_ne (sl : Slot) (off : Nat) (data : List Byte) (dstLl : LLAddr) :
    (s.storeFragment k sl off data dstLl).slotAt j = s.slotAt j := by
  obtain ⟨-, he⟩ | ⟨dg, -, he⟩ := s.storeFragment_cases k sl off data dstLl <;> rw [he]
  · exact State.slotAt_putSlot_ne hj _
  · rw [State.freeSlot_putSlot, State.slotAt_eq, State.processDatagram_slots]
    exact State.slotAt_freeSlot_ne (s := s) hj

theorem State.slotAt_chooseSlot_ne {t : State} (hc : s.chooseSlot = some (k, t)) : t.slotAt j = s.slotAt j := by
  obtain ⟨-, rfl⟩ | ⟨-, -, rfl⟩ := s.chooseSlot_cases k t hc
  · rfl
  · exact State.slotAt_freeSlot_ne hj

end OtherSlots

/-- The slot of the key, or the one chosen for an unseen key, is the only one REASSEMBLE writes. -/
theorem slotAt_reassemble_ne {s s' : State} {a : Arrival} {size : BitVec 11} {tag : BitVec 16} {off : Nat}
    {data : List Byte} {k : Nat} (he : reassemble a size tag off data s = .next s')
    (hmatch : ∀ i sl, s.matchSlot a.srcLl tag = some (i, sl) → i = k)
    (hchoose : s.matchSlot a.srcLl tag = none → s.chooseSlot.map Prod.fst = some k) {j : Nat} (hj : j ≠ k) :
    s'.slotAt j = s.slotAt j := by
  obtain ⟨-, rfl⟩ | ⟨-, -, rfl⟩ | ⟨-, -, i, sl, hm, -, rfl⟩ | ⟨-, -, i, sl, hm, -, rfl⟩ |
    ⟨-, -, hm, i, s1, hc, rfl⟩ := reassemble_next a size tag off data s s' he
  · rfl
  · cases hm : s.matchSlot a.srcLl tag with
    | none => rfl
    | some found =>
      obtain rfl := hmatch found.1 found.2 hm
      exact State.slotAt_freeSlot_ne hj
  · obtain rfl := hmatch i sl hm
    exact State.slotAt_freeSlot_ne hj
  · obtain rfl := hmatch i sl hm
    exact State.slotAt_storeFragment_ne hj ..
  · obtain rfl : i = k := by simpa [hc] using hchoose hm
    rw [State.slotAt_storeFragment_ne hj, State.slotAt_chooseSlot_ne hj hc]

/-- Taking a frame's time changes nothing in the choice of a slot. -/
theorem State.chooseSlot_withNow (s : State) (now : Time) :
    ({ s with lastNow := now } : State).chooseSlot.map Prod.fst = s.chooseSlot.map Prod.fst := by
  simp only [State.chooseSlot]
  cases findEmpty 0 s.slots with
  | some k => rfl
  | none => cases s.lru.getLast? <;> rfl

/-- Settles O35, from the one slot that REASSEMBLE writes. -/
theorem fragmentLeavesOtherSlotsAlone : Obligations.FragmentLeavesOtherSlotsAlone := by
  unfold Obligations.FragmentLeavesOtherSlotsAlone
  intro s s' i f k hi he hk j hj
  rw [exec_of_fragParts hi] at he
  obtain ⟨-, rfl⟩ | ⟨-, -, -, he⟩ := withFrame_next f.a f.len _ s s' he
  · rfl
  · refine slotAt_reassemble_ne he (fun n sl hm => ?_) (fun hm => ?_) hj
    · have hm : s.matchSlot f.a.srcLl f.tag = some (n, sl) := hm
      simpa only [hm] using hk
    · have hm : s.matchSlot f.a.srcLl f.tag = none := hm
      rw [State.chooseSlot_withNow]
      simpa only [hm] using hk

-- ## Where an accepted fragment goes (R234 to R238)

/-- What a fragment that is stored leaves alone, of all that the receive path reads or puts out. -/
structure State.SameRest (s t : State) : Prop where
  initDone : t.initDone = s.initDone
  cfg : t.cfg = s.cfg
  ctx : t.ctx = s.ctx
  reg : t.reg = s.reg
  out : t.out = s.out
  cntDrop : t.cntDrop = s.cntDrop
  lastErr : t.lastErr = s.lastErr

theorem State.SameRest.trans {s t u : State} (h : s.SameRest t) (h' : t.SameRest u) : s.SameRest u where
  initDone := h'.initDone.trans h.initDone
  cfg := h'.cfg.trans h.cfg
  ctx := h'.ctx.trans h.ctx
  reg := h'.reg.trans h.reg
  out := h'.out.trans h.out
  cntDrop := h'.cntDrop.trans h.cntDrop
  lastErr := h'.lastErr.trans h.lastErr

theorem State.SameRest.refl (s : State) : s.SameRest s := ⟨rfl, rfl, rfl, rfl, rfl, rfl, rfl⟩

theorem State.SameRest.withNow {s t : State} (h : s.SameRest t) (now : Time) :
    s.SameRest { t with lastNow := now } := { h with }

theorem State.SameRest.freeSlot {s t : State} (h : s.SameRest t) (k : Nat) : s.SameRest (t.freeSlot k) := { h with }

theorem State.SameRest.putSlot {s t : State} (h : s.SameRest t) (k : Nat) (sl : Slot) : s.SameRest (t.putSlot k sl) :=
  { h with }

theorem State.sameRest_chooseSlot {s t : State} {k : Nat} (hc : s.chooseSlot = some (k, t)) : s.SameRest t := by
  obtain ⟨-, rfl⟩ | ⟨-, -, rfl⟩ := s.chooseSlot_cases k t hc
  · exact .refl _
  · exact { State.SameRest.refl s with }

/-- The fragments of size `size` that REASSEMBLE accepts in `s` for the key of `a` and `tag` are stored in slot `k` of
`t`, whose contents before them are `sl`: those of the key's slot, or none for an unseen key. -/
structure SlotFor (s : State) (a : Arrival) (size : BitVec 11) (tag : BitVec 16) (t : State) (k : Nat) (sl : Slot) :
    Prop where
  stores : ∀ off data, off + data.length ≤ size.toNat →
    reassemble a size tag off data s = .next (t.storeFragment k sl off data a.dstLl)
  inv : t.Inv
  rest : s.SameRest t
  now : t.lastNow = s.lastNow
  index : k < t.slots.length
  key_src : sl.srcLl = a.srcLl
  key_tag : sl.tag = tag
  size_eq : sl.size = size
  ok : sl.Ok t.lastNow
  only : ∀ j b, t.slotAt j = some b → b.srcLl = sl.srcLl → b.tag = sl.tag → j = k
  before : s.matchSlot a.srcLl tag = some (k, sl) ∨ (s.matchSlot a.srcLl tag = none ∧ sl.data = [])

section Store
variable {s : State} {a : Arrival} {size : BitVec 11} {tag : BitVec 16} {off : Nat} {data : List Byte}

/-- The pool has a slot, so a state with the invariant can always choose one (R6, R236). -/
theorem State.Inv.exists_chooseSlot (h : s.Inv) : ∃ k t, s.chooseSlot = some (k, t) := by
  cases hc : s.chooseSlot with
  | some found => exact ⟨found.1, found.2, rfl⟩
  | none =>
    obtain ⟨hfull, hlru⟩ := s.chooseSlot_none.1 hc
    have hpos : 0 < s.slots.length := h.slots_len ▸ h.cfg_ok.nSlots_pos
    obtain ⟨o, hat⟩ : ∃ o, s.slots[0]? = some o := ⟨_, List.getElem?_eq_getElem hpos⟩
    have hmem : o ∈ s.slots := List.mem_of_getElem? hat
    have hsome : (s.slotAt 0).isSome = true := by
      rw [State.slotAt, hat, Option.getD_some, Option.isSome_iff_ne_none]
      rintro rfl
      exact (findEmpty_none s.slots 0).1 hfull hmem
    simpa [hlru] using (h.lru_filling 0).2 hsome

theorem exists_slotFor (h : s.Inv) (ha : a.now ≤ s.lastNow) (h0 : size ≠ 0)
    (hsize : ∀ k sl, s.matchSlot a.srcLl tag = some (k, sl) → sl.size = size) :
    ∃ t k sl, SlotFor s a size tag t k sl := by
  cases hm : s.matchSlot a.srcLl tag with
  | some found =>
    obtain ⟨k, sl⟩ := found
    obtain ⟨hk, hat, hsrc, htag⟩ := s.matchSlot_some _ _ k sl hm
    exact ⟨s, k, sl, {
      stores := fun off data hfit => reassemble_match h0 hfit hm (hsize k sl hm)
      inv := h, rest := .refl s, now := rfl, index := hk, key_src := hsrc, key_tag := htag
      size_eq := hsize k sl hm
      ok := h.slot_ok k sl hat
      only := fun j b hb => h.keys j k b sl hb hat
      before := .inl hm }⟩
  | none =>
    obtain ⟨k, t, hc⟩ := h.exists_chooseSlot
    obtain ⟨hinv, hk, hnow, hold⟩ := h.chooseSlot hc
    have hnew := (s.matchSlot_none _ _).1 hm
    exact ⟨t, k, freshSlot a size tag, {
      stores := fun off data hfit => reassemble_new h0 hfit hm hc
      inv := hinv, rest := State.sameRest_chooseSlot hc, now := hnow, index := hk
      key_src := rfl, key_tag := rfl, size_eq := rfl
      ok := freshSlot_ok a size tag _ h0 (hnow ▸ ha)
      only := fun j b hb hsrc htag => absurd ⟨hsrc, htag⟩ (hnew j b (hold j b hb))
      before := .inr ⟨hm, rfl⟩ }⟩

namespace SlotFor
variable {t : State} {k : Nat} {sl : Slot} (h : SlotFor s a size tag t k sl)
include h

/-- Written, the slot is the one of its key. -/
theorem matchSlot_putSlot (m : Memory) :
    (t.putSlot k { sl with data := m }).matchSlot a.srcLl tag = some (k, { sl with data := m }) := by
  rw [← h.key_src, ← h.key_tag]
  exact State.matchSlot_putSlot (sl := { sl with data := m }) h.index h.only

/-- Freed, its key has no slot. -/
theorem matchSlot_freeSlot : (t.freeSlot k).matchSlot a.srcLl tag = none := by
  rw [← h.key_src, ← h.key_tag]
  exact State.matchSlot_freeSlot h.only

theorem storeFragment_inv (hfit : off + data.length ≤ size.toNat) (dstLl : LLAddr) :
    (t.storeFragment k sl off data dstLl).Inv :=
  h.inv.storeFragment h.index h.ok (h.size_eq ▸ hfit) h.only dstLl

end SlotFor

-- ## A fragment that comes again (R244)

/-- A fragment after which its key has a slot was stored, and left its datagram incomplete. -/
theorem exists_slotFor_of_matchSlot_after {s' : State} (h : s.Inv) (ha : a.now ≤ s.lastNow) (h0 : size ≠ 0)
    (hfit : off + data.length ≤ size.toNat) (he : reassemble a size tag off data s = .next s')
    (hslot : (s'.matchSlot a.srcLl tag).isSome = true) :
    ∃ t k sl, SlotFor s a size tag t k sl ∧
      Memory.readRun (Memory.writeRun sl.data off data) 0 sl.size.toNat = none ∧
      s' = t.putSlot k { sl with data := Memory.writeRun sl.data off data } := by
  have hsize : ∀ k sl, s.matchSlot a.srcLl tag = some (k, sl) → sl.size = size := fun k sl hm => by
    by_contra hne
    obtain rfl := Host.Outcome.next.inj ((reassemble_mismatch h0 hfit hm hne).symm.trans he)
    obtain ⟨-, hat, hsrc, htag⟩ := s.matchSlot_some _ _ k sl hm
    have hfreed := State.matchSlot_freeSlot fun j b hb (hsrc' : b.srcLl = a.srcLl) (htag' : b.tag = tag) =>
      h.keys j k b sl hb hat (hsrc'.trans hsrc.symm) (htag'.trans htag.symm)
    exact Option.not_isSome_iff_eq_none.2 hfreed hslot
  obtain ⟨t, k, sl, hfor⟩ := exists_slotFor h ha h0 hsize
  obtain rfl := Host.Outcome.next.inj ((hfor.stores off data hfit).symm.trans he)
  obtain ⟨hmiss, hput⟩ | ⟨dg, -, hdone⟩ := t.storeFragment_cases k sl off data a.dstLl
  · exact ⟨t, k, sl, hfor, hmiss, hput⟩
  · rw [hdone, State.freeSlot_putSlot, State.matchSlot_processDatagram, hfor.matchSlot_freeSlot] at hslot
    cases hslot

/-- The second time the fragment finds its own bytes in the slot, and the slot at the head of LRU. -/
theorem reassemble_again {s' : State} (h : s.Inv) (ha : a.now ≤ s.lastNow) (h0 : size ≠ 0)
    (hfit : off + data.length ≤ size.toNat) (he : reassemble a size tag off data s = .next s')
    (hslot : (s'.matchSlot a.srcLl tag).isSome = true) :
    reassemble a size tag off data s' = .next s' ∧ s.SameRest s' ∧ s'.lastNow = s.lastNow := by
  obtain ⟨t, k, sl, hfor, hmiss, rfl⟩ := exists_slotFor_of_matchSlot_after h ha h0 hfit he hslot
  refine ⟨?_, hfor.rest.putSlot k _, hfor.now⟩
  have hm := hfor.matchSlot_putSlot (Memory.writeRun sl.data off data)
  rw [reassemble_match h0 hfit hm hfor.size_eq]
  have hsame := Memory.writeRun_writeRun hfor.ok.data_wf off data
  obtain ⟨-, he⟩ | ⟨dg, hdone, -⟩ := State.storeFragment_cases _ k _ off data a.dstLl
  · rw [he, State.putSlot_putSlot, hsame]
  · rw [hsame, hmiss] at hdone
    cases hdone

end Store

/-- Settles O36: the time is taken already, and REASSEMBLE changes nothing the second time. -/
theorem repeatedFragmentChangesNothing : Obligations.RepeatedFragmentChangesNothing := by
  unfold Obligations.RepeatedFragmentChangesNothing
  intro s s' i f hinv hready hi h0 hfit he hslot
  rw [exec_of_fragParts hi] at he
  obtain ⟨hno, -⟩ | ⟨-, hlen, hnow, he⟩ := withFrame_next f.a f.len _ s s' he
  · cases hready.symm.trans hno
  · obtain ⟨hagain, hrest, hnow'⟩ := reassemble_again (hinv.withNow hnow) le_rfl h0 hfit he hslot
    have hnow' : s'.lastNow = f.a.now := hnow'
    rw [exec_fragment_admitted hi ⟨hrest.initDone.trans hready, hrest.cfg ▸ hlen, hnow'.le⟩, ← hnow']
    exact hagain

-- ## TICK (R242)

/-- A slot of the pool that is FILLING and older than the timeout. -/
def staleSlot (timeout : Nat) (now : Time) : Option Slot → Bool
  | some sl => sl.stale timeout now
  | none => false

theorem tickSlot_eq (now : Time) (s : State) (i : Nat) : tickSlot now s i =
    if staleSlot s.cfg.reassTimeout now (s.slotAt i) then (s.freeSlot i).countTimeout else s := by
  unfold tickSlot
  cases s.slotAt i with
  | none => rfl
  | some sl => rfl

/-- The block after the timeout scan of the slots below `n`. -/
def State.scanned (s : State) (now : Time) (n : Nat) : State :=
  let stale := staleSlot s.cfg.reassTimeout now
  { s with
    slots := s.slots.mapIdx (fun j o => if j < n ∧ stale o = true then none else o)
    lru := s.lru.filter (fun j => !(decide (j < n) && stale (s.slotAt j)))
    cntTimeout := s.cntTimeout + BitVec.ofNat 32 ((s.slots.take n).countP stale) }

section Scan
variable {s : State} {now : Time} {n : Nat}

theorem State.scanned_zero (s : State) (now : Time) : s.scanned now 0 = s := by
  have hid : s.slots.mapIdx (fun _ o => o) = s.slots := List.ext_getElem (by simp) (by simp)
  simp [State.scanned, hid]

theorem State.slotAt_of_lt (hn : n < s.slots.length) : s.slotAt n = s.slots[n] := by simp [State.slotAt, hn]

theorem State.slotAt_scanned_self : (s.scanned now n).slotAt n = s.slotAt n := by
  simp [State.slotAt, State.scanned]

theorem State.countP_take_succ (hn : n < s.slots.length) (p : Option Slot → Bool) :
    (s.slots.take (n + 1)).countP p = (s.slots.take n).countP p + if p (s.slotAt n) then 1 else 0 := by
  rw [← List.take_append_getElem hn, List.countP_append, List.countP_singleton, State.slotAt_of_lt hn]

/-- Below `n + 1` means below `n` where slot `n` stays as it is. -/
theorem State.scanned_succ_of_fresh (hn : n < s.slots.length)
    (h : staleSlot s.cfg.reassTimeout now (s.slotAt n) = false) : s.scanned now (n + 1) = s.scanned now n := by
  simp only [State.scanned, State.mk.injEq, true_and, and_true]
  refine ⟨List.ext_getElem (by simp) fun j hj _ => ?slot, List.filter_congr fun j _ => ?lru, ?count⟩
  case slot =>
    obtain rfl | hne := eq_or_ne j n
    · simp [← State.slotAt_of_lt hn, h]
    · simp [hne.le_iff_lt]
  case lru =>
    obtain rfl | hne := eq_or_ne j n
    · simp [h]
    · simp [hne.le_iff_lt]
  case count => rw [State.countP_take_succ hn, h]; rfl

theorem State.scanned_succ_of_stale (hn : n < s.slots.length)
    (h : staleSlot s.cfg.reassTimeout now (s.slotAt n) = true) :
    s.scanned now (n + 1) = ((s.scanned now n).freeSlot n).countTimeout := by
  simp only [State.scanned, State.freeSlot, State.countTimeout, State.mk.injEq, true_and, and_true, List.filter_filter]
  refine ⟨List.ext_getElem (by simp) fun j hj _ => ?slot, List.filter_congr fun j _ => ?lru, ?count⟩
  case slot =>
    obtain rfl | hne := eq_or_ne j n
    · simp [← State.slotAt_of_lt hn, h]
    · simp [hne.le_iff_lt, hne.symm]
  case lru =>
    obtain rfl | hne := eq_or_ne j n
    · simp [h]
    · simp [hne.le_iff_lt, hne]
  case count => rw [State.countP_take_succ hn, h, if_pos rfl, BitVec.ofNat_add, BitVec.add_assoc]; rfl

theorem foldl_tickSlot_eq_scanned (hn : n ≤ s.slots.length) :
    (List.range n).foldl (tickSlot now) s = s.scanned now n := by
  induction n with
  | zero => exact (s.scanned_zero now).symm
  | succ n ih =>
    rw [List.range_succ, List.foldl_append, ih (Nat.le_of_succ_le hn), List.foldl_cons, List.foldl_nil, tickSlot_eq,
      State.slotAt_scanned_self]
    cases h : staleSlot s.cfg.reassTimeout now (s.slotAt n) with
    | true => exact (if_pos h).trans (State.scanned_succ_of_stale hn h).symm
    | false => exact (if_neg (Bool.eq_false_iff.1 h)).trans (State.scanned_succ_of_fresh hn h).symm

/-- The scan of the whole pool. -/
theorem State.scanned_length (s : State) (now : Time) : s.scanned now s.slots.length =
    let stale := staleSlot s.cfg.reassTimeout now
    { s with
      slots := s.slots.map (fun o => if stale o then none else o)
      lru := s.lru.filter (fun j => !stale (s.slotAt j))
      cntTimeout := s.cntTimeout + BitVec.ofNat 32 (s.slots.countP stale) } := by
  simp only [State.scanned, State.mk.injEq, true_and, and_true, List.take_length]
  refine ⟨List.ext_getElem (by simp) fun j hj _ => ?slot, List.filter_congr fun j _ => ?lru⟩
  case slot =>
    have hj : j < s.slots.length := by simpa using hj
    simp [hj]
  case lru =>
    obtain hj | hj := Nat.lt_or_ge j s.slots.length
    · simp [hj]
    · have hnone : s.slotAt j = none := by simp [State.slotAt, hj]
      simp [hnone, staleSlot]

end Scan

theorem withTime_admitted {s : State} {now : Time} (hi : s.initDone = true) (hn : s.lastNow ≤ now)
    (k : State → Result) : withTime now k s = k { s with lastNow := now } := by
  rw [withTime, hi, if_neg (by simp), if_neg (Nat.not_lt.2 hn)]

theorem exec_tick_admitted {s : State} {now : Time} (hi : s.initDone = true) (hn : s.lastNow ≤ now) :
    exec (.tick now) s = .next (({ s with lastNow := now } : State).scanned now s.slots.length) :=
  (withTime_admitted hi hn fun t => .next ((List.range t.slots.length).foldl (tickSlot now) t)).trans
    (congrArg Host.Outcome.next (foldl_tickSlot_eq_scanned (s := { s with lastNow := now }) le_rfl))

/-- Settles O37: the scan, slot by slot, of the whole pool. -/
theorem tickFreesExactlyTheStaleSlots : Obligations.TickFreesExactlyTheStaleSlots := by
  unfold Obligations.TickFreesExactlyTheStaleSlots
  intro s now hready hnow stale
  have hstale : stale = staleSlot s.cfg.reassTimeout now := funext fun o => by cases o <;> rfl
  rw [exec_tick_admitted hready hnow, hstale]
  exact congrArg Host.Outcome.next (State.scanned_length _ now)

end Sys2Proof.Machine

/-! Reassembly of a whole datagram (spec/45_reassembly_manager.md R245), the other side of the fragmenter (O38). First
what REASSEMBLE makes of a fragment frame and which bytes it carries; then what a slot holds after any of a datagram's
frames; then one frame more, and a whole feed by induction. -/

namespace Sys2Proof.Machine

-- ## The bytes a fragment frame carries (R231)

/-- Where the payload of a fragment frame begins: offset 0 in the first, eight times the offset byte in the others. -/
def fragStart (f : List Byte) : Nat := if (classify f).1 = .fragN then fragOffset (byteAt f 4) else 0

/-- The payload of a fragment frame, after the header of its class. -/
def fragData (f : List Byte) : List Byte := f.drop (classify f).2

/-- The frame carries byte `b` of its datagram. -/
def carries (b : Nat) (f : List Byte) : Bool := decide (fragStart f ≤ b ∧ b < fragStart f + (fragData f).length)

theorem carries_iff {b : Nat} {f : List Byte} :
    carries b f = true ↔ fragStart f ≤ b ∧ b < fragStart f + (fragData f).length := decide_eq_true_iff

/-- A fragment of the datagram `d` under `tag`: a received frame that REASSEMBLE takes as a part of `d`, not empty and
in its place. -/
structure IsFragment (tag : BitVec 16) (d f : List Byte) : Prop where
  receive : ∀ a s, receiveFrame f a s = reassemble a (BitVec.ofNat 11 d.length) tag (fragStart f) (fragData f) s
  payload : fragData f = slice d (fragStart f) (fragStart f + (fragData f).length)
  nonempty : fragData f ≠ []
  within : fragStart f + (fragData f).length ≤ d.length

theorem IsFragment.getElem?_payload {tag : BitVec 16} {d f : List Byte} (h : IsFragment tag d f) {b : Nat}
    (hb : carries b f = true) : (fragData f)[b - fragStart f]? = d[b]? := by
  obtain ⟨hlo, hhi⟩ := carries_iff.1 hb
  rw [h.payload, slice, List.getElem?_take, if_pos (by omega), List.getElem?_drop, Nat.add_sub_cancel' hlo]

-- ## The frames of the fragmenter (R215, R216)

section Header
variable (x : BitVec 2) (size : BitVec 11) (tag : BitVec 16) (payload : List Byte) (a : Arrival) (s : State)

theorem classify_frag1Header : classify (fragHeader frag1Pattern x size tag ++ payload) = (.frag1, frag1HdrLen) := by
  have hcls : classOfByte (frag1Pattern ++ x ++ size.extractLsb' 8 3) = (.frag1, frag1HdrLen) :=
    classOfByte_of_frag1Pattern (fragByte_pattern _ _ _)
  refine (classify_long ?_).trans hcls
  rw [hcls]
  exact Nat.succ_le_succ (Nat.le_add_left 3 payload.length)

theorem classify_fragNHeader (offset8 : Byte) :
    classify (fragHeader fragNPattern x size tag ++ offset8 :: payload) = (.fragN, fragNHdrLen) := by
  have hcls : classOfByte (fragNPattern ++ x ++ size.extractLsb' 8 3) = (.fragN, fragNHdrLen) :=
    classOfByte_of_fragNPattern (fragByte_pattern _ _ _)
  refine (classify_long ?_).trans hcls
  rw [hcls]
  exact Nat.succ_le_succ (Nat.le_add_left 4 payload.length)

/-- The fields of a fragment header are read back (R95, R231). -/
theorem fragOperands_frag1Header :
    fragOperands false (fragHeader frag1Pattern x size tag ++ payload) = (size, tag, 0, payload) :=
  Prod.ext (fragSize_fragByte ..) (Prod.ext (fragTag_bytes tag) rfl)

theorem fragOperands_fragNHeader (offset8 : Byte) :
    fragOperands true (fragHeader fragNPattern x size tag ++ offset8 :: payload) =
      (size, tag, fragOffset offset8, payload) :=
  Prod.ext (fragSize_fragByte ..) (Prod.ext (fragTag_bytes tag) rfl)

theorem receiveFrame_frag1 : receiveFrame (fragHeader frag1Pattern x size tag ++ payload) a s =
    reassemble a size tag 0 payload s := by
  simp only [receiveFrame, classify_frag1Header, reassembleFrame, fragOperands_frag1Header]

theorem receiveFrame_fragN (offset8 : Byte) :
    receiveFrame (fragHeader fragNPattern x size tag ++ offset8 :: payload) a s =
      reassemble a size tag (fragOffset offset8) payload s := by
  simp only [receiveFrame, classify_fragNHeader, reassembleFrame, fragOperands_fragNHeader]

end Header

section Frames
variable {c : Config} {tag : BitVec 16} {d : List Byte}

theorem classify_firstFrame : classify (firstFrame c tag d) = (.frag1, frag1HdrLen) := classify_frag1Header ..

theorem classify_nextFrame (off : Nat) : classify (nextFrame c tag d off) = (.fragN, fragNHdrLen) :=
  classify_fragNHeader ..

theorem fragStart_firstFrame : fragStart (firstFrame c tag d) = 0 := by
  rw [fragStart, classify_firstFrame]
  rfl

theorem fragData_firstFrame : fragData (firstFrame c tag d) = d.take (firstSlice c) := by
  rw [fragData, classify_firstFrame]
  rfl

theorem fragStart_nextFrame {off : Nat} (hmax : d.length ≤ 2047) (h : off < d.length) (hmod : off % 8 = 0) :
    fragStart (nextFrame c tag d off) = off := by
  rw [fragStart, classify_nextFrame]
  exact nextFrame_offsetByte c tag d hmax h hmod

theorem fragData_nextFrame (off : Nat) :
    fragData (nextFrame c tag d off) = slice d off (off + nextSlice c d off) := by
  rw [fragData, classify_nextFrame]
  rfl

theorem length_fragData_nextFrame {off : Nat} (h : off ≤ d.length) :
    (fragData (nextFrame c tag d off)).length = nextSlice c d off := by
  rw [fragData_nextFrame, ← nextFrame_payload c tag d off, length_nextFrame_payload c tag d h]

theorem length_fragData_firstFrame (h : c.linkMtu < d.length) :
    (fragData (firstFrame c tag d)).length = firstSlice c := by
  rw [fragData_firstFrame]
  exact List.length_take_of_le ((firstSlice_le_linkMtu c).trans h.le)

theorem carries_firstFrame (h : c.linkMtu < d.length) {b : Nat} :
    carries b (firstFrame c tag d) = true ↔ b < firstSlice c := by
  rw [carries_iff, fragStart_firstFrame, length_fragData_firstFrame h]
  omega

theorem carries_nextFrame {off : Nat} (hmax : d.length ≤ 2047) (h : off < d.length) (hmod : off % 8 = 0) {b : Nat} :
    carries b (nextFrame c tag d off) = true ↔ off ≤ b ∧ b < off + nextSlice c d off := by
  rw [carries_iff, fragStart_nextFrame hmax h hmod, length_fragData_nextFrame h.le]

theorem isFragment_firstFrame (hc : c.Ok) (h : c.linkMtu < d.length) : IsFragment tag d (firstFrame c tag d) where
  receive a s := by
    rw [fragStart_firstFrame, fragData_firstFrame]
    exact receiveFrame_frag1 ..
  payload := by
    rw [length_fragData_firstFrame h, fragStart_firstFrame, fragData_firstFrame]
    simp [slice]
  nonempty := by
    rw [← List.length_pos_iff_ne_nil, length_fragData_firstFrame h]
    exact firstSlice_pos hc
  within := by
    have := firstSlice_le_linkMtu c
    rw [fragStart_firstFrame, length_fragData_firstFrame h]
    omega

theorem nextSlice_pos (hc : c.Ok) {off : Nat} (h : off < d.length) : 0 < nextSlice c d off := by
  have := middleSlice_pos hc
  unfold nextSlice
  split <;> omega

theorem isFragment_nextFrame (hc : c.Ok) (hmax : d.length ≤ 2047) {off : Nat} (h : off < d.length)
    (hmod : off % 8 = 0) : IsFragment tag d (nextFrame c tag d off) where
  receive a s := by
    have hoff : fragOffset (BitVec.ofNat 8 (off / 8)) = off := nextFrame_offsetByte c tag d hmax h hmod
    rw [fragStart_nextFrame hmax h hmod, fragData_nextFrame]
    exact (receiveFrame_fragN ..).trans (by rw [hoff])
  payload := by rw [length_fragData_nextFrame h.le, fragStart_nextFrame hmax h hmod, fragData_nextFrame]
  nonempty := by
    rw [← List.length_pos_iff_ne_nil, length_fragData_nextFrame h.le]
    exact nextSlice_pos hc h
  within := by
    have := nextSlice_le_remaining c d off
    rw [fragStart_nextFrame hmax h hmod, length_fragData_nextFrame h.le]
    omega

end Frames

-- ## The fragments of a datagram (R219)

namespace LaterFragments
variable {c : Config} {tag : BitVec 16} {d : List Byte} {off : Nat} {fs : List (List Byte)}

theorem isFragment (hc : c.Ok) (hmax : d.length ≤ 2047) (h : LaterFragments c tag d off fs) (hmod : off % 8 = 0) :
    ∀ f ∈ fs, IsFragment tag d f := by
  induction h with
  | last hbytes _ => exact List.forall_mem_singleton.2 (isFragment_nextFrame hc hmax hbytes hmod)
  | @more off _ hroom _ ih =>
    have := middleSlice_mod_eight c
    exact List.forall_mem_cons.2 ⟨isFragment_nextFrame hc hmax (by omega) hmod, ih (by omega)⟩

theorem carries_ge (hmax : d.length ≤ 2047) (h : LaterFragments c tag d off fs) (hmod : off % 8 = 0) {b : Nat} :
    ∀ f ∈ fs, carries b f = true → off ≤ b := by
  induction h with
  | last hbytes _ => exact List.forall_mem_singleton.2 fun hb => ((carries_nextFrame hmax hbytes hmod).1 hb).1
  | @more off _ hroom _ ih =>
    have := middleSlice_mod_eight c
    exact List.forall_mem_cons.2 ⟨fun hb => ((carries_nextFrame hmax (by omega) hmod).1 hb).1, fun f hf hb =>
      (Nat.le_add_right _ _).trans (ih (by omega) f hf hb)⟩

/-- Every byte left is in one of the frames. -/
theorem exists_carries (hmax : d.length ≤ 2047) (h : LaterFragments c tag d off fs) (hmod : off % 8 = 0) {b : Nat}
    (hlo : off ≤ b) (hb : b < d.length) : ∃ f ∈ fs, carries b f = true := by
  induction h with
  | last hbytes hroom =>
    refine ⟨_, List.mem_singleton_self _, (carries_nextFrame hmax hbytes hmod).2 ⟨hlo, ?_⟩⟩
    rw [nextSlice_last hroom]
    omega
  | @more off _ hroom _ ih =>
    have := middleSlice_mod_eight c
    obtain hlt | hge := Nat.lt_or_ge b (off + middleSlice c)
    · refine ⟨_, List.mem_cons_self, (carries_nextFrame hmax (by omega) hmod).2 ⟨hlo, ?_⟩⟩
      rwa [nextSlice_middle hroom]
    · obtain ⟨f, hf, hcarries⟩ := ih (by omega) hge
      exact ⟨f, List.mem_cons_of_mem _ hf, hcarries⟩

/-- And in no other. -/
theorem eq_of_carries (hmax : d.length ≤ 2047) (h : LaterFragments c tag d off fs) (hmod : off % 8 = 0) {b : Nat} :
    ∀ f ∈ fs, ∀ g ∈ fs, carries b f = true → carries b g = true → f = g := by
  induction h with
  | last =>
    intro f hf g hg _ _
    rw [List.mem_singleton.1 hf, List.mem_singleton.1 hg]
  | @more off fs hroom hrest ih =>
    have hmod' : (off + middleSlice c) % 8 = 0 := by
      have := middleSlice_mod_eight c
      omega
    have hhead : carries b (nextFrame c tag d off) = true → ∀ g ∈ fs, carries b g = true → False := by
      intro hb g hg hb'
      have hlt := ((carries_nextFrame hmax (by omega) hmod).1 hb).2
      have hge := hrest.carries_ge hmax hmod' g hg hb'
      rw [nextSlice_middle hroom] at hlt
      omega
    intro f hf g hg hbf hbg
    obtain rfl | hf := List.mem_cons.1 hf <;> obtain rfl | hg := List.mem_cons.1 hg
    · rfl
    · exact (hhead hbf g hg hbg).elim
    · exact (hhead hbg f hf hbf).elim
    · exact ih hmod' f hf g hg hbf hbg

end LaterFragments

section Fragments
variable {c : Config} {tag : BitVec 16} {d : List Byte} (hc : c.Ok) (hlong : c.linkMtu < d.length)
include hc hlong

theorem fragmentFrames_fit : ∀ f ∈ fragmentFrames c tag d, f.length ≤ c.linkMtu := by
  obtain ⟨later, hfs, hlater⟩ := fragmentFrames_eq hc tag hlong
  rw [hfs]
  exact List.forall_mem_cons.2 ⟨firstFrame_fits tag d hc, hlater.fits hc⟩

variable (hmax : d.length ≤ 2047)
include hmax

theorem fragmentFrames_isFragment : ∀ f ∈ fragmentFrames c tag d, IsFragment tag d f := by
  obtain ⟨later, hfs, hlater⟩ := fragmentFrames_eq hc tag hlong
  rw [hfs]
  exact List.forall_mem_cons.2 ⟨isFragment_firstFrame hc hlong, hlater.isFragment hc hmax (firstSlice_mod_eight c)⟩

/-- Every byte of the datagram is carried by one of its fragments. -/
theorem exists_fragment_carries {b : Nat} (hb : b < d.length) : ∃ f ∈ fragmentFrames c tag d, carries b f = true := by
  obtain ⟨later, hfs, hlater⟩ := fragmentFrames_eq hc tag hlong
  rw [hfs]
  obtain hlt | hge := Nat.lt_or_ge b (firstSlice c)
  · exact ⟨_, List.mem_cons_self, (carries_firstFrame hlong).2 hlt⟩
  · obtain ⟨f, hf, hcarries⟩ := hlater.exists_carries hmax (firstSlice_mod_eight c) hge hb
    exact ⟨f, List.mem_cons_of_mem _ hf, hcarries⟩

/-- No two fragments carry the same byte. -/
theorem fragment_eq_of_carries {b : Nat} {f g : List Byte} (hf : f ∈ fragmentFrames c tag d)
    (hg : g ∈ fragmentFrames c tag d) (hbf : carries b f = true) (hbg : carries b g = true) : f = g := by
  obtain ⟨later, hfs, hlater⟩ := fragmentFrames_eq hc tag hlong
  have hmod := firstSlice_mod_eight c
  have hfirst : carries b (firstFrame c tag d) = true → ∀ g ∈ later, carries b g = true → False := fun hb g hg hb' =>
    Nat.not_lt.2 (hlater.carries_ge hmax hmod g hg hb') ((carries_firstFrame hlong).1 hb)
  rw [hfs, List.mem_cons] at hf hg
  obtain rfl | hf := hf <;> obtain rfl | hg := hg
  · rfl
  · exact (hfirst hbf g hg hbg).elim
  · exact (hfirst hbg f hf hbf).elim
  · exact hlater.eq_of_carries hmax hmod f hf g hg hbf hbg

/-- While a fragment is missing, so is a byte. -/
theorem exists_missing_byte {got : List (List Byte)} (hgot : ∀ g ∈ got, g ∈ fragmentFrames c tag d)
    (hmiss : ∃ f ∈ fragmentFrames c tag d, f ∉ got) : ∃ b, b < d.length ∧ got.any (carries b) = false := by
  obtain ⟨f, hf, hnot⟩ := hmiss
  have hfrag := fragmentFrames_isFragment hc hlong hmax f hf
  have hpos : 0 < (fragData f).length := List.length_pos_of_ne_nil hfrag.nonempty
  have hwithin := hfrag.within
  have hbf : carries (fragStart f) f = true := carries_iff.2 ⟨le_rfl, by omega⟩
  refine ⟨fragStart f, by omega, List.any_eq_false.2 fun g hg hbg => hnot ?_⟩
  rwa [fragment_eq_of_carries hc hlong hmax hf (hgot g hg) hbf hbg]

theorem all_bytes_of_all_fragments {got : List (List Byte)} (hall : ∀ f ∈ fragmentFrames c tag d, f ∈ got) {b : Nat}
    (hb : b < d.length) : got.any (carries b) = true := by
  obtain ⟨f, hf, hcarries⟩ := exists_fragment_carries hc hlong hmax hb
  exact List.any_eq_true.2 ⟨f, hall f hf, hcarries⟩

end Fragments

-- ## What the slot holds (R238, R239)

/-- The bytes of `d` that the frames `got` carried, by address. -/
def receivedByte (d : List Byte) (got : List (List Byte)) (b : Nat) : Option Byte :=
  if got.any (carries b) then d[b]? else none

/-- One fragment written over what the frames before it brought. -/
theorem read_writeRun_receivedByte {tag : BitVec 16} {d f : List Byte} {got : List (List Byte)} {m : Memory}
    (hfrag : IsFragment tag d f) (hm : ∀ b, Memory.read m b = receivedByte d got b) (b : Nat) :
    (if fragStart f ≤ b ∧ b < fragStart f + (fragData f).length then (fragData f)[b - fragStart f]?
      else Memory.read m b) = receivedByte d (got ++ [f]) b := by
  by_cases hb : carries b f = true
  · rw [if_pos (carries_iff.1 hb), hfrag.getElem?_payload hb]
    simp [receivedByte, hb]
  · rw [if_neg (mt carries_iff.2 hb), hm]
    simp [receivedByte, hb]

/-- The block `t` that has received the frames `got` of the datagram `d` since it was `s`: the slot of the key holds
their bytes, and nothing has been handed on. -/
structure Gathered (s : State) (src : LLAddr) (tag : BitVec 16) (d : List Byte) (got : List (List Byte)) (t : State) :
    Prop where
  inv : t.Inv
  rest : s.SameRest t
  slot : (got = [] ∧ t.matchSlot src tag = none) ∨
    ∃ k sl, t.matchSlot src tag = some (k, sl) ∧ sl.size = BitVec.ofNat 11 d.length ∧
      ∀ b, Memory.read sl.data b = receivedByte d got b

-- ## What PROCESS_DATAGRAM answers (R266)

section Process
variable {s t : State} (h : s.SameRest t)
include h

theorem State.SameRest.drop (e : Status) : (s.drop e).SameRest (t.drop e) :=
  { h with
    cntDrop := congrArg (· + 1) h.cntDrop
    lastErr := rfl }

theorem State.SameRest.deliver (p : List Byte) : (s.deliver p).SameRest (t.deliver p) :=
  { h with
    out := by rw [State.deliver_out, State.deliver_out, h.out, h.reg] }

/-- PROCESS_DATAGRAM reads and writes only what a stored fragment leaves alone. -/
theorem State.SameRest.processDatagram (dg : List Byte) (src dst : LLAddr) :
    (s.processDatagram dg src dst).SameRest (t.processDatagram dg src dst) := by
  simp only [State.processDatagram, h.cfg, h.ctx]
  split
  case h_1 =>
    simp only [State.deliverUncompressed]
    split
    · exact h.drop _
    · exact h.deliver _
  case h_2 =>
    cases decompress s.cfg s.ctx dg src dst with
    | ok p => exact h.deliver p
    | error e => exact h.drop e
  all_goals exact h.drop _

end Process

-- ## One fragment more (R238 to R240)

section Receive
variable {s t : State} {src dst : LLAddr} {tag : BitVec 16} {d f : List Byte} {got : List (List Byte)} {now : Time}

/-- A fragment more finds a slot that holds what came before it. -/
theorem Gathered.exists_slotFor_received (h : Gathered s src tag d got t) (hnow : t.lastNow ≤ now)
    (hsize : BitVec.ofNat 11 d.length ≠ 0) :
    ∃ u k sl, SlotFor { t with lastNow := now } ⟨src, dst, now⟩ (BitVec.ofNat 11 d.length) tag u k sl ∧
      ∀ b, Memory.read sl.data b = receivedByte d got b := by
  have hsame : ∀ k sl, t.matchSlot src tag = some (k, sl) → sl.size = BitVec.ofNat 11 d.length ∧
      ∀ b, Memory.read sl.data b = receivedByte d got b := fun k sl hm => by
    obtain ⟨-, hnone⟩ | ⟨k', sl', hm', hslot⟩ := h.slot
    · cases hnone.symm.trans hm
    · obtain ⟨rfl, rfl⟩ := Prod.mk.inj (Option.some.inj (hm'.symm.trans hm))
      exact hslot
  obtain ⟨u, k, sl, hfor⟩ := exists_slotFor (a := ⟨src, dst, now⟩) (tag := tag) (h.inv.withNow hnow) le_rfl hsize
    fun k sl hm => (hsame k sl hm).1
  refine ⟨u, k, sl, hfor, ?_⟩
  obtain hm | ⟨hnone, hdata⟩ := hfor.before
  · exact (hsame k sl hm).2
  · obtain ⟨rfl, -⟩ | ⟨k', sl', hm', -⟩ := h.slot
    · rw [hdata]
      exact fun b => rfl
    · cases hm'.symm.trans hnone

variable (h : Gathered s src tag d got t) (hready : s.initDone = true) (hfrag : IsFragment tag d f)
  (hfits : f.length ≤ s.cfg.linkMtu) (hnow : t.lastNow ≤ now) (hmax : d.length ≤ 2047)
include h hready hfrag hfits hnow hmax

/-- RX_FRAME takes a fragment to REASSEMBLE, which stores it. -/
theorem Gathered.exec_fragment :
    ∃ u k sl, SlotFor { t with lastNow := now } ⟨src, dst, now⟩ (BitVec.ofNat 11 d.length) tag u k sl ∧
      (∀ b, Memory.read sl.data b = receivedByte d got b) ∧ sl.size.toNat = d.length ∧ s.SameRest u ∧
      exec (.rxFrame f ⟨src, dst, now⟩) t = .next (u.storeFragment k sl (fragStart f) (fragData f) dst) := by
  have hpos : 0 < (fragData f).length := List.length_pos_of_ne_nil hfrag.nonempty
  have hwithin := hfrag.within
  have hnat : (BitVec.ofNat 11 d.length).toNat = d.length := by
    rw [BitVec.toNat_ofNat]
    omega
  have hsize : BitVec.ofNat 11 d.length ≠ 0 := fun h0 => by
    have hzero : 0 = d.length := (congrArg BitVec.toNat h0).symm.trans hnat
    omega
  obtain ⟨u, k, sl, hfor, hbytes⟩ := h.exists_slotFor_received (dst := dst) hnow hsize
  refine ⟨u, k, sl, hfor, hbytes, by rw [hfor.size_eq, hnat], (h.rest.withNow now).trans hfor.rest, ?_⟩
  rw [exec_rxFrame_admitted ⟨h.rest.initDone.trans hready, h.rest.cfg ▸ hfits, hnow⟩, hfrag.receive]
  exact hfor.stores _ _ (hnat.symm ▸ hwithin)

/-- While a byte is still missing, the fragment is gathered with those before it. -/
theorem Gathered.receive_incomplete (hmiss : ∃ b, b < d.length ∧ (got ++ [f]).any (carries b) = false) :
    ∃ t', exec (.rxFrame f ⟨src, dst, now⟩) t = .next t' ∧ Gathered s src tag d (got ++ [f]) t' ∧ t'.lastNow = now := by
  obtain ⟨b, hb, hnone⟩ := hmiss
  obtain ⟨u, k, sl, hfor, hbytes, hsize, hrest, he⟩ := h.exec_fragment (dst := dst) hready hfrag hfits hnow hmax
  obtain ⟨hgot, hlast⟩ : got.any (carries b) = false ∧ carries b f = false := by simpa using hnone
  have hout : ¬(fragStart f ≤ b ∧ b < fragStart f + (fragData f).length) := of_decide_eq_false hlast
  have hempty : Memory.read sl.data b = none := by rw [hbytes, receivedByte, if_neg (Bool.eq_false_iff.1 hgot)]
  have hfit : fragStart f + (fragData f).length ≤ (BitVec.ofNat 11 d.length).toNat := by
    rw [← hfor.size_eq, hsize]
    exact hfrag.within
  have hinv := hfor.storeFragment_inv hfit dst
  rw [State.storeFragment_incomplete ⟨b, hsize.symm ▸ hb, hout, hempty⟩] at he hinv
  refine ⟨_, he, ⟨hinv, hrest.putSlot k _, .inr ⟨k, _, hfor.matchSlot_putSlot _, hfor.size_eq, fun b => ?_⟩⟩, hfor.now⟩
  rw [Memory.read_writeRun]
  exact read_writeRun_receivedByte hfrag hbytes b

/-- With the last missing byte the whole datagram is processed and its slot freed. -/
theorem Gathered.receive_complete (hall : ∀ b, b < d.length → (got ++ [f]).any (carries b) = true) :
    ∃ t', exec (.rxFrame f ⟨src, dst, now⟩) t = .next t' ∧ (s.processDatagram d src dst).SameRest t' ∧
      t'.matchSlot src tag = none := by
  obtain ⟨u, k, sl, hfor, hbytes, hsize, hrest, he⟩ := h.exec_fragment (dst := dst) hready hfrag hfits hnow hmax
  have hread : ∀ b, b < d.length → receivedByte d (got ++ [f]) b = d[b]? := fun b hb => if_pos (hall b hb)
  obtain ⟨dg, hlen, hdg, hdone⟩ := State.storeFragment_complete (s := u) (k := k) (sl := sl) (dstLl := dst)
    (off := fragStart f) (data := fragData f) fun b hb => by
      rw [hsize] at hb
      by_contra hno
      obtain ⟨hout, hnone⟩ := not_or.1 hno
      have hbyte := (read_writeRun_receivedByte hfrag hbytes b).trans (hread b hb)
      rw [if_neg hout, not_not.1 hnone] at hbyte
      have := List.getElem?_eq_none_iff.1 hbyte.symm
      omega
  have hd : dg = d := by
    refine List.ext_getElem? fun b => ?_
    obtain hb | hb := Nat.lt_or_ge b d.length
    · rw [hdg b (hsize.symm ▸ hb), read_writeRun_receivedByte hfrag hbytes b, hread b hb]
    · rw [List.getElem?_eq_none hb, List.getElem?_eq_none (by omega)]
  rw [hdone, hd, hfor.key_src] at he
  refine ⟨_, he, (hrest.freeSlot k).processDatagram d src dst, ?_⟩
  rw [State.matchSlot_processDatagram]
  exact hfor.matchSlot_freeSlot

end Receive

-- ## A feed of fragments (R245)

theorem State.feed_append (src dst : LLAddr) (xs ys : List (List Byte × Time)) {s t : State}
    (h : State.feed src dst xs s = .next t) : State.feed src dst (xs ++ ys) s = State.feed src dst ys t := by
  induction xs generalizing s with
  | nil => cases h; rfl
  | cons x xs ih =>
    obtain ⟨f, now⟩ := x
    rw [List.cons_append, State.feed]
    rw [State.feed] at h
    cases he : exec (.rxFrame f ⟨src, dst, now⟩) s with
    | next u => exact ih (by simpa only [he] using h)
    | fault r => simp only [he] at h; cases h
    | refused r => simp only [he] at h; cases h

section Feed
variable {s : State} {c : Config} {src dst : LLAddr} {tag : BitVec 16} {d : List Byte} (hready : s.initDone = true)
  (hc : c.Ok) (hmtu : c.linkMtu ≤ s.cfg.linkMtu) (hlong : c.linkMtu < d.length) (hmax : d.length ≤ 2047)
include hready hc hmtu hlong hmax

/-- While a fragment is missing, a feed gathers its frames one by one. -/
theorem Gathered.feed {fs : List (List Byte × Time)} {got : List (List Byte)} {t : State}
    (h : Gathered s src tag d got t) (hsent : ∀ f ∈ got ++ fs.map Prod.fst, f ∈ fragmentFrames c tag d)
    (hmiss : ∃ f ∈ fragmentFrames c tag d, f ∉ got ++ fs.map Prod.fst)
    (hsorted : (fs.map Prod.snd).Pairwise (· ≤ ·)) (htimes : ∀ x ∈ fs, t.lastNow ≤ x.2) :
    ∃ t', State.feed src dst fs t = .next t' ∧ Gathered s src tag d (got ++ fs.map Prod.fst) t' ∧
      ∀ now, t.lastNow ≤ now → (∀ x ∈ fs, x.2 ≤ now) → t'.lastNow ≤ now := by
  induction fs generalizing got t with
  | nil => exact ⟨t, rfl, by simpa using h, fun _ hnow _ => hnow⟩
  | cons x fs ih =>
    obtain ⟨f, now⟩ := x
    have hassoc : got ++ ((f, now) :: fs).map Prod.fst = (got ++ [f]) ++ fs.map Prod.fst := by simp
    rw [hassoc] at hsent hmiss ⊢
    obtain ⟨hfirst, hsorted⟩ := List.pairwise_cons.1 hsorted
    obtain ⟨g, hg, hnot⟩ := hmiss
    have hf : f ∈ fragmentFrames c tag d := hsent f (by simp)
    obtain ⟨u, he, hu, hnow⟩ := h.receive_incomplete (dst := dst) hready (fragmentFrames_isFragment hc hlong hmax f hf)
      ((fragmentFrames_fit hc hlong f hf).trans hmtu) (htimes _ List.mem_cons_self) hmax
      (exists_missing_byte hc hlong hmax (fun g hg => hsent g (List.mem_append_left _ hg))
        ⟨g, hg, fun hmem => hnot (List.mem_append_left _ hmem)⟩)
    obtain ⟨t', hfeed, ht', hlast⟩ := ih hu hsent ⟨g, hg, hnot⟩ hsorted fun x hx =>
      hnow.le.trans (hfirst x.2 (List.mem_map_of_mem hx))
    refine ⟨t', by rw [State.feed, he]; exact hfeed, ht', fun later _ hle => hlast later ?_ fun x hx => ?_⟩
    · exact hnow.le.trans (hle _ List.mem_cons_self)
    · exact hle x (List.mem_cons_of_mem _ hx)

end Feed

/-- Settles O38: while a fragment is missing the feed only gathers; where the last frame is the missing one, the feed
before it gathers all the others, and it completes the datagram. -/
theorem reassemblyInAnyOrderYieldsTheDatagram : Obligations.ReassemblyInAnyOrderYieldsTheDatagram := by
  unfold Obligations.ReassemblyInAnyOrderYieldsTheDatagram
  intro s c src dst tag d fs hinv hready hc hmtu hlong hmax hnew hsent hsorted htimes
  have hstart : Gathered s src tag d [] s := ⟨hinv, .refl s, .inl ⟨rfl, (s.matchSlot_none src tag).2 hnew⟩⟩
  have hsent' : ∀ f ∈ fs.map Prod.fst, f ∈ fragmentFrames c tag d := List.forall_mem_map.2 hsent
  refine ⟨fun hmiss => ?missing, fun before last hfs hall hlast => ?complete⟩
  case missing =>
    obtain ⟨t, hfeed, ht, -⟩ := hstart.feed (dst := dst) hready hc hmtu hlong hmax hsent' hmiss hsorted htimes
    exact ⟨t, hfeed, ht.rest.out, ht.rest.cntDrop, ht.rest.lastErr⟩
  case complete =>
    subst hfs
    obtain ⟨f, now⟩ := last
    have hf : f ∈ fragmentFrames c tag d := hsent (f, now) (by simp)
    rw [List.map_append] at hsorted hsent' hall
    obtain ⟨hsorted, -, hle⟩ := List.pairwise_append.1 hsorted
    obtain ⟨t, hfeed, ht, hnow⟩ := hstart.feed (dst := dst) hready hc hmtu hlong hmax
      (fun g hg => hsent' g (List.mem_append_left _ hg)) ⟨f, hf, hlast⟩ hsorted fun x hx =>
        htimes x (List.mem_append_left _ hx)
    have hnow : t.lastNow ≤ now := hnow now (htimes (f, now) (by simp)) fun x hx =>
      hle x.2 (List.mem_map_of_mem hx) now (by simp)
    obtain ⟨t', he, hrest, hfree⟩ := ht.receive_complete (dst := dst) hready
      (fragmentFrames_isFragment hc hlong hmax f hf) ((fragmentFrames_fit hc hlong f hf).trans hmtu) hnow hmax
      fun b => all_bytes_of_all_fragments hc hlong hmax hall
    refine ⟨t', ?_, hrest.out, hrest.cntDrop, hrest.lastErr, hfree⟩
    rw [State.feed_append src dst before _ hfeed, State.feed, he]
    rfl

end Sys2Proof.Machine

/-! The send path of the host operations (spec/46_host_ops_and_registry.md R263, R264). First one equation per emit step
and answer of the block (O14); then the run of a fragmented SEND along the sequence of its frames (O15); then the start
of a SEND (O12), the queue behind it (O13), and what the whole path leaves alone (O19). -/

namespace Sys2Proof.Machine

-- ## The emit step and its answer as steps of the block (R264)

section Emit
variable {s : State} {f : InFlight} {rest : List Event} {frame : List Byte} {n : Nat} (hq : s.txq = .busy f)
include hq

theorem step_answer_fail (ha : f.awaiting = true) (hin : s.inputs = .answer false :: rest) :
    step s = .next { s with inputs := rest, txq := .idle, out := s.out ++ [.ret 0x03 .transceiver .none] } :=
  (step_answer s false rest hin).trans (txAnswer_fail (s := { s with inputs := rest }) hq ha)

variable (hsend : sendFrame s.cfg f = (frame, n))
include hsend

theorem step_handOver (ha : f.awaiting = false) (hin : s.inputs = .tx :: rest) :
    step s = .next { s with
      inputs := rest, txq := .busy { f with awaiting := true }, out := s.out ++ [.txf f.destLl frame] } := by
  rw [step_tx s rest hin, txStep_handOver (s := { s with inputs := rest }) hq ha, hsend]
  rfl

variable (ha : f.awaiting = true) (hin : s.inputs = .answer true :: rest)
include ha hin

theorem step_answer_last (hend : f.nextOff + n = f.datagram.length) :
    step s = .next { s with inputs := rest, txq := .idle, out := s.out ++ [.ret 0x03 .ok .none] } :=
  (step_answer s true rest hin).trans (txAnswer_last (s := { s with inputs := rest }) hq ha (by rwa [hsend]))

theorem step_answer_more (hmore : f.nextOff + n ≠ f.datagram.length) :
    step s = .next { s with
      inputs := rest, txq := .busy { f with nextOff := f.nextOff + n, awaiting := false } } := by
  rw [step_answer s true rest hin, txAnswer_more (s := { s with inputs := rest }) hq ha (by rwa [hsend]), hsend]

end Emit

-- ## The frame handed over, byte by byte (R211, R215, R216)

/-- The header bytes as parts of the two numbers in them: the pattern stands in the top three bits of the first byte,
above the five bits of the size that a length up to 2047 leaves there. -/
theorem fragHeader_bytes (k : BitVec 3) (tag : BitVec 16) {n : Nat} (h : n ≤ 2047) :
    fragHeader k 0 (BitVec.ofNat 11 n) tag =
      [BitVec.ofNat 8 (k.toNat * 32 + n / 256), BitVec.ofNat 8 (n % 256),
       BitVec.ofNat 8 (tag.toNat / 256), BitVec.ofNat 8 (tag.toNat % 256)] := by
  have hsize : (BitVec.ofNat 11 n).toNat = n := by rw [BitVec.toNat_ofNat]; omega
  have hlow {w : Nat} (x : BitVec w) : x.extractLsb' 0 8 = BitVec.ofNat 8 (x.toNat % 256) :=
    BitVec.eq_of_toNat_eq (by simp)
  have htag : tag.extractLsb' 8 8 = BitVec.ofNat 8 (tag.toNat / 256) :=
    BitVec.eq_of_toNat_eq (by simp [Nat.shiftRight_eq_div_pow])
  have hfirst :
      k ++ (0 : BitVec 2) ++ (BitVec.ofNat 11 n).extractLsb' 8 3 = BitVec.ofNat 8 (k.toNat * 32 + n / 256) := by
    have hk := k.isLt
    refine BitVec.eq_of_toNat_eq ?_
    rw [BitVec.toNat_append, BitVec.toNat_append, BitVec.extractLsb'_toNat, hsize, Nat.shiftRight_eq_div_pow,
      BitVec.toNat_ofNat, ← Nat.shiftLeft_add_eq_or_of_lt (by omega), ← Nat.shiftLeft_add_eq_or_of_lt (by simp)]
    have hzero : (0 : BitVec 2).toNat = 0 := rfl
    simp only [Nat.shiftLeft_eq, hzero]
    omega
  rw [fragHeader, hfirst, hlow, hsize, htag, hlow]

/-- Settles O14: the next frame and its slice are those of R215 and R216, and each input has its step. -/
theorem emitStepSendsTheNextFrame : Obligations.EmitStepSendsTheNextFrame := by
  unfold Obligations.EmitStepSendsTheNextFrame
  intro s f rest hq hmax L p1 pn r n hdr frame
  have hsend : sendFrame s.cfg f = (frame, n) := by
    simp only [frame, n, sendFrame]
    split
    · rfl
    · split
      · rw [firstFrame, fragHeader_bytes _ _ hmax]; rfl
      · rw [nextFrame, fragHeader_bytes _ _ hmax, slice, Nat.add_sub_cancel_left, List.append_assoc]; rfl
  exact ⟨step_handOver hq hsend, step_answer_fail hq, step_answer_last hq hsend, step_answer_more hq hsend⟩

-- ## A SEND whose frames are all accepted (R217, R264)

/-- The inputs that hand over and accept `n` frames. -/
def acceptedFrames (n : Nat) : List Event := (List.replicate n [Event.tx, Event.answer true]).flatten

theorem acceptedFrames_succ (n : Nat) (rest : List Event) :
    acceptedFrames (n + 1) ++ rest = .tx :: .answer true :: (acceptedFrames n ++ rest) := by
  simp [acceptedFrames, List.replicate_succ]

/-- A run takes the step's state on. -/
theorem run_of_step {s s' : State} (h : step s = .next s') (n : Nat) :
    Host.Core.run core (n + 1) s = Host.Core.run core n s' := by
  have hcore : core.step s = .next s' := h
  simp only [Host.Core.run, hcore]

section Accepted
variable {s : State} {f : InFlight} {rest : List Event} {frame : List Byte} {len : Nat} (hq : s.txq = .busy f)
  (ha : f.awaiting = false) (hin : s.inputs = .tx :: .answer true :: rest) (hsend : sendFrame s.cfg f = (frame, len))
include hq ha hin hsend

theorem run_acceptedLast (hend : f.nextOff + len = f.datagram.length) (n : Nat) :
    Host.Core.run core (n + 2) s = Host.Core.run core n { s with
      inputs := rest, txq := .idle, out := s.out ++ [.txf f.destLl frame] ++ [.ret 0x03 .ok .none] } := by
  refine (run_of_step (step_handOver hq hsend ha hin) (n + 1)).trans (run_of_step ?_ n)
  exact step_answer_last (f := { f with awaiting := true }) rfl hsend rfl rfl hend

theorem run_acceptedMore (hmore : f.nextOff + len ≠ f.datagram.length) (n : Nat) :
    Host.Core.run core (n + 2) s = Host.Core.run core n { s with
      inputs := rest, txq := .busy { f with nextOff := f.nextOff + len, awaiting := false }
      out := s.out ++ [.txf f.destLl frame] } := by
  refine (run_of_step (step_handOver hq hsend ha hin) (n + 1)).trans (run_of_step ?_ n)
  exact step_answer_more (f := { f with awaiting := true }) rfl hsend rfl rfl hmore

end Accepted

theorem sendFrame_next (c : Config) (dest : LLAddr) (d : List Byte) (tag : BitVec 16) {off : Nat} (h : 0 < off) :
    sendFrame c ⟨dest, d, tag, off, true, false⟩ = (nextFrame c tag d off, nextSlice c d off) := if_neg h.ne'

/-- From a cursor behind the first frame on, the frames left are handed over in order. -/
theorem LaterFragments.run_accepted {c : Config} {s : State} {dest : LLAddr} {d : List Byte} {tag : BitVec 16}
    {off : Nat} {fs : List (List Byte)} {rest : List Event} (h : LaterFragments c tag d off fs) (hc : s.cfg = c)
    (hoff : 0 < off) (hq : s.txq = .busy ⟨dest, d, tag, off, true, false⟩)
    (hin : s.inputs = acceptedFrames fs.length ++ rest) :
    Host.Core.run core (2 * fs.length) s = .next { s with
      inputs := rest, txq := .idle, out := s.out ++ fs.map (Output.txf dest) ++ [.ret 0x03 .ok .none] } := by
  induction h generalizing s with
  | @last off hbytes hroom =>
    subst hc
    have hsend := sendFrame_next s.cfg dest d tag hoff
    rw [nextSlice_last hroom] at hsend
    exact run_acceptedLast hq rfl (hin.trans (acceptedFrames_succ 0 rest)) hsend (Nat.add_sub_cancel' hbytes.le) 0
  | @more off fs hroom hrest ih =>
    subst hc
    have hsend := sendFrame_next s.cfg dest d tag hoff
    rw [nextSlice_middle hroom] at hsend
    refine (run_acceptedMore hq rfl (hin.trans (acceptedFrames_succ fs.length rest)) hsend hrest.off_lt.ne
      (2 * fs.length)).trans (Eq.trans (ih rfl (Nat.add_pos_left hoff _) rfl rfl) ?_)
    simp

/-- Settles O15: the first frame, then the sequence of the others, which ends where the datagram does. -/
theorem acceptedSendEmitsEveryFragment : Obligations.AcceptedSendEmitsEveryFragment := by
  unfold Obligations.AcceptedSendEmitsEveryFragment
  intro s dest d tag rest hc hlong _ hq hin
  obtain ⟨later, hframes, hlater⟩ := fragmentFrames_eq hc tag hlong
  have hmore : 0 + firstSlice s.cfg ≠ d.length := by
    rw [Nat.zero_add]
    exact hlater.off_lt.ne
  rw [hframes] at hin ⊢
  refine (run_acceptedMore hq rfl (hin.trans (acceptedFrames_succ later.length rest)) rfl hmore
    (2 * later.length)).trans (Eq.trans (hlater.run_accepted (dest := dest) rfl (firstSlice_pos hc) ?_ rfl) ?_)
  · rw [Nat.zero_add]
  · simp

-- ## SEND (R263, R327)

section Send
variable {s : State} {dest : LLAddr} {p : List Byte}

theorem exec_send_notInit (hi : s.initDone = false) : exec (.send dest p) s = .next (s.ret 0x03 .notInit) :=
  if_pos (by rw [hi]; rfl)

theorem exec_send_init (hi : s.initDone = true) :
    exec (.send dest p) s =
      if s.txq = .idle ∧ s.sendWait = [] then .next (s.startSend dest p)
      else .next { s with sendWait := s.sendWait ++ [(dest, p)] } :=
  if_neg (by rw [hi]; decide)

theorem exec_send_starts (hi : s.initDone = true) (hq : s.txq = .idle) (hw : s.sendWait = []) :
    exec (.send dest p) s = .next (s.startSend dest p) :=
  (exec_send_init hi).trans (if_pos ⟨hq, hw⟩)

theorem exec_send_waits (hi : s.initDone = true) (h : s.txq ≠ .idle ∨ s.sendWait ≠ []) :
    exec (.send dest p) s = .next { s with sendWait := s.sendWait ++ [(dest, p)] } :=
  (exec_send_init hi).trans (if_neg (not_and_or.2 h))

/-- The start step neither reads nor writes the queue of those that wait. -/
theorem State.startSend_withSendWait (s : State) (dest : LLAddr) (p : List Byte) (w : List (LLAddr × List Byte)) :
    ({ s with sendWait := w } : State).startSend dest p = { s.startSend dest p with sendWait := w } := by
  simp only [State.startSend, apply_ite (fun t : State => ({ t with sendWait := w } : State))]
  rfl

theorem step_startsWaiting {w : List (LLAddr × List Byte)} {rest : List Event} (hq : s.txq = .idle)
    (hw : s.sendWait = (dest, p) :: w) (hin : s.inputs = .tx :: rest) :
    step s = .next (({ s with inputs := rest, sendWait := w } : State).startSend dest p) := by
  rw [step_tx s rest hin]
  simp only [txStep, hq, hw]

end Send

/-- Settles O12: the start step decides by the length of the datagram. -/
theorem sendStartsTheDatagram : Obligations.SendStartsTheDatagram := by
  unfold Obligations.SendStartsTheDatagram
  intro s dest p hi hq hw d
  rw [exec_send_starts hi hq hw]
  obtain ⟨(hfits : d.length ≤ s.cfg.linkMtu), he⟩ |
    ⟨(hlong : s.cfg.linkMtu < d.length), (hover : 2047 < d.length), he⟩ |
    ⟨(hlong : s.cfg.linkMtu < d.length), (hmax : d.length ≤ 2047), he⟩ := s.startSend_cases dest p
  · rw [he, if_pos hfits]; rfl
  · rw [he, if_neg (Nat.not_le.2 hlong), if_pos hover]; rfl
  · rw [he, if_neg (Nat.not_le.2 hlong), if_neg (Nat.not_lt.2 hmax)]; rfl

/-- Settles O13: the transmit side's start step is the one of a SEND issued then, whatever waits behind it. -/
theorem secondSendWaitsForIdle : Obligations.SecondSendWaitsForIdle := by
  unfold Obligations.SecondSendWaitsForIdle
  refine ⟨fun s dest p hi hwait => exec_send_waits hi hwait, fun s t dest p w rest hi hq hw hin he => ?_⟩
  rw [exec_send_starts (s := { s with inputs := rest, sendWait := [] }) hi hq rfl] at he
  cases he
  rw [step_startsWaiting hq hw hin, ← State.startSend_withSendWait]

-- ## What the send path leaves alone (R264, R302)

/-- Only the send side differs: the tag counter, TXQ, the waiting SENDs, the inputs left and the outputs. -/
def State.SendSideOnly (s s' : State) : Prop :=
  s' = { s with
    tagCtr := s'.tagCtr, txq := s'.txq, sendWait := s'.sendWait, inputs := s'.inputs, out := s'.out }

theorem State.startSend_sendSideOnly (s : State) (dest : LLAddr) (p : List Byte) :
    s.SendSideOnly (s.startSend dest p) := by
  obtain ⟨-, he⟩ | ⟨-, -, he⟩ | ⟨-, -, he⟩ := s.startSend_cases dest p <;> rw [he] <;> rfl

theorem exec_send_sendSideOnly {s s' : State} {dest : LLAddr} {p : List Byte} (h : exec (.send dest p) s = .next s') :
    s.SendSideOnly s' := by
  cases hi : s.initDone with
  | false =>
    cases h.symm.trans (exec_send_notInit hi)
    rfl
  | true =>
    rw [exec_send_init hi] at h
    split at h <;> cases h
    · exact s.startSend_sendSideOnly dest p
    · rfl

theorem txStep_sendSideOnly {s s' : State} (h : txStep s = .next s') : s.SendSideOnly s' := by
  obtain ⟨f, -, -, he⟩ | ⟨f, -, -, he⟩ | ⟨-, -, he⟩ | ⟨dest, p, rest, -, -, he⟩ := txStep_cases s <;>
    cases h.symm.trans he
  · rfl
  · rfl
  · rfl
  · exact State.startSend_sendSideOnly { s with sendWait := rest } dest p

theorem txAnswer_sendSideOnly {s s' : State} {ok : Bool} (h : txAnswer ok s = .next s') : s.SendSideOnly s' := by
  obtain ⟨f, -, -, ⟨-, rfl⟩ | ⟨-, -, rfl⟩ | ⟨-, -, rfl⟩⟩ := txAnswer_next ok s s' h <;> rfl

/-- Settles O19: SEND, the transmit step and the answer write the send side only. -/
theorem sendPathLeavesReceiveState : Obligations.SendPathLeavesReceiveState := by
  unfold Obligations.SendPathLeavesReceiveState
  intro s s' h
  have hside : s.SendSideOnly s' := by
    obtain ⟨dest, p, he⟩ | ⟨rest, hin | ⟨ok, hin⟩, he⟩ := h
    · exact exec_send_sendSideOnly he
    · rw [step_tx s rest hin] at he
      exact txStep_sendSideOnly (s := { s with inputs := rest }) he
    · rw [step_answer s ok rest hin] at he
      exact txAnswer_sendSideOnly (s := { s with inputs := rest }) he
  rw [hside]
  exact ⟨rfl, rfl, rfl, rfl, rfl, rfl, rfl, rfl, rfl, rfl, rfl, rfl, rfl, rfl, rfl⟩

end Sys2Proof.Machine

/-! The other host operations and the registry (spec/46_host_ops_and_registry.md R260 to R262, R267 to R272): one
equation per operation and outcome, then the statements from them (O1 to O8). -/

namespace Sys2Proof.Machine

-- ## INIT and INIT_ROUTER (R260, R261, R270)

section Init
variable {s : State} {ll : LLAddr} {br : Bool} {pfx : BitVec 128} {len : Byte}

theorem exec_init_uninit (hi : s.initDone = false) : exec (.init ll br) s = .next ((s.setup ll br).ret 0x01 .ok) :=
  if_neg (by rw [hi]; decide)

theorem exec_init_again (hi : s.initDone = true) : exec (.init ll br) s = .refused .reInit := if_pos hi

theorem exec_initRouter_uninit (hi : s.initDone = false) :
    exec (.initRouter pfx len ll) s =
      if badLen len then .next (s.ret 0x02 .badArg)
      else .next (({ s.setup ll true with
        ctx := (Vector.replicate 16 none).set 0 (some ⟨pfx, len⟩) } : State).ret 0x02 .ok) :=
  if_neg (by rw [hi]; decide)

theorem exec_initRouter_again (hi : s.initDone = true) : exec (.initRouter pfx len ll) s = .refused .reInit := if_pos hi

end Init

/-- Settles O1: the elements INIT sets up are those of R260. -/
theorem initSetsUpTheBlock : Obligations.InitSetsUpTheBlock := fun _ _ _ hi => exec_init_uninit hi

/-- Settles O2: the length test of INIT_ROUTER decides between E_BAD_ARG and the set-up with context 0. -/
theorem initRouterSeedsContextZero : Obligations.InitRouterSeedsContextZero := by
  unfold Obligations.InitRouterSeedsContextZero
  intro s pfx len ll hi
  rw [exec_initRouter_uninit hi]
  exact ⟨fun hlen => if_neg (by simpa [badLen] using hlen), fun hlen => if_pos (decide_eq_true hlen)⟩

/-- Settles O3: both test INIT_DONE first. -/
theorem reinitialisationIsRefused : Obligations.ReinitialisationIsRefused := fun _ _ _ _ _ hi =>
  ⟨exec_init_again hi, exec_initRouter_again hi⟩

-- ## SET_HC, REGISTER, READ_STATUS (R262, R267, R272)

section Operations
variable {s : State} {e : Bool} {h : Handle}

theorem exec_setHc_notInit (hi : s.initDone = false) : exec (.setHc e) s = .next (s.ret 0x04 .notInit) :=
  if_pos (by rw [hi]; rfl)

theorem exec_setHc_ok (hi : s.initDone = true) :
    exec (.setHc e) s = .next (({ s with hcEn := e } : State).ret 0x04 .ok) :=
  if_neg (by rw [hi]; decide)

theorem exec_readStatus_notInit (hi : s.initDone = false) : exec .readStatus s = .next (s.ret 0x09 .notInit) :=
  if_pos (by rw [hi]; rfl)

theorem exec_readStatus_ok (hi : s.initDone = true) :
    exec .readStatus s = .next (s.ret 0x09 .ok (.record s.statusRecord)) :=
  if_neg (by rw [hi]; decide)

theorem exec_register_notInit (hi : s.initDone = false) : exec (.register h) s = .next (s.ret 0x05 .notInit) :=
  if_pos (by rw [hi]; rfl)

theorem exec_register_error {st : Status} (hi : s.initDone = true) (hr : registerIn h s.reg = .error st) :
    exec (.register h) s = .next (s.ret 0x05 st) := by
  simp only [exec, execRegister, hi, hr, Bool.not_true, Bool.false_eq_true, if_false]

theorem exec_register_ok {r : List (Option Handle)} (hi : s.initDone = true) (hr : registerIn h s.reg = .ok r) :
    exec (.register h) s = .next (({ s with reg := r } : State).ret 0x05 .ok) := by
  simp only [exec, execRegister, hi, hr, Bool.not_true, Bool.false_eq_true, if_false]

theorem exec_tick_uninit {now : Time} (hi : s.initDone = false) : exec (.tick now) s = .next s :=
  if_pos (by rw [hi]; rfl)

end Operations

/-- Settles O4: every operation but the two that initialise tests INIT_DONE first. -/
theorem beforeInitNothingActs : Obligations.BeforeInitNothingActs := fun _ hi =>
  ⟨fun _ _ => exec_send_notInit hi, fun _ => exec_setHc_notInit hi, fun _ => exec_register_notInit hi,
    fun _ => exec_ctxLookup_notInit hi, fun _ _ _ => exec_ctxInsert_notInit hi, fun _ => exec_ctxRemove_notInit hi,
    exec_readStatus_notInit hi, fun _ _ => withFrame_uninit hi, fun _ => exec_tick_uninit hi⟩

/-- Settles O5: either branch writes one field at most beside the output. -/
theorem setHcWritesHcEn : Obligations.SetHcWritesHcEn := fun _ _ => ⟨exec_setHc_notInit, exec_setHc_ok⟩

/-- The valid entries counted are the consumers listed (R267, R274). -/
theorem regCount_eq_length_filterMap {H : Type} (r : List (Option H)) : regCount r = (r.filterMap id).length := by
  rw [regCount, List.length_filterMap_eq_countP]
  rfl

/-- Settles O6: the record's counts are those of the context table and of the registry. -/
theorem readStatusReturnsTheRecord : Obligations.ReadStatusReturnsTheRecord := by
  unfold Obligations.ReadStatusReturnsTheRecord
  refine fun s => ⟨exec_readStatus_notInit, fun hi => ?_⟩
  have hbusy : (s.txq != .idle) = decide (s.txq ≠ .idle) := by
    rw [Bool.eq_iff_iff, bne_iff_ne, decide_eq_true_iff]
  rw [exec_readStatus_ok hi, State.statusRecord, ctxCount_eq_length_filter, regCount_eq_length_filterMap, hbusy]
  rfl

/-- Settles O7: no operation has such a code, and BAD_OP tests nothing. -/
theorem unknownOperationIsBadOp : Obligations.UnknownOperationIsBadOp := by
  unfold Obligations.UnknownOperationIsBadOp
  intro s code g hcode
  have hop : code.isOpCode = false := decide_eq_false (by omega)
  exact ⟨congrArg Except.ok (decodeOp_badOp hop g), rfl⟩

-- ## The registry (R272)

section Registry
variable {H : Type} [DecidableEq H] {h : H} {r : List (Option H)}

theorem registerIn_dup (hm : some h ∈ r) : registerIn h r = .error .regDup := if_pos hm

theorem registerIn_full (hm : some h ∉ r) (hfull : none ∉ r) : registerIn h r = .error .regFull := by
  rw [registerIn, if_neg hm, (findFreeReg_none r 0).2 hfull]

/-- The entry that the search finds is the one below which every entry is valid. -/
theorem registerIn_lowest {j : Nat} (hm : some h ∉ r) (hj : r[j]? = some none) (hlow : ∀ k, k < j → r[k]? ≠ some none) :
    registerIn h r = .ok (r.set j (some h)) := by
  obtain ⟨hdup, -⟩ | ⟨-, hfull, -⟩ | ⟨-, i, hi, hlow', he⟩ := registerIn_cases h r
  · exact absurd hdup hm
  · exact absurd (List.mem_of_getElem? hj) hfull
  · obtain hlt | rfl | hgt := Nat.lt_trichotomy i j
    · exact absurd hi (hlow i hlt)
    · exact he
    · exact absurd hj (hlow' j hgt)

end Registry

/-- Settles O8, by the three answers of a registration. -/
theorem registerTakesTheLowestEntry : Obligations.RegisterTakesTheLowestEntry := fun _ _ =>
  ⟨exec_register_notInit, fun hi hm => exec_register_error hi (registerIn_dup hm),
    fun hi hm hfull => exec_register_error hi (registerIn_full hm hfull),
    fun _ hi hm hj hlow => exec_register_ok hi (registerIn_lowest hm hj hlow)⟩

end Sys2Proof.Machine

/-! RX_FRAME and the dispatch classes as instructions (spec/46_host_ops_and_registry.md R265, R266): the classes of
whole frames (O23, O24), RX_FRAME as the instruction of its class (O21), the inputs outside the contract (O26), and the
receive path without HC_EN (O60). -/

namespace Sys2Proof.Machine

-- ## Whole frames (R131, R132, R266)

/-- DECOMPRESS of a frame written from its base fields reads them back (R96, R97, R181). -/
theorem decompress_iphcBytes (c : Config) (t : CtxTable) (base : IphcBase) (rest : List Byte) (srcLl dstLl : LLAddr) :
    decompress c t (iphcByte1 base :: iphcByte2 base :: rest) srcLl dstLl =
      decompressBody c t srcLl dstLl base rest :=
  (decompress_of_le c t (b := iphcByte1 base :: iphcByte2 base :: rest) srcLl dstLl (Nat.le_add_left 2 _)).trans
    (congrArg (decompressBody c t srcLl dstLl · rest) (iphcBaseOf_iphcByte base))

/-- Settles O23: an admitted packet is delivered where it has a whole header. -/
theorem uncompressedPacketIsDelivered : Obligations.UncompressedPacketIsDelivered := by
  unfold Obligations.UncompressedPacketIsDelivered
  intro s a p hadm
  have he : exec (.ipv6Uncomp a p) s = .next (({ s with lastNow := a.now } : State).deliverUncompressed p) :=
    withFrame_admitted a (1 + p.length) _ s hadm.ready hadm.fits hadm.time
  rw [he, State.deliverUncompressed_eq]
  split <;> rfl

/-- Settles O24: the answer of DECOMPRESS on the frame's bytes is the one on its operands. -/
theorem iphcFrameIsDecompressed : Obligations.IphcFrameIsDecompressed := by
  unfold Obligations.IphcFrameIsDecompressed
  intro s a base rest hadm
  have he : exec (.iphc a base rest) s = .next (({ s with lastNow := a.now } : State).deliverOrDrop
      (decompressBody s.cfg s.ctx a.srcLl a.dstLl base rest)) :=
    withFrame_admitted a (2 + rest.length) _ s hadm.ready hadm.fits hadm.time
  rw [he, decompress_iphcBytes]
  cases decompressBody s.cfg s.ctx a.srcLl a.dstLl base rest with
  | ok p => rfl
  | error e => rfl

-- ## RX_FRAME as the instruction of its class (R130, R265)

section Classes
variable (a : Arrival) (s : State)

theorem receiveFrame_uncomp (packet : List Byte) :
    receiveFrame (0x41 :: packet) a s = .next (s.deliverUncompressed packet) := by
  have hc : classify (0x41 :: packet) = (.ipv6Uncomp, uncompHdrLen) := classify_long (Nat.le_add_left 1 _)
  simp only [receiveFrame, State.processDatagram, hc]
  rfl

theorem receiveFrame_iphc (base : IphcBase) (rest : List Byte) :
    receiveFrame (iphcByte1 base :: iphcByte2 base :: rest) a s =
      .next (s.deliverOrDrop (decompressBody s.cfg s.ctx a.srcLl a.dstLl base rest)) := by
  have hcls := classOfByte_of_iphcPattern (iphcByte1_pattern base)
  have hc : classify (iphcByte1 base :: iphcByte2 base :: rest) = (.iphc, iphcBaseLen) :=
    (classify_long (by rw [hcls]; exact Nat.le_add_left 2 _)).trans hcls
  simp only [receiveFrame, State.processDatagram, hc, decompress_iphcBytes]

end Classes

/-- Two arrivals of frames as long as each other do the same where their classes do. -/
theorem withFrame_congr {a : Arrival} {m n : Nat} {k k' : State → Result} (hlen : m = n) (hk : ∀ t, k t = k' t)
    (s : State) : withFrame a m k s = withFrame a n k' s := by
  rw [hlen, funext hk]

/-- Settles O21, by the five classes a frame can decode to. -/
theorem rxFrameRunsItsDispatchClass : Obligations.RxFrameRunsItsDispatchClass := by
  unfold Obligations.RxFrameRunsItsDispatchClass
  intro s f a i h
  have hwire : encode i = .frame f a := encode_of_decodeFrame h
  obtain ⟨packet, -, rfl⟩ | ⟨b0, b1, rest, -, -, rfl⟩ | ⟨b0, b1, b2, b3, payload, -, -, rfl⟩ |
    ⟨b0, b1, b2, b3, b4, payload, -, -, rfl⟩ | ⟨b0, rest, -, hdisp, rfl⟩ := decodeFrame_ok_cases h <;> cases hwire
  · exact withFrame_congr (Nat.add_comm _ 1) (fun t => receiveFrame_uncomp a t packet) s
  · exact withFrame_congr (Nat.add_comm _ 2) (fun t => receiveFrame_iphc a t _ rest) s
  · exact withFrame_congr (Nat.add_comm _ 4) (fun t => receiveFrame_frag1 _ _ _ payload a t) s
  · exact withFrame_congr (Nat.add_comm _ 5) (fun t => receiveFrame_fragN _ _ _ payload a t b4) s
  · exact withFrame_congr (Nat.add_comm _ 1)
      (fun _ => receiveFrame_unknown (classify_unknown rest (classOfByte_of_not_dispatched hdisp))) s

-- ## Outside the contract (R265, R304)

theorem withTime_timeBackwards {s : State} {now : Time} {k : State → Result} (hi : s.initDone = true)
    (hn : now < s.lastNow) : withTime now k s = .refused .timeBackwards := by
  rw [withTime, hi, if_neg (by decide), if_pos hn]

/-- TICK is the timeout scan under the test of the time (R242, R304). -/
theorem exec_tick_eq (now : Time) (s : State) :
    exec (.tick now) s = withTime now (fun t => .next ((List.range t.slots.length).foldl (tickSlot now) t)) s := rfl

/-- Settles O26: the length and the time are tested before the frame or the tick is looked at. -/
theorem outsideTheContractIsRefused : Obligations.OutsideTheContractIsRefused := fun _ hi =>
  ⟨fun _ _ hl => withFrame_tooLong hi hl, fun _ _ hl hn => withFrame_timeBackwards hi hl hn,
    fun now hn => (exec_tick_eq now _).trans (withTime_timeBackwards hi hn)⟩

-- ## The receive path without HC_EN (R262)

/-- The state with HC_EN set to `e`. -/
def State.withHcEn (s : State) (e : Bool) : State := { s with hcEn := e }

/-- HC_EN passes through: where the operation answers next, it does so under any HC_EN, with the same next state but for
HC_EN. -/
def IgnoresHcEn (k : State → Result) : Prop :=
  ∀ s s' e, k s = .next s' → k (s.withHcEn e) = .next (s'.withHcEn e)

section HcEn
variable (s : State) (e : Bool)

theorem State.deliverUncompressed_withHcEn (p : List Byte) :
    (s.withHcEn e).deliverUncompressed p = (s.deliverUncompressed p).withHcEn e := by
  rw [State.deliverUncompressed_eq, State.deliverUncompressed_eq]
  split <;> rfl

theorem State.deliverOrDrop_withHcEn (x : Except Status (List Byte)) :
    (s.withHcEn e).deliverOrDrop x = (s.deliverOrDrop x).withHcEn e := by
  cases x with
  | ok p => rfl
  | error st => rfl

theorem State.processDatagram_withHcEn (dg : List Byte) (srcLl dstLl : LLAddr) :
    (s.withHcEn e).processDatagram dg srcLl dstLl = (s.processDatagram dg srcLl dstLl).withHcEn e := by
  unfold State.processDatagram
  split
  · exact s.deliverUncompressed_withHcEn e _
  · exact s.deliverOrDrop_withHcEn e _
  all_goals rfl

theorem State.failSlot_withHcEn (m : Option (Nat × Slot)) :
    (s.withHcEn e).failSlot m = (s.failSlot m).withHcEn e := by
  cases m with
  | none => rfl
  | some found => rfl

theorem State.storeFragment_withHcEn (i : Nat) (sl : Slot) (off : Nat) (data : List Byte) (dstLl : LLAddr) :
    (s.withHcEn e).storeFragment i sl off data dstLl = (s.storeFragment i sl off data dstLl).withHcEn e := by
  simp only [State.storeFragment]
  split
  · rfl
  · exact State.processDatagram_withHcEn ((s.putSlot i _).freeSlot i) e _ _ _

variable {s}

theorem State.chooseSlot_withHcEn {t : State} {i : Nat} (h : s.chooseSlot = some (i, t)) :
    (s.withHcEn e).chooseSlot = some (i, t.withHcEn e) := by
  obtain ⟨hempty, rfl⟩ | ⟨hfull, hlast, rfl⟩ := s.chooseSlot_cases i t h
  · exact State.chooseSlot_of_empty (s := t.withHcEn e) hempty
  · exact State.chooseSlot_of_full (s := s.withHcEn e) ((findEmpty_none s.slots 0).1 hfull) hlast

end HcEn

theorem reassemble_ignoresHcEn (a : Arrival) (size : BitVec 11) (tag : BitVec 16) (off : Nat) (data : List Byte) :
    IgnoresHcEn (reassemble a size tag off data) := fun s s' e h => by
  obtain ⟨h0, rfl⟩ | ⟨h0, hover, rfl⟩ | ⟨h0, hfit, i, sl, hm, hsize, rfl⟩ | ⟨h0, hfit, i, sl, hm, hsize, rfl⟩ |
    ⟨h0, hfit, hm, i, t, hc, rfl⟩ := reassemble_next a size tag off data s s' h
  · exact reassemble_zero h0
  · rw [reassemble_overflow h0 hover, State.failSlot_withHcEn]; rfl
  · exact reassemble_mismatch (s := s.withHcEn e) h0 hfit hm hsize
  · rw [reassemble_match (s := s.withHcEn e) h0 hfit hm hsize, State.storeFragment_withHcEn]
  · rw [reassemble_new (s := s.withHcEn e) h0 hfit hm (State.chooseSlot_withHcEn e hc), State.storeFragment_withHcEn]

theorem withFrame_ignoresHcEn (a : Arrival) (len : Nat) {k : State → Result} (hk : IgnoresHcEn k) :
    IgnoresHcEn (withFrame a len k) := fun s s' e h => by
  obtain ⟨hi, rfl⟩ | ⟨hi, hl, hn, he⟩ := withFrame_next a len k s s' h
  · exact withFrame_uninit (s := s'.withHcEn e) hi
  · exact (withFrame_admitted a len k (s.withHcEn e) hi hl hn).trans (hk _ s' e he)

theorem IgnoresHcEn.of_next {g : State → State} (h : ∀ s e, g (s.withHcEn e) = (g s).withHcEn e) :
    IgnoresHcEn (fun s => .next (g s)) := fun s s' e he => by
  cases he
  exact congrArg Host.Outcome.next (h s e)

theorem receiveFrame_ignoresHcEn (f : List Byte) (a : Arrival) : IgnoresHcEn (receiveFrame f a) := by
  unfold receiveFrame
  split
  · exact .of_next fun _ _ => rfl
  · exact .of_next fun _ _ => rfl
  · exact reassemble_ignoresHcEn a _ _ _ _
  · exact reassemble_ignoresHcEn a _ _ _ _
  · exact .of_next fun s e => s.processDatagram_withHcEn e f _ _
  · exact .of_next fun s e => s.processDatagram_withHcEn e f _ _

theorem exec_tick_ignoresHcEn (now : Time) : IgnoresHcEn (exec (.tick now)) := fun s s' e h => by
  obtain ⟨hi, rfl⟩ | ⟨hi, hn, -⟩ := withTime_next now _ s s' ((exec_tick_eq now s).symm.trans h)
  · exact exec_tick_uninit (s := s'.withHcEn e) hi
  · cases h.symm.trans (exec_tick_admitted hi hn)
    exact exec_tick_admitted (s := s.withHcEn e) hi hn

theorem exec_nhcUdp_uninit {s : State} {o : NhcOuter} {p : BitVec 2} {rest : List Byte} (hi : s.initDone = false) :
    exec (.nhcUdp o p rest) s = .next s := if_pos (by rw [hi]; rfl)

theorem exec_nhcUdp_ignoresHcEn (o : NhcOuter) (p : BitVec 2) (rest : List Byte) :
    IgnoresHcEn (exec (.nhcUdp o p rest)) := fun s s' e h => by
  cases hi : s.initDone with
  | false =>
    cases h.symm.trans (exec_nhcUdp_uninit hi)
    exact exec_nhcUdp_uninit (s := s.withHcEn e) hi
  | true =>
    rw [exec_nhcUdp_of_init hi] at h
    rw [exec_nhcUdp_of_init (s := s.withHcEn e) hi]
    split at h
    · next hn =>
      cases h
      exact if_pos hn
    · next hn =>
      cases h
      exact (if_neg hn).trans (congrArg Host.Outcome.next (s.deliverOrDrop_withHcEn e _))

/-- No instruction of the receive path reads HC_EN. -/
theorem exec_receive_ignoresHcEn {i : Instr} (h : i.isHostOp = false) : IgnoresHcEn (exec i) := by
  cases i with
  | rxFrame f a => exact withFrame_ignoresHcEn a _ (receiveFrame_ignoresHcEn f a)
  | tick now => exact exec_tick_ignoresHcEn now
  | ipv6Uncomp a p => exact withFrame_ignoresHcEn a _ (.of_next fun s e => s.deliverUncompressed_withHcEn e p)
  | iphc a => exact withFrame_ignoresHcEn a _ (.of_next fun s e => s.deliverOrDrop_withHcEn e _)
  | frag1 a => exact withFrame_ignoresHcEn a _ (reassemble_ignoresHcEn a _ _ _ _)
  | fragN a => exact withFrame_ignoresHcEn a _ (reassemble_ignoresHcEn a _ _ _ _)
  | unknown a => exact withFrame_ignoresHcEn a _ (.of_next fun _ _ => rfl)
  | nhcUdp o p rest => exact exec_nhcUdp_ignoresHcEn o p rest
  | init | initRouter | send | setHc | register | ctxLookup | ctxInsert | ctxRemove | readStatus | badOp => cases h

/-- Settles O60, instruction by instruction of the receive path. -/
theorem receivePathIgnoresHcEn : Obligations.ReceivePathIgnoresHcEn := fun s s' _ e hi h =>
  exec_receive_ignoresHcEn hi s s' e h

end Sys2Proof.Machine

/-! The exceptions family (spec/60_exceptions.md R290 to R304): what the receive path leaves alone (O59), what no step
takes back (O58), and that no input faults the block (O27, O57). First the shapes of an outcome that the lemmas speak
of; then one lemma per operation, then the step and the run. -/

namespace Sys2Proof.Machine

-- ## Outcomes

/-- Where the outcome is a next state, that state has `R`. -/
def Leads (R : State → Prop) (r : Result) : Prop := ∀ s', r = .next s' → R s'

/-- The outcome is a next state with `R` or a refusal, and no fault. -/
inductive Answered (R : State → Prop) : Result → Prop
  | next {s' : State} (h : R s') : Answered R (.next s')
  | refused {e : Refusal} : Answered R (.refused e)

section Outcomes
variable {R S : State → Prop} {r : Result}

theorem Leads.next {s' : State} (h : R s') : Leads R (.next s') := by
  rintro _ ⟨⟩
  exact h

theorem Leads.mono (h : Leads R r) (hRS : ∀ t, R t → S t) : Leads S r := fun s' he => hRS s' (h s' he)

theorem Answered.leads (h : Answered R r) : Leads R r := by
  cases h with
  | next h => exact .next h
  | refused => exact nofun

theorem Answered.ne_fault (h : Answered R r) (f : Fault) : r ≠ .fault f := by
  cases h with
  | next => exact nofun
  | refused => exact nofun

theorem Answered.ite {c : Prop} [Decidable c] {x y : Result} (hx : Answered R x) (hy : Answered R y) :
    Answered R (if c then x else y) := by
  split
  · exact hx
  · exact hy

end Outcomes

-- ## What the receive path leaves alone (R290, R293, R302)

/-- Only the receive side differs: the pool, the counters, LAST_ERR, the outputs, and the time, which does not run
backwards. -/
structure State.ReceiveSideOnly (s s' : State) : Prop where
  rest : s' = { s with
    slots := s'.slots, lru := s'.lru, cntEvictLru := s'.cntEvictLru, cntEvictCorrupt := s'.cntEvictCorrupt
    cntTimeout := s'.cntTimeout, cntDrop := s'.cntDrop, lastErr := s'.lastErr, out := s'.out, lastNow := s'.lastNow }
  now : s.lastNow ≤ s'.lastNow

section ReceiveSide
variable {s : State}

theorem State.ReceiveSideOnly.trans {t u : State} (h : s.ReceiveSideOnly t) (h' : t.ReceiveSideOnly u) :
    s.ReceiveSideOnly u where
  rest := h'.rest.trans (by rw [h.rest])
  now := h.now.trans h'.now

theorem State.deliverUncompressed_receiveSideOnly (p : List Byte) : s.ReceiveSideOnly (s.deliverUncompressed p) := by
  unfold State.deliverUncompressed
  split
  · exact ⟨rfl, le_rfl⟩
  · exact ⟨rfl, le_rfl⟩

theorem State.deliverOrDrop_receiveSideOnly (x : Except Status (List Byte)) :
    s.ReceiveSideOnly (s.deliverOrDrop x) := by
  cases x with
  | ok p => exact ⟨rfl, le_rfl⟩
  | error e => exact ⟨rfl, le_rfl⟩

theorem State.processDatagram_receiveSideOnly (dg : List Byte) (srcLl dstLl : LLAddr) :
    s.ReceiveSideOnly (s.processDatagram dg srcLl dstLl) := by
  obtain ⟨p, he⟩ | ⟨e, he⟩ := s.processDatagram_cases dg srcLl dstLl <;> rw [he]
  · exact ⟨rfl, le_rfl⟩
  · exact ⟨rfl, le_rfl⟩

theorem State.failSlot_receiveSideOnly (m : Option (Nat × Slot)) : s.ReceiveSideOnly (s.failSlot m) := by
  cases m with
  | none => exact ⟨rfl, le_rfl⟩
  | some found => exact ⟨rfl, le_rfl⟩

theorem State.chooseSlot_receiveSideOnly {t : State} {i : Nat} (h : s.chooseSlot = some (i, t)) :
    s.ReceiveSideOnly t := by
  obtain ⟨-, rfl⟩ | ⟨-, -, rfl⟩ := s.chooseSlot_cases i t h
  · exact ⟨rfl, le_rfl⟩
  · exact ⟨rfl, le_rfl⟩

theorem State.storeFragment_receiveSideOnly (i : Nat) (sl : Slot) (off : Nat) (data : List Byte) (dstLl : LLAddr) :
    s.ReceiveSideOnly (s.storeFragment i sl off data dstLl) := by
  obtain ⟨-, he⟩ | ⟨dg, -, he⟩ := s.storeFragment_cases i sl off data dstLl <;> rw [he]
  · exact ⟨rfl, le_rfl⟩
  · rw [State.freeSlot_putSlot]
    exact .trans (t := s.freeSlot i) ⟨rfl, le_rfl⟩ (State.processDatagram_receiveSideOnly dg _ _)

theorem reassemble_receiveSideOnly (a : Arrival) (size : BitVec 11) (tag : BitVec 16) (off : Nat) (data : List Byte) :
    Leads s.ReceiveSideOnly (reassemble a size tag off data s) := fun s' he => by
  obtain ⟨-, rfl⟩ | ⟨-, -, rfl⟩ | ⟨-, -, i, sl, -, -, rfl⟩ | ⟨-, -, i, sl, -, -, rfl⟩ | ⟨-, -, -, i, t, hc, rfl⟩ :=
    reassemble_next a size tag off data s s' he
  · exact ⟨rfl, le_rfl⟩
  · exact (State.failSlot_receiveSideOnly _).trans ⟨rfl, le_rfl⟩
  · exact ⟨rfl, le_rfl⟩
  · exact State.storeFragment_receiveSideOnly i sl off data a.dstLl
  · exact (State.chooseSlot_receiveSideOnly hc).trans (State.storeFragment_receiveSideOnly i _ off data a.dstLl)

theorem receiveFrame_receiveSideOnly (f : List Byte) (a : Arrival) :
    Leads s.ReceiveSideOnly (receiveFrame f a s) := by
  unfold receiveFrame
  split
  · exact .next ⟨rfl, le_rfl⟩
  · exact .next ⟨rfl, le_rfl⟩
  · exact reassemble_receiveSideOnly a _ _ _ _
  · exact reassemble_receiveSideOnly a _ _ _ _
  · exact .next (State.processDatagram_receiveSideOnly f _ _)
  · exact .next (State.processDatagram_receiveSideOnly f _ _)

theorem withFrame_receiveSideOnly (a : Arrival) (len : Nat) {k : State → Result}
    (hk : ∀ t : State, Leads t.ReceiveSideOnly (k t)) : Leads s.ReceiveSideOnly (withFrame a len k s) := fun s' he => by
  obtain ⟨-, rfl⟩ | ⟨-, -, hnow, he⟩ := withFrame_next a len k s s' he
  · exact ⟨rfl, le_rfl⟩
  · exact .trans (t := { s with lastNow := a.now }) ⟨rfl, hnow⟩ (hk _ s' he)

theorem rxTruncated_receiveSideOnly (a : Arrival) (len : Nat) : Leads s.ReceiveSideOnly (rxTruncated a len s) :=
  withFrame_receiveSideOnly a len fun _ => .next ⟨rfl, le_rfl⟩

theorem exec_tick_answered (now : Time) : Answered s.ReceiveSideOnly (exec (.tick now) s) := by
  cases hi : s.initDone with
  | false => exact exec_tick_uninit hi ▸ .next ⟨rfl, le_rfl⟩
  | true =>
    obtain hnow | hnow := Nat.lt_or_ge now s.lastNow
    · exact (exec_tick_eq now s).trans (withTime_timeBackwards hi hnow) ▸ .refused
    · exact exec_tick_admitted hi hnow ▸ .next ⟨rfl, hnow⟩

theorem exec_nhcUdp_answered (o : NhcOuter) (p : BitVec 2) (rest : List Byte) :
    Answered s.ReceiveSideOnly (exec (.nhcUdp o p rest) s) :=
  .ite (.next ⟨rfl, le_rfl⟩) (.ite (.next ⟨rfl, le_rfl⟩) (.next (State.deliverOrDrop_receiveSideOnly _)))

/-- Every instruction of the receive path. -/
theorem exec_receiveSideOnly {i : Instr} (h : i.isHostOp = false) : Leads s.ReceiveSideOnly (exec i s) := by
  cases i with
  | rxFrame f a => exact withFrame_receiveSideOnly a _ fun _ => receiveFrame_receiveSideOnly f a
  | tick now => exact (exec_tick_answered now).leads
  | ipv6Uncomp a p => exact withFrame_receiveSideOnly a _ fun _ => .next (State.deliverUncompressed_receiveSideOnly p)
  | iphc a => exact withFrame_receiveSideOnly a _ fun _ => .next (State.deliverOrDrop_receiveSideOnly _)
  | frag1 a => exact withFrame_receiveSideOnly a _ fun _ => reassemble_receiveSideOnly a _ _ _ _
  | fragN a => exact withFrame_receiveSideOnly a _ fun _ => reassemble_receiveSideOnly a _ _ _ _
  | unknown a => exact withFrame_receiveSideOnly a _ fun _ => .next ⟨rfl, le_rfl⟩
  | nhcUdp o p rest => exact (exec_nhcUdp_answered o p rest).leads
  | init | initRouter | send | setHc | register | ctxLookup | ctxInsert | ctxRemove | readStatus | badOp => cases h

end ReceiveSide

/-- Settles O59: an instruction of the receive path writes the receive side only, and what it adds are deliveries. -/
theorem receivePathLeavesSendState : Obligations.ReceivePathLeavesSendState := by
  unfold Obligations.ReceivePathLeavesSendState
  intro s s' i hi he
  have hout : Adds (·.isDlv = true) s s' := exec_receive_emits s hi s' he
  rw [(exec_receiveSideOnly hi s' he).rest]
  exact ⟨rfl, rfl, rfl, rfl, rfl, rfl, rfl, rfl, rfl, rfl, rfl, hout⟩

-- ## An admitted frame is handled (R236, R297)

/-- From every state that keeps the invariant the operation goes on to a next state. -/
def GoesOn (k : State → Result) : Prop := ∀ s, s.Inv → ∃ s', k s = .next s'

/-- The one fault is the choice of a slot, and the invariant leaves one to choose. -/
theorem reassemble_goesOn (a : Arrival) (size : BitVec 11) (tag : BitVec 16) (off : Nat) (data : List Byte) :
    GoesOn (reassemble a size tag off data) := fun s h => by
  by_cases h0 : size = 0
  · exact ⟨_, reassemble_zero h0⟩
  obtain hover | hfit := Nat.lt_or_ge size.toNat (off + data.length)
  · exact ⟨_, reassemble_overflow h0 hover⟩
  cases hm : s.matchSlot a.srcLl tag with
  | some found =>
    by_cases hsize : found.2.size = size
    · exact ⟨_, reassemble_match h0 hfit hm hsize⟩
    · exact ⟨_, reassemble_mismatch h0 hfit hm hsize⟩
  | none =>
    obtain ⟨k, t, hc⟩ := h.exists_chooseSlot
    exact ⟨_, reassemble_new h0 hfit hm hc⟩

theorem receiveFrame_goesOn (f : List Byte) (a : Arrival) : GoesOn (receiveFrame f a) := fun s h => by
  unfold receiveFrame
  split
  · exact ⟨_, rfl⟩
  · exact ⟨_, rfl⟩
  · exact reassemble_goesOn a _ _ _ _ s h
  · exact reassemble_goesOn a _ _ _ _ s h
  · exact ⟨_, rfl⟩
  · exact ⟨_, rfl⟩

/-- RX_FRAME and the five dispatch classes are arrivals of a frame whose work goes on once it is admitted. -/
theorem exec_of_arrival {i : Instr} {a : Arrival} {len : Nat} (h : i.arrival = some (a, len)) :
    ∃ k, GoesOn k ∧ ∀ s, exec i s = withFrame a len k s := by
  cases i with
  | rxFrame f => cases h; exact ⟨_, receiveFrame_goesOn f a, fun _ => rfl⟩
  | ipv6Uncomp => cases h; exact ⟨_, fun _ _ => ⟨_, rfl⟩, fun _ => rfl⟩
  | iphc => cases h; exact ⟨_, fun _ _ => ⟨_, rfl⟩, fun _ => rfl⟩
  | frag1 => cases h; exact ⟨_, reassemble_goesOn a _ _ _ _, fun _ => rfl⟩
  | fragN => cases h; exact ⟨_, reassemble_goesOn a _ _ _ _, fun _ => rfl⟩
  | unknown => cases h; exact ⟨_, fun _ _ => ⟨_, rfl⟩, fun _ => rfl⟩
  | _ => cases h

/-- Settles O27: admission leaves the class's work, on a state that still keeps the invariant. -/
theorem everyAdmittedFrameIsHandled : Obligations.EveryAdmittedFrameIsHandled := by
  unfold Obligations.EveryAdmittedFrameIsHandled
  intro s i a len h harr hadm
  obtain ⟨k, hk, he⟩ := exec_of_arrival harr
  rw [he, withFrame_admitted a len k s hadm.ready hadm.fits hadm.time]
  exact hk _ (h.withNow hadm.time)

-- ## What no operation takes back (R6, R68, R303, R304)

/-- The parameters and the inputs left are the same, an initialised block stays one, and the time does not run
backwards. -/
structure State.Onward (s s' : State) : Prop where
  cfg : s'.cfg = s.cfg
  inputs : s'.inputs = s.inputs
  initDone : s.initDone = true → s'.initDone = true
  now : s.lastNow ≤ s'.lastNow

theorem State.ReceiveSideOnly.onward {s s' : State} (h : s.ReceiveSideOnly s') : s.Onward s' where
  cfg := by rw [h.rest]
  inputs := by rw [h.rest]
  initDone := fun hi => by rwa [h.rest]
  now := h.now

/-- A returned status takes nothing back. -/
theorem Answered.ret {s t : State} {op : Byte} {st : Status} {v : RetVal} (h : s.Onward t) :
    Answered s.Onward (.next (t.ret op st v)) :=
  .next ⟨h.cfg, h.inputs, h.initDone, h.now⟩

section Onward
variable (s : State)

theorem State.startSend_onward (destLl : LLAddr) (p : List Byte) : s.Onward (s.startSend destLl p) := by
  obtain ⟨-, he⟩ | ⟨-, -, he⟩ | ⟨-, -, he⟩ := s.startSend_cases destLl p <;> rw [he]
  · exact ⟨rfl, rfl, id, le_rfl⟩
  · exact ⟨rfl, rfl, id, le_rfl⟩
  · exact ⟨rfl, rfl, id, le_rfl⟩

theorem execRegister_answered (handle : Handle) : Answered s.Onward (execRegister handle s) := by
  refine .ite (.ret ⟨rfl, rfl, id, le_rfl⟩) ?_
  split
  · exact .ret ⟨rfl, rfl, id, le_rfl⟩
  · exact .ret ⟨rfl, rfl, id, le_rfl⟩

theorem exec_hostOp_answered {i : Instr} (h : i.isHostOp = true) : Answered s.Onward (exec i s) := by
  have same : s.Onward s := ⟨rfl, rfl, id, le_rfl⟩
  cases i with
  | init => exact .ite .refused (.ret ⟨rfl, rfl, fun _ => rfl, le_rfl⟩)
  | initRouter => exact .ite .refused (.ite (.ret same) (.ret ⟨rfl, rfl, fun _ => rfl, le_rfl⟩))
  | send destLl p => exact .ite (.ret same) (.ite (.next (s.startSend_onward destLl p)) (.next ⟨rfl, rfl, id, le_rfl⟩))
  | setHc => exact .ite (.ret same) (.ret ⟨rfl, rfl, id, le_rfl⟩)
  | register handle => exact execRegister_answered s handle
  | ctxLookup => exact .ite (.ret same) (.ite (.ret same) (.ret same))
  | ctxInsert => exact .ite (.ret same) (.ite (.ret same) (.ite (.ret same) (.ret ⟨rfl, rfl, id, le_rfl⟩)))
  | ctxRemove => exact .ite (.ret same) (.ite (.ret same) (.ret ⟨rfl, rfl, id, le_rfl⟩))
  | readStatus => exact .ite (.ret same) (.ret same)
  | badOp => exact .ret same
  | rxFrame | tick | ipv6Uncomp | iphc | frag1 | fragN | unknown | nhcUdp => cases h

theorem nhcUndecoded_answered (e : DecodeError) : Answered s.Onward (nhcUndecoded e s) := by
  cases hi : s.initDone with
  | false => exact nhcUndecoded_uninit e hi ▸ .next ⟨rfl, rfl, id, le_rfl⟩
  | true => exact nhcUndecoded_init e hi ▸ .next ⟨rfl, rfl, id, le_rfl⟩

theorem txStep_answered : Answered s.Onward (txStep s) := by
  obtain ⟨f, -, -, he⟩ | ⟨f, -, -, he⟩ | ⟨-, -, he⟩ | ⟨destLl, p, rest, -, -, he⟩ := txStep_cases s <;> rw [he]
  · exact .next ⟨rfl, rfl, id, le_rfl⟩
  · exact .next ⟨rfl, rfl, id, le_rfl⟩
  · exact .next ⟨rfl, rfl, id, le_rfl⟩
  · obtain ⟨hcfg, hin, hi, hnow⟩ := State.startSend_onward { s with sendWait := rest } destLl p
    exact .next ⟨hcfg, hin, hi, hnow⟩

theorem txAnswer_answered (ok : Bool) : Answered s.Onward (txAnswer ok s) := by
  unfold txAnswer
  split
  · exact .refused
  · exact .ite .refused (.ite (.ret ⟨rfl, rfl, id, le_rfl⟩)
      (.ite (.ret ⟨rfl, rfl, id, le_rfl⟩) (.next ⟨rfl, rfl, id, le_rfl⟩)))

theorem exec_onward (i : Instr) : Leads s.Onward (exec i s) := by
  cases h : i.isHostOp with
  | true => exact (exec_hostOp_answered s h).leads
  | false => exact (exec_receiveSideOnly h).mono fun _ => State.ReceiveSideOnly.onward

theorem undecoded_onward (t : Txn) (e : DecodeError) : Leads s.Onward (undecoded t e s) := by
  cases t with
  | op code => exact exec_onward s (.badOp code)
  | frame bytes a => exact (rxTruncated_receiveSideOnly a bytes.length).mono fun _ => State.ReceiveSideOnly.onward
  | nhc => exact (nhcUndecoded_answered s e).leads

theorem runTxn_onward (t : Txn) : Leads s.Onward (runTxn t s) := by
  unfold runTxn
  split
  · exact exec_onward s _
  · exact undecoded_onward s t _

theorem txStep_adds : Emits (fun _ => True) s (txStep s) := by
  obtain ⟨f, -, -, he⟩ | ⟨f, -, -, he⟩ | ⟨-, -, he⟩ | ⟨destLl, p, rest, -, -, he⟩ := txStep_cases s <;> rw [he]
  · exact .none rfl
  · exact .next (.one rfl trivial)
  · exact .none rfl
  · obtain ⟨new, hout, -⟩ := State.startSend_adds { s with sendWait := rest } destLl p
    exact .next ⟨new, hout, fun _ _ => trivial⟩

end Onward

/-- What a step does after it takes an input: it adds outputs and takes nothing back. -/
theorem step_cons {s s' : State} {ev : Event} {rest : List Event} (hin : s.inputs = ev :: rest)
    (he : step s = .next s') :
    Adds (fun _ => True) { s with inputs := rest } s' ∧ ({ s with inputs := rest } : State).Onward s' := by
  cases ev with
  | txn t =>
    rw [step_txn s t rest hin] at he
    exact ⟨(runTxn_emits 0 t _).mono (fun _ _ => trivial) s' he, runTxn_onward _ t s' he⟩
  | tx =>
    rw [step_tx s rest hin] at he
    exact ⟨txStep_adds _ s' he, (txStep_answered _).leads s' he⟩
  | answer ok =>
    rw [step_answer s ok rest hin] at he
    exact ⟨(txAnswer_emits ok _).mono (fun _ _ => trivial) s' he, (txAnswer_answered _ ok).leads s' he⟩

/-- Settles O58, by the input the step takes. -/
theorem stepsOnlyGoForward : Obligations.StepsOnlyGoForward := by
  unfold Obligations.StepsOnlyGoForward
  intro s s' he
  cases hin : s.inputs with
  | nil =>
    cases he.symm.trans (step_nil s hin)
    exact ⟨⟨[], (List.append_nil _).symm⟩, rfl, hin, id, le_rfl⟩
  | cons ev rest =>
    obtain ⟨⟨new, hout, -⟩, hnext⟩ := step_cons hin he
    exact ⟨⟨new, hout⟩, hnext.cfg, hnext.inputs, hnext.initDone, hnext.now⟩

-- ## No input faults the block (R297)

/-- An arrival is ignored, refused or admitted; none of the three faults where the admitted work goes on. -/
theorem withFrame_ne_fault {s : State} (h : s.Inv) (a : Arrival) (len : Nat) {k : State → Result} (hk : GoesOn k)
    (r : Fault) : withFrame a len k s ≠ .fault r := by
  cases hi : s.initDone with
  | false => rw [withFrame_uninit hi]; exact nofun
  | true =>
    obtain hlong | hfits := Nat.lt_or_ge s.cfg.linkMtu len
    · rw [withFrame_tooLong hi hlong]; exact nofun
    obtain hback | hnow := Nat.lt_or_ge a.now s.lastNow
    · rw [withFrame_timeBackwards hi hfits hback]; exact nofun
    obtain ⟨s', he⟩ := hk _ (h.withNow hnow)
    rw [withFrame_admitted a len k s hi hfits hnow, he]
    exact nofun

theorem exec_arrival_ne_fault {s : State} (h : s.Inv) {i : Instr} {a : Arrival} {len : Nat}
    (harr : i.arrival = some (a, len)) (r : Fault) : exec i s ≠ .fault r := by
  obtain ⟨k, hk, he⟩ := exec_of_arrival harr
  rw [he]
  exact withFrame_ne_fault h a len hk r

theorem exec_ne_fault {s : State} (h : s.Inv) (i : Instr) (r : Fault) : exec i s ≠ .fault r := by
  cases i with
  | rxFrame | ipv6Uncomp | iphc | frag1 | fragN | unknown => exact exec_arrival_ne_fault h rfl r
  | tick now => exact (exec_tick_answered now).ne_fault r
  | nhcUdp o p rest => exact (exec_nhcUdp_answered o p rest).ne_fault r
  | init | initRouter | send | setHc | register | ctxLookup | ctxInsert | ctxRemove | readStatus | badOp =>
    exact (exec_hostOp_answered s rfl).ne_fault r

theorem undecoded_ne_fault {s : State} (h : s.Inv) (t : Txn) (e : DecodeError) (r : Fault) :
    undecoded t e s ≠ .fault r := by
  cases t with
  | op code => exact exec_ne_fault h (.badOp code) r
  | frame bytes a => exact withFrame_ne_fault h a bytes.length (fun _ _ => ⟨_, rfl⟩) r
  | nhc => exact (nhcUndecoded_answered s e).ne_fault r

theorem runTxn_ne_fault {s : State} (h : s.Inv) (t : Txn) (r : Fault) : runTxn t s ≠ .fault r := by
  unfold runTxn
  split
  · exact exec_ne_fault h _ r
  · exact undecoded_ne_fault h t _ r

theorem step_ne_fault {s : State} (h : s.Inv) (r : Fault) : step s ≠ .fault r := by
  cases hin : s.inputs with
  | nil => rw [step_nil s hin]; exact nofun
  | cons ev rest =>
    cases ev with
    | txn t => rw [step_txn s t rest hin]; exact runTxn_ne_fault (h.withInputs rest) t r
    | tx => rw [step_tx s rest hin]; exact (txStep_answered _).ne_fault r
    | answer ok => rw [step_answer s ok rest hin]; exact (txAnswer_answered _ ok).ne_fault r

/-- A refusal ends the run. -/
theorem run_of_refused {s : State} {e : Refusal} (h : step s = .refused e) (n : Nat) :
    Host.Core.run core (n + 1) s = .refused e := by
  have hcore : core.step s = .refused e := h
  simp only [Host.Core.run, hcore]

/-- Settles O57, by induction on the length of the run: no step faults, and the invariant goes on to the next state. -/
theorem noInputEverFaultsTheBlock : Obligations.NoInputEverFaultsTheBlock := by
  unfold Obligations.NoInputEverFaultsTheBlock
  intro s h n r
  induction n generalizing s with
  | zero => exact nofun
  | succ n ih =>
    cases hstep : step s with
    | next s' =>
      rw [run_of_step hstep]
      exact ih s' (step_keepsInv s s' h hstep)
    | fault f => exact absurd hstep (step_ne_fault h f)
    | refused e =>
      rw [run_of_refused hstep]
      exact nofun

end Sys2Proof.Machine

/-! The reset family: the elements that hardware reset writes (spec/70_reset_and_hazards.md R320), one equation each. -/

namespace Sys2Proof.Machine

@[simp] theorem State.resetWith_initDone (c : Config) : (State.resetWith c).initDone = false := rfl

@[simp] theorem State.resetWith_tagCtr (c : Config) : (State.resetWith c).tagCtr = c.tagInit := rfl

@[simp] theorem State.resetWith_txq (c : Config) : (State.resetWith c).txq = .idle := rfl

/-- Settles O55: the three writes of R320, each by its equation. -/
theorem resetWritesItsThreeElements : Obligations.ResetWritesItsThreeElements := fun c =>
  ⟨State.resetWith_initDone c, State.resetWith_tagCtr c, State.resetWith_txq c⟩

end Sys2Proof.Machine
